-- ==== Sys2Proof/Word.lean ====
section
/-!
DEFINITION. The plainest types of the block (00_scope.md R10, R11): bytes, pin identifiers, levels, the two word formats.
-/

namespace Sys2Proof

/-- A byte, bit 7 the most significant (R10). -/
abbrev Byte := BitVec 8

/-- A pin identifier: opaque to the block, only handed to the Pin Interface (R6, R61, R170). -/
abbrev PinId := Nat

/-- The level of a line: `false` is 0 (low), `true` is 1 (high) (R14, R172). -/
abbrev Level := Bool

/-- One word as a transfer or a lone nibble presents it to the controller (R70).
`bus9` is {RS, DB7..DB0} with RS at bit 8; `nib5` is {RS, DB7..DB4} with RS at bit 4. -/
inductive BusWord where
  | bus9 (w : BitVec 9)
  | nib5 (w : BitVec 5)
  deriving DecidableEq, Repr

end Sys2Proof
end

