-- ==== Sys2Proof/Config.lean ====
section
/-!
DEFINITION. The configuration record of the block and of its host (00_scope.md R6 to R9, 10_state.md R29), the check
`cfg_ok`, and the free values: constants without a body, which no proof can see into.
-/

namespace Sys2Proof

/-- `BUS_WIDTH` (R6): Half drives 4 data lines, Full drives 8. -/
inductive BusWidth where
  | half
  | full
  deriving DecidableEq, Repr

/-- `FONT` (R6). -/
inductive Font where
  | a
  | b
  deriving DecidableEq, Repr

/-- `ENTRY_DIR` (R6). -/
inductive EntryDir where
  | left
  | right
  deriving DecidableEq, Repr

/-- `W`, the number of data lines (R6). -/
def BusWidth.lineCount : BusWidth → Nat
  | .half => 4
  | .full => 8

/-- A configuration before it is checked: the parameters of R6 and R7, then the host-side parameters of R8.
The options whose domain is a list of names have that list as their type; `lines` is a number, checked by `cfgOk`. -/
structure RawCfg where
  /-- `BUS_WIDTH` -/
  busWidth   : BusWidth
  /-- `PIN_D[0..W-1]`, least significant bit first (R54) -/
  pinD       : List PinId
  /-- `PIN_RS` -/
  pinRS      : PinId
  /-- `PIN_RW` -/
  pinRW      : PinId
  /-- `PIN_E` -/
  pinE       : PinId
  /-- `PIN_DBG`, the optional liveness/debug line -/
  pinDbg     : Option PinId
  /-- `LINES` -/
  lines      : Nat
  /-- `FONT` -/
  font       : Font
  /-- `DISPLAY_ON` (R7), default on -/
  displayOn  : Bool := true
  /-- `CURSOR_ON` -/
  cursorOn   : Bool
  /-- `BLINK_ON` -/
  blinkOn    : Bool
  /-- `ENTRY_DIR` -/
  entryDir   : EntryDir
  /-- `AUTO_SHIFT` -/
  autoShift  : Bool
  /-- `INIT_ROW` -/
  initRow    : Nat
  /-- `T_PW`, microseconds -/
  tPw        : Nat
  /-- `T_SETTLE`, microseconds -/
  tSettle    : Nat
  /-- `T_POWERON`, microseconds -/
  tPowerOn   : Nat
  /-- `T_CLEAR`, microseconds -/
  tClear     : Nat
  /-- host: `ROW_COUNT`, of any size (log 32) -/
  rowCount   : Nat
  /-- host: `ROW_CAPACITY`, terminator included -/
  rowCapacity : Nat
  /-- host: `ROW_ADDR[0..ROW_COUNT-1]`, each a DDRAM address in 0x00..0x7F (R145) -/
  rowAddr    : List (BitVec 7)
  /-- host: `PERIOD`, microseconds -/
  period     : Nat
  deriving DecidableEq, Repr

/-- The pins of PinAssignment in the order RESET configures them (R185): data lines, RS, RW, E, debug line. -/
def RawCfg.pinIds (c : RawCfg) : List PinId :=
  c.pinD ++ [c.pinRS, c.pinRW, c.pinE] ++ c.pinDbg.toList

/-- `cfg_ok` (R9). Its first condition and the domains of the named options hold by the types of the fields. -/
def RawCfg.cfgOk (c : RawCfg) : Bool :=
  (c.pinD.length == c.busWidth.lineCount)
    && (c.lines == 1 || c.lines == 2)
    && decide c.pinIds.Nodup
    && decide (c.initRow < c.rowCount)

/-- What the host-side parameters must satisfy (R141, R145; log 17): one address for each row, the two addresses the
source fixes, and room for the terminator.
DESIGN CHOICE (log 32): `ROW_COUNT` has no upper bound here, as in R9 and D23, although R141 and R145 speak of up to four rows. -/
def RawCfg.hostOk (c : RawCfg) : Bool :=
  (c.rowAddr.length == c.rowCount)
    && (c.rowAddr.take 2 == [0x00#7, 0x40#7].take c.rowCount)
    && decide (1 ≤ c.rowCapacity)

/-- A configuration of a block that exists: the record paired with the proof of its check (R163). -/
structure Cfg where
  raw : RawCfg
  ok  : raw.cfgOk = true ∧ raw.hostOk = true
  deriving DecidableEq, Repr

/-- `INIT_ADDR = ROW_ADDR[INIT_ROW]` (R6, R131). -/
def RawCfg.initAddr (c : RawCfg) : Nat :=
  (c.rowAddr.getD c.initRow 0).toNat

/-! ## Free values

No body: nothing in Lean can evaluate one, so a theorem about the model holds whatever they are. -/

/-- The time, in microseconds, that the `k`-th performed event takes beyond its lower bound (R28, D20; log 5). -/
opaque Config.draw : Nat → Nat

/-- The wake time after a period that was overrun (U13, N14; log 15). -/
opaque Config.overrunWake : Nat → Nat

/-- The wake time of the first deadline, whose origin is not stated (N14; log 15). -/
opaque Config.firstWake : Nat

/-- The level a pin shows when it has never been written (U8; log 16). -/
opaque Config.freeLevel : Nat → Level

/-- `T_PW` of the standard configuration: no number is in the spec (R8, D28; log 4). -/
opaque Config.tPw : Nat

/-- `T_SETTLE` of the standard configuration (R8, D28; log 4). -/
opaque Config.tSettle : Nat

/-- `T_POWERON` of the standard configuration (R8, D28; log 4). -/
opaque Config.tPowerOn : Nat

/-- `T_CLEAR` of the standard configuration (R8, D28; log 4). -/
opaque Config.tClear : Nat

/-- `PERIOD` of the standard configuration (R8, D23; log 4). -/
opaque Config.period : Nat

/-- `ROW_ADDR[2]` of the standard configuration (R145, D23; log 4). -/
opaque Config.rowAddr2 : BitVec 7

/-- `ROW_ADDR[3]` of the standard configuration (R145, D23; log 4). -/
opaque Config.rowAddr3 : BitVec 7

/-- The configuration `State.reset` is built from (DESIGN CHOICE, log 3): a Half block with the standard options of
95_test_vectors.md and the source's example of four rows of 16 characters. Every statement is made for every
configuration; this one only gives the model one state to run from. -/
def Config.standardRaw : RawCfg where
  busWidth := .half
  pinD := [0, 1, 2, 3]
  pinRS := 4
  pinRW := 5
  pinE := 6
  pinDbg := none
  lines := 2
  font := .a
  displayOn := true
  cursorOn := false
  blinkOn := false
  entryDir := .right
  autoShift := false
  initRow := 0
  tPw := Config.tPw
  tSettle := Config.tSettle
  tPowerOn := Config.tPowerOn
  tClear := Config.tClear
  rowCount := 4
  rowCapacity := 17
  rowAddr := [0x00#7, 0x40#7, Config.rowAddr2, Config.rowAddr3]
  period := Config.period

/-- `Config.standardRaw` with its check (log 3). -/
def Config.standard : Cfg where
  raw := Config.standardRaw
  ok := ⟨by decide, by decide⟩

end Sys2Proof
end

