-- ==== Sys2Proof/Syntax.lean ====
section
/-!
DEFINITION. The command set of the block (30_encoding.md R83): one constructor for each row of spec/opcode_table.json.
Operands are natural numbers of any size (R73, D9), in the order of the assembly operands.
-/

namespace Sys2Proof

/-- The commands of the block (R83). -/
inductive Instr where
  /-- `CLEAR` (R92) -/
  | clear
  /-- `HOME` (R93) -/
  | home
  /-- `ENTRY id, s` (R94) -/
  | entry (id s : Nat)
  /-- `DISPCTL d, c, b` (R95) -/
  | dispctl (d c b : Nat)
  /-- `SHIFT sc, rl` (R96) -/
  | shift (sc rl : Nat)
  /-- `FUNCSET dl, n, f` (R97) -/
  | funcset (dl n f : Nat)
  /-- `SETCG a` (R98) -/
  | setcg (a : Nat)
  /-- `SETDD a` (R99) -/
  | setdd (a : Nat)
  /-- `SEND_INSTRUCTION b` (R115) -/
  | sendInstruction (b : Nat)
  /-- `WRITE b` (R116) -/
  | write (b : Nat)
  /-- `INIT_NIBBLE` (R130) -/
  | initNibble
  /-- `INIT` (R131) -/
  | init
  deriving DecidableEq, Repr

end Sys2Proof
end

