-- ==== Sys2Proof/Machine/Operands.lean ====
section
/-!
DEFINITION. Operand assembly (30_encoding.md R73, R76; 00_scope.md R11): masking an operand to its field, placing a field in
a byte, and the nibble splitter (41_bus_transfer.md R114).
-/

namespace Sys2Proof.Machine

/-- `mask_w(x) = x mod 2^w` (R11). -/
def maskW (w x : Nat) : Nat := x % 2 ^ w

/-- A field of an instruction byte: the operand masked to `w` bits, shifted to bit `lo` (R73). -/
def field (w lo x : Nat) : Byte := BitVec.ofNat 8 (maskW w x) <<< lo

/-- A byte argument of a transfer: `mask_8(b)` (R112, D9). -/
def byteOperand (b : Nat) : Byte := BitVec.ofNat 8 (maskW 8 b)

/-- `mask_1(x)` as one bit. -/
def bitOperand (x : Nat) : BitVec 1 := BitVec.ofNat 1 (maskW 1 x)

/-- The high nibble `b[7:4]` (R114). -/
def hi (b : Byte) : Byte := (b >>> 4) &&& 0x0F#8

/-- The low nibble `b[3:0]` (R114). -/
def lo (b : Byte) : Byte := b &&& 0x0F#8

end Sys2Proof.Machine
end

