-- ==== Sys2Proof/Machine/Encoder.lean ====
section
/-!
DEFINITION. The Instruction Encoder (40_encoder_commands.md R90): eight pure, total functions from natural-number operands to
a byte. They read nothing but their operands.
-/

namespace Sys2Proof.Machine

/-- R92 -/
def encClear : Byte := 0x01#8

/-- R93; bit 0 is 0 (D30). -/
def encHome : Byte := 0x02#8

/-- R94: `0000 01 ID S`. -/
def encEntry (id s : Nat) : Byte := 0x04#8 ||| field 1 1 id ||| field 1 0 s

/-- R95: `0000 1 D C B`. -/
def encDispctl (d c b : Nat) : Byte := 0x08#8 ||| field 1 2 d ||| field 1 1 c ||| field 1 0 b

/-- R96: `0001 SC RL - -`, the two unused bits 0 (R74, D8). -/
def encShift (sc rl : Nat) : Byte := 0x10#8 ||| field 1 3 sc ||| field 1 2 rl

/-- R97: `001 DL N F - -`, the two unused bits 0 (R74, D8). -/
def encFuncset (dl n f : Nat) : Byte := 0x20#8 ||| field 1 4 dl ||| field 1 3 n ||| field 1 2 f

/-- R98: `01 AAAAAA`. -/
def encSetcg (a : Nat) : Byte := 0x40#8 ||| field 6 0 a

/-- R99: `1 AAAAAAA`. -/
def encSetdd (a : Nat) : Byte := 0x80#8 ||| field 7 0 a

end Sys2Proof.Machine
end

