-- ==== Sys2Proof/Machine/Flags.lean ====
section
/-!
DEFINITION. The block has no status flag, condition code or predicate (10_state.md R26), so no flag is computed anywhere.
What the spec calls flags are the option bits of the configuration: the table of 00_scope.md R9, in one place, as D6 asks.
-/

namespace Sys2Proof.Machine

/-- An on/off option as a bit: on is 1 (R9, D7). -/
def onBit (b : Bool) : Nat := if b then 1 else 0

/-- `DL`: Full is 1, Half is 0 (R9, D6). -/
def dlBit (c : RawCfg) : Nat :=
  match c.busWidth with
  | .full => 1
  | .half => 0

/-- `N = LINES - 1` (R9, R131, D6). -/
def nBit (c : RawCfg) : Nat := c.lines - 1

/-- `F_bit`: font A is 0, font B is 1 (R9, D6). -/
def fBit (c : RawCfg) : Nat :=
  match c.font with
  | .a => 0
  | .b => 1

/-- `D_bit` (R9). -/
def dBit (c : RawCfg) : Nat := onBit c.displayOn

/-- `C_bit` (R9). -/
def cBit (c : RawCfg) : Nat := onBit c.cursorOn

/-- `B_bit` (R9). -/
def bBit (c : RawCfg) : Nat := onBit c.blinkOn

/-- `ID_bit`: right is increment is 1 (R9, D7). -/
def idBit (c : RawCfg) : Nat :=
  match c.entryDir with
  | .right => 1
  | .left => 0

/-- `S_bit` (R9, D7). -/
def sBit (c : RawCfg) : Nat := onBit c.autoShift

end Sys2Proof.Machine
end

