-- ==== Sys2Proof/WellFormed.lean ====
section
/-!
DEFINITION. When a command is well formed: every operand fits its field (30_encoding.md R71, R73), so that its word loses
nothing of it. A command that is not well formed still runs: its operands are masked (R73).
-/

namespace Sys2Proof

/-- Every operand fits its field (R71). -/
def Instr.wellFormed : Instr → Bool
  | .clear => true
  | .home => true
  | .entry id s => decide (id < 2) && decide (s < 2)
  | .dispctl d c b => decide (d < 2) && decide (c < 2) && decide (b < 2)
  | .shift sc rl => decide (sc < 2) && decide (rl < 2)
  | .funcset dl n f => decide (dl < 2) && decide (n < 2) && decide (f < 2)
  | .setcg a => decide (a < 64)
  | .setdd a => decide (a < 128)
  | .sendInstruction b => decide (b < 256)
  | .write b => decide (b < 256)
  | .initNibble => true
  | .init => true

/-- The bytes the eight encoder functions produce: 218 of the 256 (R80). -/
def inEncoderImage (b : Nat) : Bool :=
  b == 0x01 || b == 0x02 || (decide (0x04 ≤ b) && decide (b ≤ 0x0F))
    || (decide (0x10 ≤ b) && decide (b ≤ 0x3F) && b % 4 == 0) || (decide (0x40 ≤ b) && decide (b ≤ 0xFF))

/-- The command a bus word stands for when it is decoded: a raw send of a byte that an encoder command produces is
read as that command (R84, R86), and `INIT` is a sequence with no word of its own (R83). -/
def Instr.canonical : Instr → Bool
  | .sendInstruction b => (Instr.sendInstruction b).wellFormed && !inEncoderImage b
  | .init => false
  | i => i.wellFormed

/-- The command with every operand masked to its field (R73). -/
def Instr.masked : Instr → Instr
  | .clear => .clear
  | .home => .home
  | .entry id s => .entry (id % 2) (s % 2)
  | .dispctl d c b => .dispctl (d % 2) (c % 2) (b % 2)
  | .shift sc rl => .shift (sc % 2) (rl % 2)
  | .funcset dl n f => .funcset (dl % 2) (n % 2) (f % 2)
  | .setcg a => .setcg (a % 64)
  | .setdd a => .setdd (a % 128)
  | .sendInstruction b => .sendInstruction (b % 256)
  | .write b => .write (b % 256)
  | .initNibble => .initNibble
  | .init => .init

end Sys2Proof
end

