-- ==== Sys2Proof/Decode.lean ====
section
/-!
DEFINITION. Decoding a bus word by the rows of spec/opcode_table.json (30_encoding.md R71, R72, R86), and the encoder that gives
a command its word. The block contains no decoder (R72): the decoder is how the model takes a command given as a word.
-/

namespace Sys2Proof

/-- A row of the opcode table: a word `w` belongs to it when `w & mask = pattern` (R86). -/
structure Row where
  mnemonic : String
  mask     : BitVec 9
  pattern  : BitVec 9
  deriving DecidableEq, Repr

/-- R86 -/
def Row.hit (r : Row) (w : BitVec 9) : Bool := (w &&& r.mask) == r.pattern

def rowClear : Row := ⟨"CLEAR", 0x1FF#9, 0x001#9⟩
def rowHome : Row := ⟨"HOME", 0x1FF#9, 0x002#9⟩
def rowEntry : Row := ⟨"ENTRY", 0x1FC#9, 0x004#9⟩
def rowDispctl : Row := ⟨"DISPCTL", 0x1F8#9, 0x008#9⟩
def rowShift : Row := ⟨"SHIFT", 0x1F3#9, 0x010#9⟩
def rowFuncset : Row := ⟨"FUNCSET", 0x1E3#9, 0x020#9⟩
def rowSetcg : Row := ⟨"SETCG", 0x1C0#9, 0x040#9⟩
def rowSetdd : Row := ⟨"SETDD", 0x180#9, 0x080#9⟩
def rowSendInstruction : Row := ⟨"SEND_INSTRUCTION", 0x100#9, 0x000#9⟩
def rowWrite : Row := ⟨"WRITE", 0x100#9, 0x100#9⟩

/-- The rows other than the generic `SEND_INSTRUCTION`: no word belongs to two of them (R72). -/
def specificRows : List Row :=
  [rowClear, rowHome, rowEntry, rowDispctl, rowShift, rowFuncset, rowSetcg, rowSetdd, rowWrite]

/-- The field of `len` bits whose lowest bit is bit `lo` of the word. -/
def wordField (w : BitVec 9) (lo len : Nat) : Nat := (w.extractLsb' lo len).toNat

/-- A `BUS9` word: the specific rows first, then the generic `SEND_INSTRUCTION` (R86). -/
def decodeBus9 (w : BitVec 9) : Instr :=
  if rowWrite.hit w then .write (wordField w 0 8)
  else if rowClear.hit w then .clear
  else if rowHome.hit w then .home
  else if rowEntry.hit w then .entry (wordField w 1 1) (wordField w 0 1)
  else if rowDispctl.hit w then .dispctl (wordField w 2 1) (wordField w 1 1) (wordField w 0 1)
  else if rowShift.hit w then .shift (wordField w 3 1) (wordField w 2 1)
  else if rowFuncset.hit w then .funcset (wordField w 4 1) (wordField w 3 1) (wordField w 2 1)
  else if rowSetcg.hit w then .setcg (wordField w 0 6)
  else if rowSetdd.hit w then .setdd (wordField w 0 7)
  else .sendInstruction (wordField w 0 8)

/-- A `NIB5` word: only the lone function-set nibble `0 0010` is one (R79, R130). -/
def decodeNib5 (w : BitVec 5) : Option Instr :=
  if w = 0b00010#5 then some .initNibble else none

/-- Decoding is total; a word that belongs to no row is refused (`none`). -/
def decode : BusWord → Option Instr
  | .bus9 w => some (decodeBus9 w)
  | .nib5 w => decodeNib5 w

/-- The word whose bits are `w`, its format told by its size (R70): `BUS9` has 9 bits (two whole bytes), `NIB5` has 5
(one whole byte); bits above the format are 0. -/
def wordOf (nbits w : Nat) : Option BusWord :=
  if nbits = 9 ∨ nbits = 16 then (if w < 512 then some (.bus9 (BitVec.ofNat 9 w)) else none)
  else if nbits = 5 ∨ nbits = 8 then (if w < 32 then some (.nib5 (BitVec.ofNat 5 w)) else none)
  else none

/-- The instruction the decoder reads from a word whose bits, numbered as the opcode table numbers them, are `w`. -/
def decodeTableWord (nbits w : Nat) : Option Instr := (wordOf nbits w).bind decode

/-- The `BUS9` word {RS, byte} (R70). -/
def bus9 (rs : Bool) (b : Byte) : BusWord := .bus9 ((BitVec.ofBool rs) ++ b)

/-- The byte a command other than `INIT` and `INIT_NIBBLE` puts on the bus, with its register select (R83). -/
def transferOf : Instr → Option (Bool × Byte)
  | .clear => some (false, Machine.encClear)
  | .home => some (false, Machine.encHome)
  | .entry id s => some (false, Machine.encEntry id s)
  | .dispctl d c b => some (false, Machine.encDispctl d c b)
  | .shift sc rl => some (false, Machine.encShift sc rl)
  | .funcset dl n f => some (false, Machine.encFuncset dl n f)
  | .setcg a => some (false, Machine.encSetcg a)
  | .setdd a => some (false, Machine.encSetdd a)
  | .sendInstruction b => some (false, Machine.byteOperand b)
  | .write b => some (true, Machine.byteOperand b)
  | .initNibble => none
  | .init => none

/-- The word of a command (R83): none for `INIT`, which is a sequence. -/
def encodeWord : Instr → Option BusWord
  | .initNibble => some (.nib5 0b00010#5)
  | i => (transferOf i).map fun t => bus9 t.1 t.2

/-- The commands `INIT` issues, in order (R131): the lone nibble only in a Half block. -/
def initCommands (c : RawCfg) : List Instr :=
  (match c.busWidth with
    | .half => [.initNibble]
    | .full => [])
  ++ [.funcset (Machine.dlBit c) (Machine.nBit c) (Machine.fBit c),
      .clear,
      .dispctl (Machine.dBit c) (Machine.cBit c) (Machine.bBit c),
      .entry (Machine.idBit c) (Machine.sBit c),
      .setdd c.initAddr]

/-- The words a command puts on the bus, in order: one word, or for `INIT` those of its sequence (R83, R133, R134). -/
def encode (c : RawCfg) : Instr → List BusWord
  | .init => (initCommands c).filterMap encodeWord
  | i => (encodeWord i).toList

end Sys2Proof
end

