-- ==== Sys2Proof/Machine/State.lean ====
section
/-!
DEFINITION. The state of the block and of its host as plain data (10_state.md R20 to R35), the reasons a step can stop, and
the states at power-up and after the reset sequence (70_reset_and_hazards.md R185).
-/

namespace Sys2Proof.Machine

/-- The direction of a pin (R22). -/
inductive Dir where
  | unconfigured
  | output
  deriving DecidableEq, Repr

/-- An output latch (R21): the level last written, or `unwritten`, the spec's own value for a pin that was never
written (R35, U8). -/
inductive Latch where
  | unwritten
  | level (v : Level)
  deriving DecidableEq, Repr

/-- One pin of PinAssignment: its identifier, direction and latch (R21, R22). -/
structure PinCell where
  id    : PinId
  dir   : Dir
  latch : Latch
  deriving DecidableEq, Repr

/-- The operating mode (R24, R177). -/
inductive Mode where
  | initializing
  | running
  deriving DecidableEq, Repr

/-- An event on the two consumed contracts (R13): `Cfg(p)`, `Wr(p, v)`, `Wait(d)`. -/
inductive Event where
  | cfg (p : PinId)
  | wr (p : PinId) (v : Level)
  | wait (d : Nat)
  deriving DecidableEq, Repr

/-- `shadow.ram` (R30). -/
inductive Ram where
  | unknown
  | ddram
  | cgram
  deriving DecidableEq, Repr

/-- A shadow field: `unknown` is the spec's own value after reset (R30, R35). -/
inductive Known (α : Type) where
  | unknown
  | known (v : α)
  deriving DecidableEq, Repr

/-- The shadow register, the source's DisplayState (R30). -/
structure Shadow where
  ram  : Ram
  addr : Known Nat
  id   : Known (BitVec 1)
  s    : Known (BitVec 1)
  deriving DecidableEq, Repr

/-- The assignments a command makes when its last event has been performed (R24, R31). -/
inductive Update where
  /-- `shadow.ram <- ram; shadow.addr <- a` (SETDD, SETCG) -/
  | address (ram : Ram) (a : Nat)
  /-- `shadow.id <- id; shadow.s <- s` (ENTRY) -/
  | entry (id s : BitVec 1)
  /-- `mode <- Running` (INIT) -/
  | enterRunning
  deriving DecidableEq, Repr

/-- One entry of `pending`: an event, and the assignments made at the moment it has been performed (R25, R31). -/
structure Act where
  event   : Event
  updates : List Update
  deriving DecidableEq, Repr

/-- What the host asks for (43_host_line_renderer.md R151; log 1, 18). -/
inductive Request where
  /-- a blocking call of a command (R15, R151): one step, the big-step reading of R25 -/
  | call (i : Instr)
  /-- a blocking call of the command that a bus word stands for (R86) -/
  | word (nbits w : Nat)
  /-- issue a command and let each later step perform one event: the small-step reading of R25 -/
  | issue (i : Instr)
  /-- `set_line(index, text)` (R142) -/
  | setLine (index : Int) (text : List Byte)
  /-- `display_line(index)` (R143) -/
  | displayLine (index : Int)
  /-- one period of the Running loop, with the content the application chose (R147) -/
  | period (content : List (Int × List Byte))
  /-- toggle the liveness/debug pin (R175) -/
  | toggleDebug
  /-- `deadline_wait(PERIOD)` (R174) -/
  | deadlineWait
  /-- the host's own `busy_wait(d)`, which a raw send may owe the controller (R173, R192, R203) -/
  | busyWait (d : Nat)
  deriving DecidableEq, Repr

/-- The whole state. `cfg` to `trace` are the block's (10_state.md section 1, R29); `rows` and `wake` are the host's (R141,
R148); `queue` holds the requests the host has chosen and the machine has not yet served; `draws` is the model's own. -/
structure State where
  /-- the configuration, read-only for life (R29, R35) -/
  cfg     : Cfg
  /-- `dir[p]` and `pin[p]` for every pin of PinAssignment (R21, R22) -/
  pins    : List PinCell
  /-- R24 -/
  mode    : Mode
  /-- the events of the command in flight that have not been performed (R25) -/
  pending : List Act
  /-- R30 -/
  shadow  : Shadow
  /-- the model clock, microseconds (R28) -/
  now     : Nat
  /-- the events performed so far, each with the time at which it completed (R27) -/
  trace   : List (Event × Nat)
  /-- how many free values have been drawn: the model's own counter (log 5) -/
  draws   : Nat
  /-- the host's requests, the next one first (R15, R25; log 1) -/
  queue   : List Request
  /-- the row buffer (R141) -/
  rows    : List (List Byte)
  /-- the previous deadline, that is the last wake time (R148) -/
  wake    : Nat
  deriving DecidableEq, Repr

/-- The block raises nothing (R160) and no taxonomy class is ever reported (R165), so a step ends in no fault: no constructor. -/
inductive Fault where
  deriving DecidableEq, Repr

/-- Why the model gives a step no next state. Every one is safe: nothing can be proved of a run that is refused. -/
inductive Refusal where
  /-- Raised by `exec` for a constructor without a meaning (none is left). Safe: no run goes on. -/
  | notModelled (mnemonic : String)
  /-- Raised by a command other than `INIT` issued in Initializing (R24, D17, U14), and by a period of the host's Running loop
  asked for there (R146). Safe: no run goes on. -/
  | beforeInit
  /-- Raised by `INIT` issued in Running (R24, R135, U14). Safe: no run goes on. -/
  | initTwice
  /-- Raised by `INIT_NIBBLE` issued in Running: it exists only as step 2 of `INIT` (R57, R130, U4). Safe: no run goes on. -/
  | onlyInsideInit
  /-- Raised by a command issued while the events of another are pending (R25, R118, R136). Safe: no run goes on. -/
  | commandInFlight
  /-- Raised by `Wr` to a pin that is not configured as an output (R22, D21). Safe: no run goes on. -/
  | pinNotConfigured (p : PinId)
  /-- Raised by a word request whose word belongs to no row of the table (R86). Safe: no run goes on. -/
  | unknownWord (nbits w : Nat)
  deriving DecidableEq, Repr

/-- Every shadow field unknown (R35). -/
def Shadow.unknown : Shadow := ⟨.unknown, .unknown, .unknown, .unknown⟩

/-- The events of the reset sequence (R185): configure every pin in order, then E, RW and the debug line to 0. -/
def resetEvents (c : RawCfg) : List Event :=
  c.pinIds.map .cfg ++ [.wr c.pinE false, .wr c.pinRW false] ++ c.pinDbg.toList.map fun p => .wr p false

/-- The least time an event takes: a wait lasts at least its argument (R28). -/
def Event.minTime : Event → Nat
  | .cfg _ => 0
  | .wr _ _ => 0
  | .wait d => d

/-- The events of a list, each with the time at which it completes, when the first starts at `now` and takes the `k`-th
draw (R27, R28). -/
def stamps (k now : Nat) : List Event → List (Event × Nat)
  | [] => []
  | e :: es => (e, now + e.minTime + Config.draw k) :: stamps (k + 1) (now + e.minTime + Config.draw k) es

/-- The time at which the last event of a list completes. -/
def endTime (k now : Nat) : List Event → Nat
  | [] => now
  | e :: es => endTime (k + 1) (now + e.minTime + Config.draw k) es

/-- Every row holds the empty string (R141); the bytes after the terminator are 0x00 (DESIGN CHOICE, log 14). -/
def emptyRows (c : RawCfg) : List (List Byte) := List.replicate c.rowCount (List.replicate c.rowCapacity 0x00#8)

/-- Power-up, before the reset sequence: every pin unconfigured and unwritten, the clock at its origin, and the reset sequence
pending (R185, R35, D16). A power cycle is a new run from here (R179, R186). -/
def State.powerUp (c : Cfg) : State where
  cfg := c
  pins := c.raw.pinIds.map fun p => ⟨p, .unconfigured, .unwritten⟩
  mode := .initializing
  pending := (resetEvents c.raw).map fun e => ⟨e, []⟩
  shadow := Shadow.unknown
  now := 0
  trace := []
  draws := 0
  queue := []
  rows := emptyRows c.raw
  wake := Config.firstWake

/-- What the reset sequence leaves in a latch (R35): E, RW and the debug line 0, the others unwritten. -/
def resetLatch (c : RawCfg) (p : PinId) : Latch :=
  if p = c.pinE ∨ p = c.pinRW ∨ c.pinDbg = some p then .level false else .unwritten

/-- The state right after the reset sequence, before `INIT` is issued (R35), for a block built with `c`. -/
def State.resetFor (c : Cfg) : State where
  cfg := c
  pins := c.raw.pinIds.map fun p => ⟨p, .output, resetLatch c.raw p⟩
  mode := .initializing
  pending := []
  shadow := Shadow.unknown
  now := endTime 0 0 (resetEvents c.raw)
  trace := stamps 0 0 (resetEvents c.raw)
  draws := (resetEvents c.raw).length
  queue := []
  rows := emptyRows c.raw
  wake := Config.firstWake

/-- The machine right after reset (R35), built with the standard configuration (DESIGN CHOICE, log 3). -/
def State.reset : State := State.resetFor Config.standard

end Sys2Proof.Machine
end

