-- ==== Sys2Proof/Machine/Ops.lean ====
section
/-!
DEFINITION. The named operations over the state: reading a pin, performing one event (10_state.md R21, R22, R27, R28), the
assignments of a command, running the pending acts, and one small step (R25).

Taking an exception and returning from one: the spec has neither. "The block raises no synchronous exception" (R160), there is
no trap entry (R168), no trap return (R169) and no interrupt (R166), so no operation stands here for them.
-/

namespace Sys2Proof.Machine

/-- The outcome of a step of this machine. -/
abbrev Result := Host.Outcome State Fault Refusal

/-- Go on from a next state; a refusal stays. -/
def Result.andThen (r : Result) (k : State → Result) : Result :=
  match r with
  | .next s => k s
  | .fault f => .fault f
  | .refused q => .refused q

/-! ## Pins -/

/-- The cell of pin `p`, if the block has it. -/
def findPin (p : PinId) : List PinCell → Option PinCell
  | [] => none
  | c :: cs => if c.id = p then some c else findPin p cs

/-- `dir[p]` (R22). A pin the block does not have is not configured. -/
def State.dirOf (s : State) (p : PinId) : Dir := ((findPin p s.pins).map (·.dir)).getD .unconfigured

/-- The latch of pin `p` among the cells. A pin that is not there was never written. -/
def latchIn (p : PinId) (cs : List PinCell) : Latch := ((findPin p cs).map (·.latch)).getD .unwritten

/-- `pin[p]` (R21): the level last written. -/
def State.latchOf (s : State) (p : PinId) : Latch := latchIn p s.pins

/-- `dir[p] <- output`, the latch as it was (R22). -/
def setOutput (p : PinId) (cs : List PinCell) : List PinCell :=
  cs.map fun c => if c.id = p then { c with dir := .output } else c

/-- `pin[p] <- v` (R21). -/
def setLatch (p : PinId) (v : Level) (cs : List PinCell) : List PinCell :=
  cs.map fun c => if c.id = p then { c with latch := .level v } else c

/-! ## Events -/

/-- Time passes and the event is appended to the trace with the time at which it completed (R27, R28). -/
def State.record (s : State) (e : Event) : State :=
  { s with
    now := s.now + e.minTime + Config.draw s.draws
    draws := s.draws + 1
    trace := s.trace ++ [(e, s.now + e.minTime + Config.draw s.draws)] }

/-- `emit(e)`: perform an event (R21, R22, R28). A `Wr` is admitted only on a configured pin (R22). -/
def emit (e : Event) (s : State) : Result :=
  match e with
  | .cfg p => .next (({ s with pins := setOutput p s.pins } : State).record (.cfg p))
  | .wr p v =>
    if s.dirOf p = .output then .next (({ s with pins := setLatch p v s.pins } : State).record (.wr p v))
    else .refused (.pinNotConfigured p)
  | .wait d => .next (s.record (.wait d))

/-- One assignment a command makes after its last event (R24, R31). -/
def applyUpdate (s : State) : Update → State
  | .address ram a => { s with shadow := { s.shadow with ram := ram, addr := .known a } }
  | .entry id sh => { s with shadow := { s.shadow with id := .known id, s := .known sh } }
  | .enterRunning => { s with mode := .running }

/-- Perform the event of an act, then make its assignments. -/
def perform (a : Act) (s : State) : Result :=
  (emit a.event s).andThen fun t => .next (a.updates.foldl applyUpdate t)

/-- Perform acts one after the other (R25, the big-step reading). -/
def runActs : List Act → State → Result
  | [], s => .next s
  | a :: rest, s => (perform a s).andThen (runActs rest)

/-- One small step (R25): the first pending event is removed and performed. -/
def tick (s : State) : Result :=
  match s.pending with
  | [] => .next s
  | a :: rest => perform a { s with pending := rest }

/-- `n` small steps. -/
def ticks : Nat → State → Result
  | 0, s => .next s
  | n + 1, s => (tick s).andThen (ticks n)

/-! ## From events to acts -/

/-- The acts of a command: its events, with its assignments made when the last one has been performed (R31). -/
def actsOf (us : List Update) : List Event → List Act
  | [] => []
  | [e] => [⟨e, us⟩]
  | e :: es => ⟨e, []⟩ :: actsOf us es

/-- One more assignment at the end of the last act (R24: made by INIT after its last event). -/
def endWith (u : Update) : List Act → List Act
  | [] => []
  | [a] => [{ a with updates := a.updates ++ [u] }]
  | a :: as => a :: endWith u as

end Sys2Proof.Machine
end

