-- ==== Sys2Proof/Machine/Bus.lean ====
section
/-!
DEFINITION. The Bus Sequencer as lists of events (41_bus_transfer.md): the enable pulse, the data-line assertion, the transfer of
one byte with its width selector, and ISSUE (40_encoder_commands.md R91).
-/

namespace Sys2Proof.Machine

/-- `ASSERT(v)` from line `i` on (R117, R54): one write for each data line, ascending, `D[i] <- v[i]`. -/
def assertFrom (v : Byte) (i : Nat) : List PinId → List Event
  | [] => []
  | p :: ps => .wr p (v.getLsbD i) :: assertFrom v (i + 1) ps

/-- `ASSERT(v)` (R117). -/
def assertLines (c : RawCfg) (v : Byte) : List Event := assertFrom v 0 c.pinD

/-- `PULSE(v)` (R110): raise enable, assert the data lines, hold, lower enable, settle. -/
def pulse (c : RawCfg) (v : Byte) : List Event :=
  .wr c.pinE true :: assertLines c v ++ [.wait c.tPw, .wr c.pinE false, .wait c.tSettle]

/-- `SEND(rs, b)` (R111, R112): RS once, then one pulse (Full) or the two nibble pulses, high first (Half). -/
def send (c : RawCfg) (rs : Level) (b : Byte) : List Event :=
  .wr c.pinRS rs ::
    match c.busWidth with
    | .full => pulse c b
    | .half => pulse c (hi b) ++ pulse c (lo b)

/-- `ISSUE(byte, post)` (R91): a transfer with RS = 0, then the completion wait of the commands that have one
(`some T_CLEAR` for CLEAR and HOME, R92, R93; `none` is the rule's `post = 0`; log 11). -/
def issueByte (c : RawCfg) (b : Byte) (post : Option Nat) : List Event :=
  send c false b ++ post.toList.map .wait

end Sys2Proof.Machine
end

