-- ==== Sys2Proof/Machine/Commands.lean ====
section
/-!
DEFINITION. What each command emits and assigns: `events(C)` of 10_state.md R25, one definition for each command
(40_encoder_commands.md R92 to R99, 41_bus_transfer.md R115, R116, 42_init_sequence.md R130, R131).
-/

namespace Sys2Proof.Machine

/-- R92 -/
def actsClear (c : RawCfg) : List Act := actsOf [] (issueByte c encClear (some c.tClear))

/-- R93 -/
def actsHome (c : RawCfg) : List Act := actsOf [] (issueByte c encHome (some c.tClear))

/-- R94 -/
def actsEntry (c : RawCfg) (id s : Nat) : List Act :=
  actsOf [.entry (bitOperand id) (bitOperand s)] (issueByte c (encEntry id s) none)

/-- R95 -/
def actsDispctl (c : RawCfg) (d cu b : Nat) : List Act := actsOf [] (issueByte c (encDispctl d cu b) none)

/-- R96 -/
def actsShift (c : RawCfg) (sc rl : Nat) : List Act := actsOf [] (issueByte c (encShift sc rl) none)

/-- R97 -/
def actsFuncset (c : RawCfg) (dl n f : Nat) : List Act := actsOf [] (issueByte c (encFuncset dl n f) none)

/-- R98 -/
def actsSetcg (c : RawCfg) (a : Nat) : List Act :=
  actsOf [.address .cgram (maskW 6 a)] (issueByte c (encSetcg a) none)

/-- R99 -/
def actsSetdd (c : RawCfg) (a : Nat) : List Act :=
  actsOf [.address .ddram (maskW 7 a)] (issueByte c (encSetdd a) none)

/-- R115 -/
def actsSendInstruction (c : RawCfg) (b : Nat) : List Act := actsOf [] (send c false (byteOperand b))

/-- R116 -/
def actsWrite (c : RawCfg) (b : Nat) : List Act := actsOf [] (send c true (byteOperand b))

/-- R130: RS to 0, then the high nibble of the function-set byte with DL = 0. -/
def actsInitNibble (c : RawCfg) : List Act :=
  actsOf [] (.wr c.pinRS false :: pulse c (hi (encFuncset 0 (nBit c) (fBit c))))

/-- The acts of every command but `INIT`. -/
def actsBasic (c : RawCfg) : Instr → List Act
  | .clear => actsClear c
  | .home => actsHome c
  | .entry id s => actsEntry c id s
  | .dispctl d cu b => actsDispctl c d cu b
  | .shift sc rl => actsShift c sc rl
  | .funcset dl n f => actsFuncset c dl n f
  | .setcg a => actsSetcg c a
  | .setdd a => actsSetdd c a
  | .sendInstruction b => actsSendInstruction c b
  | .write b => actsWrite c b
  | .initNibble => actsInitNibble c
  | .init => []

/-- What is pending when `INIT` is about to issue the commands `l` (R131): their acts, then `mode <- Running`. -/
def initRest (c : RawCfg) (l : List Instr) : List Act := endWith .enterRunning (l.flatMap (actsBasic c))

/-- R131: the power-on wait, then the six steps' commands, then `mode <- Running`. -/
def actsInit (c : RawCfg) : List Act := ⟨.wait c.tPowerOn, []⟩ :: initRest c (initCommands c)

/-- `events(C)` of R25, with the assignments. -/
def actsOfInstr (c : RawCfg) : Instr → List Act
  | .init => actsInit c
  | i => actsBasic c i

end Sys2Proof.Machine
end

