-- ==== Sys2Proof/Machine/Admission.lean ====
section
/-!
DEFINITION. When a command is admitted (10_state.md R24, R25, 42_init_sequence.md R130, R132, R135, R136), and the one operation
every meaning calls: admit a command and perform all its events.
-/

namespace Sys2Proof.Machine

/-- Why the mode turns a command away when nothing is in flight, if it does (R24, R57, R130, D17). -/
def modeRefusal (m : Mode) (i : Instr) : Option Refusal :=
  match m, i with
  | .initializing, .init => none
  | .initializing, _ => some .beforeInit
  | .running, .init => some .initTwice
  | .running, .initNibble => some .onlyInsideInit
  | .running, _ => none

/-- `INIT` is in flight and command `i` is the one of its commands `l` that it issues next (R131). -/
def initReaches (c : RawCfg) (i : Instr) (pending : List Act) : List Instr → Bool
  | [] => false
  | j :: l => (decide (j = i) && decide (pending = initRest c (j :: l))) || initReaches c i pending l

/-- Command `i` is issued by `INIT` at this point of the sequence (R24, R131; log 10). -/
def State.issuedByInit (s : State) (i : Instr) : Bool :=
  initReaches s.cfg.raw i s.pending (initCommands s.cfg.raw)

/-- Admit command `i` and perform all its events and assignments: the big-step reading of R25.
With nothing in flight the mode decides (R24). Inside `INIT` only the command that `INIT` issues next runs, and what `INIT`
still has to do stays pending. Otherwise a command is in flight and no other is accepted (R25, R118, R136). -/
def runCommand (i : Instr) (acts : List Act) (s : State) : Result :=
  if s.pending = [] then
    match modeRefusal s.mode i with
    | none => runActs acts s
    | some r => .refused r
  else if s.issuedByInit i then
    runActs (s.pending.take acts.length) { s with pending := s.pending.drop acts.length }
  else .refused .commandInFlight

/-- Issue command `i` with nothing in flight: `pending <- events(C)` (R25, the small-step reading). -/
def issue (i : Instr) (s : State) : Result :=
  if s.pending = [] then
    match modeRefusal s.mode i with
    | none => .next { s with pending := actsOfInstr s.cfg.raw i }
    | some r => .refused r
  else .refused .commandInFlight

end Sys2Proof.Machine
end

