-- ==== Sys2Proof/Machine/BusTransfer.lean ====
section
/-!
DEFINITION. The meanings of the two entry points of the Bus Sequencer (41_bus_transfer.md R115, R116).
-/

namespace Sys2Proof.Machine

/-- `SEND_INSTRUCTION b` (R115): any byte, uninspected, no completion wait, no shadow update. -/
def execSendInstruction (b : Nat) (s : State) : Result :=
  runCommand (.sendInstruction b) (actsSendInstruction s.cfg.raw b) s

/-- `WRITE b` (R116) -/
def execWrite (b : Nat) (s : State) : Result := runCommand (.write b) (actsWrite s.cfg.raw b) s

end Sys2Proof.Machine
end

