-- ==== Sys2Proof/Machine/EncoderCommands.lean ====
section
/-!
DEFINITION. The meanings of the eight encoder commands (40_encoder_commands.md R92 to R99): each is admitted and then performs all
its events and assignments.
-/

namespace Sys2Proof.Machine

/-- `CLEAR` (R92) -/
def execClear (s : State) : Result := runCommand .clear (actsClear s.cfg.raw) s

/-- `HOME` (R93) -/
def execHome (s : State) : Result := runCommand .home (actsHome s.cfg.raw) s

/-- `ENTRY id, s` (R94) -/
def execEntry (id sh : Nat) (s : State) : Result := runCommand (.entry id sh) (actsEntry s.cfg.raw id sh) s

/-- `DISPCTL d, c, b` (R95) -/
def execDispctl (d c b : Nat) (s : State) : Result := runCommand (.dispctl d c b) (actsDispctl s.cfg.raw d c b) s

/-- `SHIFT sc, rl` (R96) -/
def execShift (sc rl : Nat) (s : State) : Result := runCommand (.shift sc rl) (actsShift s.cfg.raw sc rl) s

/-- `FUNCSET dl, n, f` (R97). It does not change `BUS_WIDTH` (U5). -/
def execFuncset (dl n f : Nat) (s : State) : Result := runCommand (.funcset dl n f) (actsFuncset s.cfg.raw dl n f) s

/-- `SETCG a` (R98) -/
def execSetcg (a : Nat) (s : State) : Result := runCommand (.setcg a) (actsSetcg s.cfg.raw a) s

/-- `SETDD a` (R99) -/
def execSetdd (a : Nat) (s : State) : Result := runCommand (.setdd a) (actsSetdd s.cfg.raw a) s

end Sys2Proof.Machine
end

