-- ==== Sys2Proof/Machine/InitSequence.lean ====
section
/-!
DEFINITION. The meanings of the Initialization Sequencer's commands (42_init_sequence.md R130, R131).
-/

namespace Sys2Proof.Machine

/-- `INIT_NIBBLE` (R130): it runs where `INIT` issues it, as step 2 in a Half block, and is turned away anywhere else. -/
def execInitNibble (s : State) : Result := runCommand .initNibble (actsInitNibble s.cfg.raw) s

/-- `INIT` (R131): the whole fixed sequence, then `mode <- Running`. -/
def execInit (s : State) : Result := runCommand .init (actsInit s.cfg.raw) s

end Sys2Proof.Machine
end

