-- ==== Sys2Proof/Machine/Dispatch.lean ====
section
/-!
DEFINITION. One arm for each command (30_encoding.md R83).
-/

namespace Sys2Proof.Machine

def exec (i : Instr) (s : State) : Host.Outcome State Fault Refusal :=
  match i with
  | .clear => Sys2Proof.Machine.execClear s
  | .home => Sys2Proof.Machine.execHome s
  | .entry id sh => Sys2Proof.Machine.execEntry id sh s
  | .dispctl d c b => Sys2Proof.Machine.execDispctl d c b s
  | .shift sc rl => Sys2Proof.Machine.execShift sc rl s
  | .funcset dl n f => Sys2Proof.Machine.execFuncset dl n f s
  | .setcg a => Sys2Proof.Machine.execSetcg a s
  | .setdd a => Sys2Proof.Machine.execSetdd a s
  | .sendInstruction b => Sys2Proof.Machine.execSendInstruction b s
  | .write b => Sys2Proof.Machine.execWrite b s
  | .initNibble => Sys2Proof.Machine.execInitNibble s
  | .init => Sys2Proof.Machine.execInit s

end Sys2Proof.Machine
end

