-- ==== Sys2Proof/Machine/Driver.lean ====
section
/-!
DEFINITION. The host's Driver Task, at its interface (43_host_line_renderer.md R147, R148; 60_exceptions.md R173 to R175).
-/

namespace Sys2Proof.Machine

/-- What one period of the Running loop asks for, in the listed order (R147, D26): each chosen row set and displayed, the
debug pin toggled, the task suspended until its next deadline. -/
def periodRequests (content : List (Int × List Byte)) : List Request :=
  (content.flatMap fun r => [.setLine r.1 r.2, .displayLine r.1]) ++ [.toggleDebug, .deadlineWait]

/-- One period of the Running loop (R147); the loop runs only in Running (R146). -/
def period (content : List (Int × List Byte)) (s : State) : Result :=
  match s.mode with
  | .running => .next { s with queue := periodRequests content ++ s.queue }
  | .initializing => .refused .beforeInit

/-- The level of a latch, and a free value where it was never written (U8; log 16). -/
def levelOf (k : Nat) : Latch → Level
  | .unwritten => Config.freeLevel k
  | .level v => v

/-- `pin[PIN_DBG] <- 1 - pin[PIN_DBG]` if there is a debug pin (R147, R175, D25). -/
def toggleDebug (s : State) : Result :=
  match s.cfg.raw.pinDbg with
  | none => .next s
  | some p => emit (.wr p (!levelOf s.draws (s.latchOf p))) s

/-- `deadline_wait(PERIOD)` (R148, R174): the next wake time is the previous deadline plus the period. After an iteration
longer than the period the wake time is a free value (U13, N14; log 15). -/
def deadlineWait (s : State) : State :=
  if s.now ≤ s.wake + s.cfg.raw.period then
    { s with now := s.wake + s.cfg.raw.period, wake := s.wake + s.cfg.raw.period }
  else
    { s with now := max s.now (Config.overrunWake s.draws), wake := Config.overrunWake s.draws, draws := s.draws + 1 }

end Sys2Proof.Machine
end

