-- ==== Sys2Proof/Machine/Renderer.lean ====
section
/-!
DEFINITION. The host's Line Buffer & Renderer, at its interface (43_host_line_renderer.md R141 to R145, R149).
-/

namespace Sys2Proof.Machine

/-- The row index is in `[0, ROW_COUNT)`: the one bound of every rule (R142, R143, D22, D29). -/
def rowInRange (c : RawCfg) (index : Int) : Bool := decide (0 ≤ index) && decide (index < c.rowCount)

/-- The characters before the first terminator (R142, R143). -/
def untilTerminator (text : List Byte) : List Byte := text.takeWhile fun ch => ch != 0x00#8

/-- A row after `text` is stored in it (R142): at most `cap - 1` characters, the terminator, then what the row held. -/
def storeText (cap : Nat) (text row : List Byte) : List Byte :=
  let chars := (untilTerminator text).take (cap - 1)
  chars ++ 0x00#8 :: row.drop (chars.length + 1)

/-- `set_line(index, text)` (R142): no event, and nothing at all when the index is out of range. -/
def setLine (index : Int) (text : List Byte) (s : State) : State :=
  let row := storeText s.cfg.raw.rowCapacity text (s.rows.getD index.toNat [])
  if rowInRange s.cfg.raw index then { s with rows := s.rows.set index.toNat row } else s

/-- The commands `display_line(index)` stands for (R85, R143): none when the index is out of range. -/
def displayCommands (s : State) (index : Int) : List Instr :=
  if rowInRange s.cfg.raw index then
    .setdd (s.cfg.raw.rowAddr.getD index.toNat 0).toNat
      :: (untilTerminator (s.rows.getD index.toNat [])).map fun ch => .write ch.toNat
  else []

/-- `display_line(index)` (R143): its commands come before everything the host asks for afterwards. -/
def displayLine (index : Int) (s : State) : State :=
  { s with queue := (displayCommands s index).map .call ++ s.queue }

end Sys2Proof.Machine
end

