-- ==== Sys2Proof/Machine/Serve.lean ====
section
/-!
DEFINITION. How the machine goes on (10_state.md R25, 00_scope.md R15): a command in flight performs its next event; with nothing
in flight the host's next request is served.
-/

namespace Sys2Proof.Machine

/-- Serve one request of the host (R151), already taken from the queue. -/
def serve (r : Request) (s : State) : Result :=
  match r with
  | .call i => exec i s
  | .word nbits w =>
    match decodeTableWord nbits w with
    | some i => exec i s
    | none => .refused (.unknownWord nbits w)
  | .issue i => issue i s
  | .setLine index text => .next (setLine index text s)
  | .displayLine index => .next (displayLine index s)
  | .period content => period content s
  | .toggleDebug => toggleDebug s
  | .deadlineWait => .next (deadlineWait s)
  | .busyWait d => emit (.wait d) s

/-- One step (R25): the first pending event if a command is in flight; else the host's next request, taken from the
queue; else nothing, the block waits for a command (R124 `IDLE`; log 12). -/
def advance (s : State) : Result :=
  match s.pending with
  | _ :: _ => tick s
  | [] =>
    match s.queue with
    | [] => .next s
    | r :: rest => serve r { s with queue := rest }

/-- The state in which the command with this word is the very next thing the machine runs (log 13): the word is the host's
next request, nothing is in flight, and the mode is the one that admits it. The lone nibble is no request: in a Half
block `INIT` is in flight and has come to it. -/
def placeWord (nbits w : Nat) (s : State) : State :=
  match decodeTableWord nbits w with
  | some .initNibble =>
    match s.cfg.raw.busWidth with
    | .half => { s with mode := .initializing, pending := initRest s.cfg.raw (initCommands s.cfg.raw) }
    | .full => { s with mode := .running, pending := [], queue := .word nbits w :: s.queue }
  | _ => { s with mode := .running, pending := [], queue := .word nbits w :: s.queue }

end Sys2Proof.Machine
end

