-- ==== Sys2Proof/Machine/Step.lean ====
section
/-!
DEFINITION. The step function (10_state.md R25), and where a word is placed for the next step to run it.
-/

namespace Sys2Proof.Machine

/-- One step of the machine. -/
def step (s : State) : Host.Outcome State Fault Refusal := advance s

/-- `s` with this word as the very next thing the machine runs (log 13). -/
def State.withFetchWord (s : State) (nbits w : Nat) : State := placeWord nbits w s

end Sys2Proof.Machine
end

