-- ==== Sys2Proof/Machine/Observer.lean ====
section
/-!
DEFINITION. What a trace commits to the controller (41_bus_transfer.md R120, R121) and the times between its edges (R122), as
functions of the trace; and the flag for a violated completion bound (70_reset_and_hazards.md R192, R198).
-/

namespace Sys2Proof.Machine

/-- The tuple `(RS, RW, D[W-1], ..., D[0])` sampled at a latch point (R120). -/
structure LatchedWord where
  rs   : Latch
  rw   : Latch
  data : List Latch
  deriving DecidableEq, Repr

/-- One enable pulse of a trace: when E rose and fell, when a data line was last written before it fell, and the word it
committed (R120, R122). -/
structure Pulse where
  riseAt : Nat
  fallAt : Nat
  dataAt : Nat
  word   : LatchedWord
  deriving DecidableEq, Repr

/-- The observer while it replays a trace: the pin levels so far, the times of the last rise of E and of the last write of a
data line, the pulses so far (newest first), whether RS was written while E was high or less than `T_SETTLE` after E fell
(R122), the time of the last fall that committed a clear or home byte if E has not risen since, and whether a completion
bound was violated (R192). -/
structure Watch where
  pins      : List PinCell
  riseAt    : Nat
  dataAt    : Nat
  pulses    : List Pulse
  rsMoved   : Bool
  clearFall : Option Nat
  hazard    : Bool
  deriving DecidableEq, Repr

/-- The replay starts with every pin unwritten (R120, R35). -/
def Watch.start (c : RawCfg) : Watch where
  pins := c.pinIds.map fun p => ⟨p, .output, .unwritten⟩
  riseAt := 0
  dataAt := 0
  pulses := []
  rsMoved := false
  clearFall := none
  hazard := false

/-- The word on the lines now (R120). -/
def sample (c : RawCfg) (pins : List PinCell) : LatchedWord :=
  ⟨latchIn c.pinRS pins, latchIn c.pinRW pins, c.pinD.reverse.map fun p => latchIn p pins⟩

/-- The number on data lines given most significant first, if each was written. -/
def latchValue : List Latch → Nat → Option Nat
  | [], acc => some acc
  | .unwritten :: _, _ => none
  | .level v :: rest, acc => latchValue rest (2 * acc + v.toNat)

/-- A byte rebuilt from two nibbles with equal RS: `(n1 << 4) | n2` (R114, R121). -/
def pairByte (first second : LatchedWord) : Option (Latch × Nat) :=
  if first.rs = second.rs then
    (latchValue (first.data ++ second.data) 0).map fun n => (first.rs, n)
  else none

/-- The bytes a Half block commits, rebuilt pair by pair (R121). -/
def pairBytes : List LatchedWord → List (Option (Latch × Nat))
  | a :: b :: rest => pairByte a b :: pairBytes rest
  | _ => []

/-- The bytes of a `latched` list (R121): each entry in a Full block; in a Half block the pairs after the lone nibble. -/
def committedBytes (c : RawCfg) (l : List LatchedWord) : List (Option (Latch × Nat)) :=
  match c.busWidth with
  | .full => l.map fun w => (latchValue w.data 0).map fun n => (w.rs, n)
  | .half => pairBytes l.tail

/-- The byte that the newest pulse completes, if it completes one (R121): every pulse in a Full block; in a Half block every
second one after the lone nibble. -/
def completedByte (c : RawCfg) (newestFirst : List Pulse) : Option (Latch × Nat) :=
  match c.busWidth, newestFirst with
  | .full, p :: _ => (latchValue p.word.data 0).map fun n => (p.word.rs, n)
  | .half, p :: q :: rest => if rest.length % 2 = 1 then pairByte q.word p.word else none
  | _, _ => none

/-- A clear-display or return-home instruction byte (R192). -/
def isClearOrHome (b : Option (Latch × Nat)) : Bool :=
  b == some (.level false, 0x01) || b == some (.level false, 0x02)

/-- E rises at `t` (R192): a completion bound is violated if a clear or home byte was committed less than `T_CLEAR` before. -/
def Watch.rise (c : RawCfg) (w : Watch) (t : Nat) : Watch :=
  { w with
    riseAt := t
    clearFall := none
    hazard := w.hazard || (match w.clearFall with
      | some f => decide (t < f + c.tClear)
      | none => false) }

/-- E falls at `t` (R120): the latch point. -/
def Watch.fall (c : RawCfg) (w : Watch) (t : Nat) : Watch :=
  let ps := ⟨w.riseAt, t, w.dataAt, sample c w.pins⟩ :: w.pulses
  { w with
    pulses := ps
    clearFall := if isClearOrHome (completedByte c ps) then some t else w.clearFall }

/-- RS is written at `t` while E is `e` (R122): it must be neither during a pulse nor before the settling time is over. -/
def Watch.select (c : RawCfg) (w : Watch) (e : Latch) (t : Nat) : Watch :=
  { w with rsMoved := w.rsMoved || decide (e = .level true) || (match w.pulses with
      | [] => false
      | p :: _ => decide (t < p.fallAt + c.tSettle)) }

/-- The observer sees one event of the trace (R120): only a change of E from a written level is an edge. -/
def Watch.see (c : RawCfg) (w : Watch) (ev : Event × Nat) : Watch :=
  match ev.1 with
  | .cfg _ => w
  | .wait _ => w
  | .wr p v =>
    let before := latchIn c.pinE w.pins
    let w := { w with pins := setLatch p v w.pins }
    if p = c.pinE then
      if v then (if before = .level true then w else w.rise c ev.2)
      else (if before = .level true then w.fall c ev.2 else w)
    else if p = c.pinRS then w.select c before ev.2
    else if p ∈ c.pinD then { w with dataAt := ev.2 }
    else w

/-- The whole replay (R120). -/
def watch (c : RawCfg) (trace : List (Event × Nat)) : Watch := trace.foldl (Watch.see c) (Watch.start c)

/-- The pulses of a trace, newest first. -/
def pulsesOf (c : RawCfg) (trace : List (Event × Nat)) : List Pulse := (watch c trace).pulses

/-- `latched(trace)` (R120): the committed words in order. -/
def latched (c : RawCfg) (trace : List (Event × Nat)) : List LatchedWord :=
  (pulsesOf c trace).reverse.map (·.word)

/-- The flag of R192: less than `T_CLEAR` separates the fall that commits a clear or home byte from the next rise of E. -/
def clearHazard (c : RawCfg) (trace : List (Event × Nat)) : Bool := (watch c trace).hazard

end Sys2Proof.Machine
end

