-- ==== Sys2Proof/Machine/Phases.lean ====
section
/-!
DEFINITION. The timing controller as a state machine (41_bus_transfer.md R124): the phases of one `SEND`, which emit the same
events as R110 and R112.
-/

namespace Sys2Proof.Machine

/-- R124 -/
inductive Phase where
  | idle
  | eRise
  | data
  | hold
  | eFall
  | settle
  deriving DecidableEq, Repr

/-- The controller of one `SEND`: its phase, the byte of the transfer and which pulse of it, `k` = 1 or 2 (R124). It is no field of
`State`, and no step reads it; what is in flight is `State.pending` (log 31). -/
structure Controller where
  phase : Phase
  byte  : Byte
  k     : Nat
  deriving DecidableEq, Repr

/-- `IDLE` is left when a `SEND(rs, b)` is accepted: RS is written and `k <- 1` (R124). -/
def Controller.accept (c : RawCfg) (rs : Level) (b : Byte) : List Event × Controller :=
  ([.wr c.pinRS rs], ⟨.eRise, b, 1⟩)

/-- The value the `DATA` phase asserts: the byte (Full), its high nibble (Half, `k` = 1) or its low nibble (R124). -/
def Controller.value (c : RawCfg) (q : Controller) : Byte :=
  match c.busWidth with
  | .full => q.byte
  | .half => if q.k = 1 then hi q.byte else lo q.byte

/-- What a phase emits on leaving, and the next phase: the table of R124.
DESIGN CHOICE (log 31): after `SETTLE` of the last pulse the phase is `IDLE`, as the table says, also where R124's last sentence does
not: before the completion wait of CLEAR and HOME, and between the transfers of `INIT`. The phase is not tied to `State.pending`. -/
def Controller.leave (c : RawCfg) (q : Controller) : List Event × Controller :=
  match q.phase with
  | .idle => ([], q)
  | .eRise => ([.wr c.pinE true], { q with phase := .data })
  | .data => (assertLines c (q.value c), { q with phase := .hold })
  | .hold => ([.wait c.tPw], { q with phase := .eFall })
  | .eFall => ([.wr c.pinE false], { q with phase := .settle })
  | .settle =>
    match c.busWidth with
    | .half => if q.k = 1 then ([.wait c.tSettle], { q with phase := .eRise, k := 2 })
               else ([.wait c.tSettle], { q with phase := .idle })
    | .full => ([.wait c.tSettle], { q with phase := .idle })

/-- Leave `n` phases, collecting the events. -/
def Controller.run (c : RawCfg) : Nat → Controller → List Event × Controller
  | 0, q => ([], q)
  | n + 1, q =>
    let (es, q') := q.leave c
    let (rest, q'') := Controller.run c n q'
    (es ++ rest, q'')

end Sys2Proof.Machine
end

