-- ==== Sys2Proof/Safety.lean ====
section
/-!
DEFINITION. The terms the claims use: when a command runs, what a list of events leaves behind, and what counts as a sound
state of the block (10_state.md R36; 41_bus_transfer.md R120 to R122; 70_reset_and_hazards.md R190 to R197).
-/

namespace Sys2Proof.Machine

/-- `n` steps of the machine, stopping at the first refusal. -/
def steps : Nat → State → Result
  | 0, s => .next s
  | n + 1, s => Result.andThen (step s) (steps n)

/-! ## When a command runs -/

/-- Every pin of PinAssignment is an output (R36). -/
abbrev State.pinsReady (s : State) : Prop := ∀ p ∈ s.cfg.raw.pinIds, s.dirOf p = .output

/-- Nothing is in flight, the mode is Running and every pin is an output: every command but `INIT` and `INIT_NIBBLE` is
admitted and can perform its events (R22, R24, R25). -/
abbrev State.ready (s : State) : Prop := s.pending = [] ∧ s.mode = .running ∧ s.pinsReady

/-- The same for `INIT` (R24). -/
abbrev State.readyForInit (s : State) : Prop := s.pending = [] ∧ s.mode = .initializing ∧ s.pinsReady

/-- `INIT` is in flight and comes to `i` next, with the commands `l` after it (R131). -/
abbrev State.initComesTo (s : State) (i : Instr) (l : List Instr) : Prop :=
  s.pending = initRest s.cfg.raw (i :: l) ∧ ∃ done, initCommands s.cfg.raw = done ++ i :: l

/-! ## What events leave behind -/

/-- What one event does to the pins (R21, R22). -/
def Event.onPins : Event → List PinCell → List PinCell
  | .cfg p, cs => setOutput p cs
  | .wr p v, cs => setLatch p v cs
  | .wait _, cs => cs

/-- The state after the events `evs` have been performed in order (R21, R22, R27, R28): the pins, the clock, the stamped trace
and the count of draws move; nothing else does. -/
def State.after (s : State) (evs : List Event) : State :=
  { s with
    pins := evs.foldl (fun cs e => e.onPins cs) s.pins
    now := endTime s.draws s.now evs
    trace := s.trace ++ stamps s.draws s.now evs
    draws := s.draws + evs.length }

/-- The events of a trace without their times (R13). -/
def State.events (s : State) : List Event := s.trace.map (·.1)

/-! ## Sound states -/

/-- R36 (1), (2), (3): E and RW low, every pin an output. -/
abbrev State.quiet (s : State) : Prop :=
  s.latchOf s.cfg.raw.pinE = .level false ∧ s.latchOf s.cfg.raw.pinRW = .level false ∧ s.pinsReady

/-- The pins hold what the trace wrote last (R21, R27). -/
abbrev State.explained (s : State) : Prop :=
  ∀ p ∈ s.cfg.raw.pinIds, s.latchOf p = latchIn p (watch s.cfg.raw s.trace).pins

/-- R122 (1), (2): E is high for at least `T_PW`, and the data lines are asserted for at least `T_PW` before it falls. -/
abbrev Pulse.wideEnough (c : RawCfg) (p : Pulse) : Prop :=
  p.riseAt + c.tPw ≤ p.fallAt ∧ p.dataAt + c.tPw ≤ p.fallAt

/-- R122 (3), R191: at least `T_SETTLE` between a fall of E and its next rise; the pulses are given newest first. -/
def pulsesApart (c : RawCfg) : List Pulse → Prop
  | q :: p :: rest => p.fallAt + c.tSettle ≤ q.riseAt ∧ pulsesApart c (p :: rest)
  | _ => True

/-- Every bound of R122 holds of the trace, and the settling time of the last pulse is over. -/
def State.timed (s : State) : Prop :=
  latchIn s.cfg.raw.pinE (watch s.cfg.raw s.trace).pins ≠ .level true
    ∧ (∀ p ∈ pulsesOf s.cfg.raw s.trace, p.wideEnough s.cfg.raw)
    ∧ pulsesApart s.cfg.raw (pulsesOf s.cfg.raw s.trace)
    ∧ (∀ p ∈ (pulsesOf s.cfg.raw s.trace).head?, p.fallAt + s.cfg.raw.tSettle ≤ s.now)
    ∧ (watch s.cfg.raw s.trace).rsMoved = false

/-- No completion bound was violated and none is still owed (R192); and the pulses pair up as a Half block's receiver pairs
them, one lone nibble first (R57, R121, R195). -/
def State.completionKept (s : State) : Prop :=
  clearHazard s.cfg.raw s.trace = false
    ∧ (∀ f ∈ (watch s.cfg.raw s.trace).clearFall, f + s.cfg.raw.tClear ≤ s.now)
    ∧ (s.mode = .initializing → pulsesOf s.cfg.raw s.trace = [])
    ∧ (s.mode = .running → s.cfg.raw.busWidth = .half → (pulsesOf s.cfg.raw s.trace).length % 2 = 1)

/-- The state once the command in flight has performed all its events (R25). -/
def State.drained (s : State) : Result := runActs s.pending { s with pending := [] }

/-- The outcome is a next state with the property. -/
def Result.satisfies (r : Result) (P : State → Prop) : Prop :=
  match r with
  | .next t => P t
  | .fault _ => False
  | .refused _ => False

/-- The command in flight, if there is one, runs to its end and leaves a quiet state (R36, R168). -/
def State.settlesQuiet (s : State) : Prop := Result.satisfies s.drained State.quiet

/-- The same, with every bound of R122 kept. -/
def State.settlesTimed (s : State) : Prop := Result.satisfies s.drained fun t => t.quiet ∧ t.timed

/-- RW is low and nothing pending writes it (R113, R36). -/
abbrev State.rwLow (s : State) : Prop :=
  s.latchOf s.cfg.raw.pinRW = .level false ∧ ∀ a ∈ s.pending, ∀ v, a.event ≠ .wr s.cfg.raw.pinRW v

/-- `shadow.addr` is below 128 for DDRAM and below 64 for CGRAM, and unknown as long as `shadow.ram` is (R30). -/
def Shadow.inRange (sh : Shadow) : Prop :=
  match sh.ram, sh.addr with
  | .unknown, .unknown => True
  | .ddram, .known a => a < 128
  | .cgram, .known a => a < 64
  | _, _ => False

/-- The address assignments still pending are in range too. -/
def Update.inRange : Update → Prop
  | .address .ddram a => a < 128
  | .address .cgram a => a < 64
  | .address .unknown _ => False
  | .entry _ _ => True
  | .enterRunning => True

/-- R30: the shadow is in range and every pending assignment keeps it so. -/
def State.shadowInRange (s : State) : Prop :=
  s.shadow.inRange ∧ ∀ a ∈ s.pending, ∀ u ∈ a.updates, u.inRange

/-- R141: `ROW_COUNT` rows, each stored as `ROW_CAPACITY` bytes with a terminator among them. -/
def State.rowsShaped (s : State) : Prop :=
  s.rows.length = s.cfg.raw.rowCount ∧ ∀ row ∈ s.rows, row.length = s.cfg.raw.rowCapacity ∧ 0x00#8 ∈ row

/-- The times of the trace never decrease and none lies after `now` (R27, R28). -/
abbrev State.clockOrdered (s : State) : Prop :=
  (s.trace.map (·.2)).Pairwise (· ≤ ·) ∧ ∀ x ∈ s.trace, x.2 ≤ s.now

end Sys2Proof.Machine
end

