-- ==== Sys2Proof/Certificates/Slice0/Obligations.lean ====
section
/-!
DEFINITION. The statements for the provers. Each one's docstring names the rule of spec/ it formalises. Statements hold for
every configuration: `s.cfg` and `c` range over all valid ones.
-/

namespace Sys2Proof.Claims

open Sys2Proof Sys2Proof.Machine

/-- The data-line writes of one pulse, written out from R117 and R54: line `i` gets bit `k + i` of `b`. -/
def lineWrites (c : RawCfg) (b : Byte) (k : Nat) : List Event :=
  c.pinD.zipIdx.map fun x => .wr x.1 (b.getLsbD (k + x.2))

/-- One pulse, written out from R110, whose lines get the bits of `b` from bit `k` up. -/
def rulePulse (c : RawCfg) (b : Byte) (k : Nat) : List Event :=
  [.wr c.pinE true] ++ lineWrites c b k ++ [.wait c.tPw, .wr c.pinE false, .wait c.tSettle]

/-- One transfer, written out from R112: in a Half block `b[7:4]` first, then `b[3:0]`. -/
def ruleSend (c : RawCfg) (rs : Level) (b : Byte) : List Event :=
  match c.busWidth with
  | .full => [.wr c.pinRS rs] ++ rulePulse c b 0
  | .half => [.wr c.pinRS rs] ++ rulePulse c b 4 ++ rulePulse c b 0

/-- The pulses of one transfer, `P` of R201. -/
def pulsesPerByte (c : RawCfg) : Nat :=
  match c.busWidth with
  | .full => 1
  | .half => 2

/-- The least time of one pulse, `u` of R201. -/
def pulseTime (c : RawCfg) : Nat := c.tPw + c.tSettle

/-- The minimum durations of R201. -/
def minDuration (c : RawCfg) : Instr → Nat
  | .clear => pulsesPerByte c * pulseTime c + c.tClear
  | .home => pulsesPerByte c * pulseTime c + c.tClear
  | .initNibble => pulseTime c
  | .init =>
    match c.busWidth with
    | .full => c.tPowerOn + 5 * pulseTime c + c.tClear
    | .half => c.tPowerOn + 11 * pulseTime c + c.tClear
  | _ => pulsesPerByte c * pulseTime c

/-- The function-set, display-control, entry-mode and set-DDRAM bytes of `INIT` as numbers (R9, R133, R134). -/
def functionSetByte (c : RawCfg) : Nat :=
  (match c.busWidth with | .full => 0x30 | .half => 0x20) + 8 * (c.lines - 1) + (match c.font with | .a => 0 | .b => 4)
def displayControlByte (c : RawCfg) : Nat :=
  0x08 + (if c.displayOn then 4 else 0) + (if c.cursorOn then 2 else 0) + (if c.blinkOn then 1 else 0)
def entryModeByte (c : RawCfg) : Nat :=
  0x04 + (match c.entryDir with | .right => 2 | .left => 0) + (if c.autoShift then 1 else 0)
def setDdramByte (c : RawCfg) : Nat := 0x80 + c.initAddr

/-- The bytes `INIT` sends, in order (R131). -/
def initBytes (c : RawCfg) : List Nat :=
  [functionSetByte c, 0x01, displayControlByte c, entryModeByte c, setDdramByte c]

/-- The events of `INIT` after its first wait and lone nibble (R131, R133, R134). -/
def ruleInitTail (c : RawCfg) : List Event :=
  ruleSend c false (BitVec.ofNat 8 (functionSetByte c))
    ++ ruleSend c false 0x01#8 ++ [.wait c.tClear]
    ++ ruleSend c false (BitVec.ofNat 8 (displayControlByte c))
    ++ ruleSend c false (BitVec.ofNat 8 (entryModeByte c))
    ++ ruleSend c false (BitVec.ofNat 8 (setDdramByte c))

/-- The shadow that `INIT` leaves (R137). -/
def initShadow (c : RawCfg) : Shadow :=
  ⟨.ddram, .known c.initAddr, .known (match c.entryDir with | .right => 1#1 | .left => 0#1),
    .known (if c.autoShift then 1#1 else 0#1)⟩

/-- The data levels a pulse commits when its lines get the `n` bits of `b` from bit `k` up: most significant line first. -/
def levels (b : Byte) (k n : Nat) : List Latch := (List.range n).reverse.map fun i => .level (b.getLsbD (k + i))

/-- The words a transfer commits (R121). -/
def ruleLatched (c : RawCfg) (rs : Level) (b : Byte) : List LatchedWord :=
  match c.busWidth with
  | .full => [⟨.level rs, .level false, levels b 0 8⟩]
  | .half => [⟨.level rs, .level false, levels b 4 4⟩, ⟨.level rs, .level false, levels b 0 4⟩]

/-- The pins a command may write: RS, E and the data lines (R23). -/
def isBusPin (c : RawCfg) (p : PinId) : Prop := p = c.pinRS ∨ p = c.pinE ∨ p ∈ c.pinD

/-- The commands that are one of the eight encoder commands with a raw form of the same word (R84), with its byte. -/
def rawForm (i : Instr) : Option Byte :=
  match i with
  | .sendInstruction _ => none
  | .write _ => none
  | i => (transferOf i).map (·.2)

/-- The extra completion wait of CLEAR and HOME (R84). -/
def completionWait (c : RawCfg) : Instr → List Event
  | .clear => [.wait c.tClear]
  | .home => [.wait c.tClear]
  | _ => []

/-- The shadow an encoder command leaves (R31, R84): SETDD, SETCG and ENTRY update their fields, the others none. -/
def shadowOf (sh : Shadow) : Instr → Shadow
  | .setdd a => { sh with ram := .ddram, addr := .known (a % 128) }
  | .setcg a => { sh with ram := .cgram, addr := .known (a % 64) }
  | .entry x y => { sh with id := .known (BitVec.ofNat 1 (x % 2)), s := .known (BitVec.ofNat 1 (y % 2)) }
  | _ => sh

/-- The sum of the first `n` draws: the time of `n` events that have no lower bound (R28, log 5). -/
def drawSum (n : Nat) : Nat := ((List.range n).map Config.draw).sum

/-- A raw send of a clear or home byte: the only command that leaves the completion wait to the host (R192, R203). -/
def isRawClear : Instr → Prop
  | .sendInstruction b => b % 256 = 1 ∨ b % 256 = 2
  | _ => False

/-- One iteration of the host's loop as far as time goes: it works for `w` microseconds and waits for its deadline (R148). -/
def workThenWait (s : State) (w : Nat) : State := deadlineWait { s with now := s.now + w }

end Sys2Proof.Claims

open Sys2Proof Sys2Proof.Machine Sys2Proof.Claims

/-! ## Encoding -/

/-- R72: the eight instruction formats are told apart by the position of the most significant 1 bit, and no word belongs to two
of the specific rows. -/
def Obligations.SpecificRowsAreDisjoint : Prop :=
  (∀ w : BitVec 9, ∀ x ∈ [rowClear, rowHome, rowEntry, rowDispctl, rowShift, rowFuncset, rowSetcg, rowSetdd].zipIdx,
      x.1.hit w = true → 2 ^ x.2 ≤ w.toNat ∧ w.toNat < 2 ^ (x.2 + 1))
    ∧ ∀ w : BitVec 9, ∀ r ∈ specificRows, ∀ q ∈ specificRows, r.hit w = true → q.hit w = true → r = q

/-- R71, R83: a few words of the spec and what they decode to; 16 bits are a BUS9 word and 8 bits a NIB5 word.
How a word is given as a number is the model's choice (log 19). -/
def Obligations.SpecWordsDecodeToTheirCommands : Prop :=
  decodeTableWord 16 0b0_0000_0001 = some .clear
    ∧ decodeTableWord 16 0b0_0000_0010 = some .home
    ∧ decodeTableWord 16 0b0_0000_0110 = some (.entry 1 0)
    ∧ decodeTableWord 16 0b0_0000_1100 = some (.dispctl 1 0 0)
    ∧ decodeTableWord 16 0b0_0001_1000 = some (.shift 1 0)
    ∧ decodeTableWord 16 0b0_0010_1000 = some (.funcset 0 1 0)
    ∧ decodeTableWord 16 0b0_0100_1000 = some (.setcg 8)
    ∧ decodeTableWord 16 0b0_1100_0000 = some (.setdd 0x40)
    ∧ decodeTableWord 16 0b0_0000_0011 = some (.sendInstruction 3)
    ∧ decodeTableWord 16 0b1_0100_1000 = some (.write 0x48)
    ∧ decodeTableWord 8 0b0_0010 = some .initNibble
    ∧ decodeTableWord 8 0b0_0011 = none

/-- R71, R79, R83, R86: decoding the word of a command gives the command back with every operand (for every command that is its
word's own reading); every BUS9 word has exactly one reading, and 0 0010 is the only NIB5 word that has one; and the words
of `INIT` are those of its commands. That a word of no row is refused is the model's choice (log 19). -/
def Obligations.DecodeAndEncodeAgree : Prop :=
  (∀ (c : Cfg) (i : Instr), i.canonical = true → ∃ w, encode c.raw i = [w] ∧ decode w = some i)
    ∧ (∀ (w : BusWord) (i : Instr), decode w = some i → encodeWord i = some w ∧ i.canonical = true)
    ∧ (∀ w : BitVec 9, ∃ i, decode (.bus9 w) = some i)
    ∧ (∀ w : BitVec 5, (w = 0b00010#5 → decode (.nib5 w) = some .initNibble) ∧ (w ≠ 0b00010#5 → decode (.nib5 w) = none))
    ∧ ∀ c : Cfg, (encode c.raw .init).map decode = (initCommands c.raw).map some

/-- R73, R71: each encoder function, for operands of any size, keeps the fixed bits of its format and puts every operand,
reduced modulo the size of its field, at its field's position. -/
def Obligations.EncoderPacksMaskedFields : Prop :=
  ∀ x y z : Nat,
    encClear.toNat = 0x01 ∧ encHome.toNat = 0x02
      ∧ (encEntry x y).toNat = 0x04 + 2 * (x % 2) + y % 2
      ∧ (encDispctl x y z).toNat = 0x08 + 4 * (x % 2) + 2 * (y % 2) + z % 2
      ∧ (encShift x y).toNat = 0x10 + 8 * (x % 2) + 4 * (y % 2)
      ∧ (encFuncset x y z).toNat = 0x20 + 16 * (x % 2) + 8 * (y % 2) + 4 * (z % 2)
      ∧ (encSetcg x).toNat = 0x40 + x % 64
      ∧ (encSetdd x).toNat = 0x80 + x % 128

/-- R80: the bytes the eight encoder functions produce are exactly the 218 listed ones; the 38 others are never produced. -/
def Obligations.EncoderImageIsTheListedBytes : Prop :=
  (∀ b : Byte, inEncoderImage b.toNat = true ↔ ∃ i, rawForm i = some b)
    ∧ ((List.range 256).filter inEncoderImage).length = 218
    ∧ (List.range 256).filter (fun b => !inEncoderImage b)
        = [0x00, 0x03, 0x11, 0x12, 0x13, 0x15, 0x16, 0x17, 0x19, 0x1A, 0x1B, 0x1D, 0x1E, 0x1F,
           0x21, 0x22, 0x23, 0x25, 0x26, 0x27, 0x29, 0x2A, 0x2B, 0x2D, 0x2E, 0x2F,
           0x31, 0x32, 0x33, 0x35, 0x36, 0x37, 0x39, 0x3A, 0x3B, 0x3D, 0x3E, 0x3F]

/-- R114: the nibbles of a byte, their range, and the law that puts them together again. -/
def Obligations.NibblesRebuildTheByte : Prop :=
  ∀ b : Byte, (hi b).toNat = b.toNat / 16 ∧ (lo b).toNat = b.toNat % 16
    ∧ (hi b).toNat ≤ 15 ∧ (lo b).toNat ≤ 15 ∧ ((hi b) <<< 4) ||| lo b = b

/-- R9: `cfg_ok` holds exactly when its conditions do, a configuration that fails it constructs no block, and each option has
its bit. -/
def Obligations.ConfigurationCheckAndOptionBits : Prop :=
  ∀ c : RawCfg,
    (c.cfgOk = true ↔
      (c.busWidth = .half ∨ c.busWidth = .full)
        ∧ c.pinD.length = (match c.busWidth with | .half => 4 | .full => 8)
        ∧ (c.lines = 1 ∨ c.lines = 2)
        ∧ (c.pinD ++ [c.pinRS, c.pinRW, c.pinE] ++ c.pinDbg.toList).Nodup
        ∧ c.initRow < c.rowCount)
      ∧ (c.cfgOk = false → ¬ ∃ b : Cfg, b.raw = c)
      ∧ dlBit c = (match c.busWidth with | .half => 0 | .full => 1)
      ∧ (c.lines = 1 → nBit c = 0) ∧ (c.lines = 2 → nBit c = 1)
      ∧ fBit c = (match c.font with | .a => 0 | .b => 1)
      ∧ dBit c = (if c.displayOn then 1 else 0)
      ∧ cBit c = (if c.cursorOn then 1 else 0)
      ∧ bBit c = (if c.blinkOn then 1 else 0)
      ∧ idBit c = (match c.entryDir with | .right => 1 | .left => 0)
      ∧ sBit c = (if c.autoShift then 1 else 0)

/-! ## Events and transfers -/

/-- R21, R22, R27, R28, R172: what each of the three events does to pins, directions, clock and trace.
The refusal is the spec's (D21); the times are draws (log 5). -/
def Obligations.EventsDoWhatTheySay : Prop :=
  ∀ (s : State) (p : PinId),
    (∃ t, emit (.cfg p) s = .next t
        ∧ (p ∈ s.pins.map (·.id) → t.dirOf p = .output) ∧ (∀ q, q ≠ p → t.dirOf q = s.dirOf q)
        ∧ (∀ q, t.latchOf q = s.latchOf q)
        ∧ s.now ≤ t.now ∧ t.trace = s.trace ++ [(.cfg p, t.now)])
      ∧ (∀ v, s.dirOf p = .unconfigured → emit (.wr p v) s = .refused (.pinNotConfigured p))
      ∧ (∀ v, s.dirOf p = .output → ∃ t, emit (.wr p v) s = .next t
          ∧ t.latchOf p = .level v ∧ (∀ q, q ≠ p → t.latchOf q = s.latchOf q) ∧ (∀ q, t.dirOf q = s.dirOf q)
          ∧ s.now ≤ t.now ∧ t.trace = s.trace ++ [(.wr p v, t.now)])
      ∧ ∀ d, ∃ t, emit (.wait d) s = .next t
          ∧ t.pins = s.pins ∧ s.now + d ≤ t.now ∧ t.trace = s.trace ++ [(.wait d, t.now)]

/-- R110, R117: a pulse raises E, writes every data line in ascending order, holds, lowers E and settles; it ends with E low
and the value on the data lines. -/
def Obligations.PulseHasItsFiveParts : Prop :=
  ∀ (s : State) (v : Byte), s.pinsReady →
    runActs (actsOf [] (pulse s.cfg.raw v)) s = .next (s.after (rulePulse s.cfg.raw v 0))
      ∧ (s.after (rulePulse s.cfg.raw v 0)).latchOf s.cfg.raw.pinE = .level false
      ∧ ∀ i p, s.cfg.raw.pinD[i]? = some p →
          (s.after (rulePulse s.cfg.raw v 0)).latchOf p = .level (v.getLsbD i)

/-- R112, R77, R78: a transfer writes RS once, then makes one pulse (Full, 13 events) or two, high nibble first (Half, 17). -/
def Obligations.TransferIsOneOrTwoPulses : Prop :=
  ∀ (c : Cfg) (rs : Level) (b : Byte),
    send c.raw rs b = ruleSend c.raw rs b
      ∧ (c.raw.busWidth = .full → (send c.raw rs b).length = 13)
      ∧ (c.raw.busWidth = .half → (send c.raw rs b).length = 17)

/-- R119: what a transfer leaves on the pins. -/
def Obligations.TransferLeavesItsLevels : Prop :=
  ∀ (s : State) (rs : Level) (b : Byte), s.quiet →
    ∃ t, runActs (actsOf [] (send s.cfg.raw rs b)) s = .next t
      ∧ t.latchOf s.cfg.raw.pinRS = .level rs
      ∧ t.latchOf s.cfg.raw.pinE = .level false
      ∧ t.latchOf s.cfg.raw.pinRW = .level false
      ∧ ∀ i p, s.cfg.raw.pinD[i]? = some p → t.latchOf p = .level (b.getLsbD i)

/-- R120, R121, R114: a transfer commits exactly its byte: one word (Full) or its two nibbles (Half), from which the byte is
rebuilt. The sampling instant is the spec's decision D31 (log 21). -/
def Obligations.TransferCommitsItsByte : Prop :=
  ∀ (s : State) (rs : Level) (b : Byte), s.quiet → s.explained →
    (∃ t, runActs (actsOf [] (send s.cfg.raw rs b)) s = .next t
        ∧ latched s.cfg.raw t.trace = latched s.cfg.raw s.trace ++ ruleLatched s.cfg.raw rs b)
      ∧ (∀ x y, ruleLatched s.cfg.raw rs b = [x, y] → pairByte x y = some (.level rs, b.toNat))
      ∧ ∀ x, ruleLatched s.cfg.raw rs b = [x] → latchValue x.data 0 = some b.toNat

/-- R124: the phases of the timing controller emit the events of the transfer and end in IDLE.
That IDLE follows the last pulse whatever the command still has pending is log 31. -/
def Obligations.PhasesEmitTheTransfer : Prop :=
  ∀ (c : Cfg) (rs : Level) (b : Byte),
    let start := Controller.accept c.raw rs b
    let rest := Controller.run c.raw (5 * pulsesPerByte c.raw) start.2
    start.1 ++ rest.1 = send c.raw rs b ∧ rest.2.phase = .idle
      ∧ ∀ n, 0 < n → n < 5 * pulsesPerByte c.raw → (Controller.run c.raw n start.2).2.phase ≠ .idle

/-! ## The commands -/

/-- R92, R93: CLEAR sends 0x01 and HOME sends 0x02, with RS = 0, and each then waits for its completion.
That the wait is there even if `T_CLEAR` is 0 is read from R92 and R93 (log 11). -/
def Obligations.ClearAndHomeRun : Prop :=
  ∀ s : State, s.ready →
    exec .clear s = .next (s.after (ruleSend s.cfg.raw false 0x01#8 ++ [.wait s.cfg.raw.tClear]))
      ∧ exec .home s = .next (s.after (ruleSend s.cfg.raw false 0x02#8 ++ [.wait s.cfg.raw.tClear]))

/-- R94: ENTRY sends its byte and records both flags. -/
def Obligations.EntryRuns : Prop :=
  ∀ (s : State) (id sh : Nat), s.ready →
    exec (.entry id sh) s = .next
      { s.after (ruleSend s.cfg.raw false (BitVec.ofNat 8 (0x04 + 2 * (id % 2) + sh % 2))) with
        shadow := { s.shadow with id := .known (BitVec.ofNat 1 (id % 2)), s := .known (BitVec.ofNat 1 (sh % 2)) } }

/-- R95: DISPCTL sends its byte. -/
def Obligations.DispctlRuns : Prop :=
  ∀ (s : State) (d c b : Nat), s.ready →
    exec (.dispctl d c b) s = .next
      (s.after (ruleSend s.cfg.raw false (BitVec.ofNat 8 (0x08 + 4 * (d % 2) + 2 * (c % 2) + b % 2))))

/-- R96: SHIFT sends its byte. -/
def Obligations.ShiftRuns : Prop :=
  ∀ (s : State) (sc rl : Nat), s.ready →
    exec (.shift sc rl) s = .next
      (s.after (ruleSend s.cfg.raw false (BitVec.ofNat 8 (0x10 + 8 * (sc % 2) + 4 * (rl % 2)))))

/-- R97: FUNCSET sends its byte, and the block's own framing stays as it was. -/
def Obligations.FuncsetRuns : Prop :=
  ∀ (s : State) (dl n f : Nat), s.ready →
    exec (.funcset dl n f) s = .next
        (s.after (ruleSend s.cfg.raw false (BitVec.ofNat 8 (0x20 + 16 * (dl % 2) + 8 * (n % 2) + 4 * (f % 2)))))

/-- R98: SETCG sends its byte and records the CGRAM address, reduced modulo 64. -/
def Obligations.SetcgRuns : Prop :=
  ∀ (s : State) (a : Nat), s.ready →
    exec (.setcg a) s = .next
      { s.after (ruleSend s.cfg.raw false (BitVec.ofNat 8 (0x40 + a % 64))) with
        shadow := { s.shadow with ram := .cgram, addr := .known (a % 64) } }

/-- R99: SETDD sends its byte and records the DDRAM address, reduced modulo 128. -/
def Obligations.SetddRuns : Prop :=
  ∀ (s : State) (a : Nat), s.ready →
    exec (.setdd a) s = .next
      { s.after (ruleSend s.cfg.raw false (BitVec.ofNat 8 (0x80 + a % 128))) with
        shadow := { s.shadow with ram := .ddram, addr := .known (a % 128) } }

/-- R115: SEND_INSTRUCTION sends any byte with RS = 0 and does nothing else; it is admitted only in Running. -/
def Obligations.SendInstructionRuns : Prop :=
  (∀ (s : State) (b : Nat), s.ready →
      exec (.sendInstruction b) s = .next (s.after (ruleSend s.cfg.raw false (BitVec.ofNat 8 (b % 256)))))
    ∧ ∀ (s : State) (b : Nat), s.pending = [] → s.mode = .initializing →
        exec (.sendInstruction b) s = .refused .beforeInit

/-- R116: WRITE sends any byte with RS = 1 and does nothing else; it is admitted only in Running. -/
def Obligations.WriteRuns : Prop :=
  (∀ (s : State) (b : Nat), s.ready →
      exec (.write b) s = .next (s.after (ruleSend s.cfg.raw true (BitVec.ofNat 8 (b % 256)))))
    ∧ ∀ (s : State) (b : Nat), s.pending = [] → s.mode = .initializing → exec (.write b) s = .refused .beforeInit

/-- R84: a named command differs from the raw send of its byte in the completion wait of CLEAR and HOME and in the shadow
update of SETDD, SETCG and ENTRY, and in nothing else. -/
def Obligations.NamedAndRawFormsDifferInTwoWays : Prop :=
  ∀ (s : State) (i : Instr) (b : Byte), s.ready → rawForm i = some b →
    ∃ t u, exec (.sendInstruction b.toNat) s = .next t ∧ exec i s = .next u
      ∧ t.shadow = s.shadow
      ∧ u = { t.after (completionWait s.cfg.raw i) with shadow := shadowOf s.shadow i }

/-- R130, R132, R57: INIT_NIBBLE runs where INIT has come to it, makes its one pulse of 0x2 with RS = 0 (9 events), and leaves the
rest of INIT pending; with nothing in flight, in either mode, anywhere else in a command in flight, and in a Full block, it is
turned away. Where INIT has come to it, and what else is turned away, is log 10. -/
def Obligations.InitNibbleRunsInsideInit : Prop :=
  (∀ (s : State) (l : List Instr), s.initComesTo .initNibble l → s.pinsReady →
      exec .initNibble s = .next
        { s.after ([.wr s.cfg.raw.pinRS false] ++ rulePulse s.cfg.raw 0x02#8 0) with
          pending := initRest s.cfg.raw l })
    ∧ (∀ s : State, s.pending = [] → s.mode = .running → exec .initNibble s = .refused .onlyInsideInit)
    ∧ (∀ s : State, s.pending = [] → s.mode = .initializing → exec .initNibble s = .refused .beforeInit)
    ∧ (∀ s : State, s.pending ≠ [] → (∀ l, ¬ s.initComesTo .initNibble l) →
        exec .initNibble s = .refused .commandInFlight)
    ∧ ∀ s : State, s.cfg.raw.busWidth = .full → ∃ r, exec .initNibble s = .refused r

/-- R131, R133: INIT in a Full block, 67 events. The wait of CLEAR is log 11. -/
def Obligations.InitRunsInFullBlock : Prop :=
  ∀ s : State, s.readyForInit → s.cfg.raw.busWidth = .full →
    exec .init s = .next
        { s.after ([.wait s.cfg.raw.tPowerOn] ++ ruleInitTail s.cfg.raw) with
          mode := .running, shadow := initShadow s.cfg.raw }
      ∧ ([Event.wait s.cfg.raw.tPowerOn] ++ ruleInitTail s.cfg.raw).length = 67

/-- R131, R134: INIT in a Half block, 96 events, the lone nibble second. The wait of CLEAR is log 11. -/
def Obligations.InitRunsInHalfBlock : Prop :=
  ∀ s : State, s.readyForInit → s.cfg.raw.busWidth = .half →
    let evs := [Event.wait s.cfg.raw.tPowerOn]
      ++ ([.wr s.cfg.raw.pinRS false] ++ rulePulse s.cfg.raw 0x02#8 0) ++ ruleInitTail s.cfg.raw
    exec .init s = .next { s.after evs with mode := .running, shadow := initShadow s.cfg.raw } ∧ evs.length = 96

/-- R133, R134: the words INIT commits on a block that has sent nothing yet: its five bytes, after the lone nibble 0x2 in a Half
block. -/
def Obligations.InitCommitsItsBytes : Prop :=
  ∀ s : State, s.readyForInit → s.quiet → s.explained → pulsesOf s.cfg.raw s.trace = [] →
    ∃ t, exec .init s = .next t
      ∧ committedBytes s.cfg.raw (latched s.cfg.raw t.trace)
          = (initBytes s.cfg.raw).map (fun n => some (.level false, n))
      ∧ (s.cfg.raw.busWidth = .full → (latched s.cfg.raw t.trace).length = 5)
      ∧ (s.cfg.raw.busWidth = .half → (latched s.cfg.raw t.trace).length = 11
          ∧ (latched s.cfg.raw t.trace).head?
              = some ⟨.level false, .level false, [.level false, .level false, .level true, .level false]⟩)

/-- R137: the state after INIT. -/
def Obligations.InitLeavesARunningBlock : Prop :=
  ∀ s : State, s.readyForInit → s.quiet →
    ∃ t, exec .init s = .next t
      ∧ t.mode = .running ∧ t.pending = []
      ∧ t.latchOf s.cfg.raw.pinE = .level false ∧ t.latchOf s.cfg.raw.pinRW = .level false
      ∧ t.latchOf s.cfg.raw.pinRS = .level false
      ∧ (∀ i p, s.cfg.raw.pinD[i]? = some p → t.latchOf p = .level ((BitVec.ofNat 8 (setDdramByte s.cfg.raw)).getLsbD i))
      ∧ t.shadow = initShadow s.cfg.raw

/-- R131, R132: INIT is its power-on wait and then its commands one after the other, each issued where INIT has come to it; the
last one ends with the block Running. That a command of INIT can be given where INIT has come to it is log 10. -/
def Obligations.InitIsItsCommandsInOrder : Prop :=
  ∀ s : State, s.readyForInit →
    exec .init s =
      (initCommands s.cfg.raw).foldl (fun r i => Result.andThen r (exec i))
        (perform ⟨Event.wait s.cfg.raw.tPowerOn, []⟩
          { s with pending := initRest s.cfg.raw (initCommands s.cfg.raw) })

/-- R24, R135: what each mode turns away when nothing is in flight. Log 9 (the spec's D17). -/
def Obligations.ModesTurnCommandsAway : Prop :=
  ∀ s : State, s.pending = [] →
    (s.mode = .initializing → ∀ i, i ≠ .init → exec i s = .refused .beforeInit)
      ∧ (s.mode = .running → exec .init s = .refused .initTwice)

/-- R25, R118, R136: while events are pending no other command is accepted, the host's requests wait, and the one thing a step
does is to perform the first pending event. The request queue and the commands inside INIT are the model's (log 1, 10). -/
def Obligations.NothingInterruptsACommand : Prop :=
  (∀ (s : State) (i : Instr), s.pending ≠ [] → s.issuedByInit i = false → exec i s = .refused .commandInFlight)
    ∧ (∀ (s : State) (i : Instr), s.pending ≠ [] → issue i s = .refused .commandInFlight)
    ∧ ∀ (s : State) (a : Act) (rest : List Act), s.pending = a :: rest →
        step s = perform a { s with pending := rest }
          ∧ ∀ t, step s = .next t → t.pending = rest ∧ t.queue = s.queue ∧ t.events = s.events ++ [a.event]

/-- R22: a command whose first write meets a pin that is no output is refused by that name.
That nothing of it happens is log 26. -/
def Obligations.UnconfiguredPinStopsACommand : Prop :=
  ∀ (s : State) (i : Instr), s.pending = [] → s.mode = .running → i ≠ .init → i ≠ .initNibble →
    s.dirOf s.cfg.raw.pinRS = .unconfigured → exec i s = .refused (.pinNotConfigured s.cfg.raw.pinRS)

/-! ## Frames -/

/-- R23, R29, R31: what no command changes: the configuration, the host's data, directions, and every pin that is not RS, E or
a data line; and what the trace held stays its beginning. -/
def Obligations.CommandsLeaveOtherStateAlone : Prop :=
  ∀ (i : Instr) (s t : State), exec i s = .next t →
    t.cfg = s.cfg ∧ t.queue = s.queue ∧ t.rows = s.rows ∧ t.wake = s.wake
      ∧ (∀ p, t.dirOf p = s.dirOf p)
      ∧ (∀ p, ¬ isBusPin s.cfg.raw p → t.latchOf p = s.latchOf p)
      ∧ ∃ evs, t.events = s.events ++ evs

/-- R24, R31: which commands change the mode and the shadow when they are issued with nothing in flight: only INIT enters Running;
ENTRY writes the two flags, SETCG and SETDD the RAM and the address, INIT all of the shadow, the other commands none of it. -/
def Obligations.CommandsChangeTheirOwnShadowFields : Prop :=
  ∀ (i : Instr) (s t : State), s.pending = [] → exec i s = .next t →
    t.pending = []
      ∧ (i ≠ .init → t.mode = s.mode)
      ∧ (match i with
          | .entry _ _ => t.shadow.ram = s.shadow.ram ∧ t.shadow.addr = s.shadow.addr
          | .setcg _ => t.shadow.id = s.shadow.id ∧ t.shadow.s = s.shadow.s
          | .setdd _ => t.shadow.id = s.shadow.id ∧ t.shadow.s = s.shadow.s
          | .init => True
          | _ => t.shadow = s.shadow)

/-! ## Steps -/

/-- R15, R25, R86: with nothing in flight a step serves the host's next request: a command call, or a word that decodes to a
command, is exec of that command on the state without the request. With no request the block waits.
The request queue, the idle step and the words are the model's (log 1, 2, 12, 19). -/
def Obligations.StepRunsTheDecodedCommand : Prop :=
  ∀ (s : State) (q : List Request), s.pending = [] →
    (∀ i, s.queue = .call i :: q → step s = exec i { s with queue := q })
      ∧ (∀ nbits w i, s.queue = .word nbits w :: q → decodeTableWord nbits w = some i →
          step s = exec i { s with queue := q })
      ∧ (∀ nbits w, s.queue = .word nbits w :: q → decodeTableWord nbits w = none →
          step s = .refused (.unknownWord nbits w))
      ∧ (∀ i, s.queue = .issue i :: q → step s = issue i { s with queue := q })
      ∧ (s.queue = [] → step s = .next s)

/-- R25: issuing a command and performing its events one step at a time ends in the state of the big step, whatever the host
has queued behind it: the two readings of R25 agree. The two readings are log 2. -/
def Obligations.SmallStepsMatchTheBigStep : Prop :=
  ∀ (s : State) (i : Instr) (q : List Request), s.pending = [] → modeRefusal s.mode i = none →
    s.queue = .issue i :: q →
      steps ((actsOfInstr s.cfg.raw i).length + 1) s = exec i { s with queue := q }
        ∧ ∃ t, step s = .next t ∧ t = { s with queue := q, pending := actsOfInstr s.cfg.raw i }

/-- R185, R35: from power-up the steps perform the reset sequence, in its order, and end in the reset state.
What power-up starts from is log 6 and 8. -/
def Obligations.PowerUpRunsTheResetSequence : Prop :=
  ∀ c : Cfg,
    steps (resetEvents c.raw).length (State.powerUp c) = .next (State.resetFor c)
      ∧ (State.resetFor c).events
          = (c.raw.pinD ++ [c.raw.pinRS, c.raw.pinRW, c.raw.pinE] ++ c.raw.pinDbg.toList).map .cfg
            ++ [.wr c.raw.pinE false, .wr c.raw.pinRW false] ++ c.raw.pinDbg.toList.map (fun p => .wr p false)
      ∧ (State.powerUp c).now = 0
      ∧ (resetEvents c.raw).length
          = (match c.raw.busWidth with | .half => 4 | .full => 8) + 3 + 2 + 2 * c.raw.pinDbg.toList.length

/-- R35, R185, R141: every field of the state after reset. The standard configuration, the row buffer beyond its first bytes,
the clock after the reset events, the queue, the wake time and the count of draws are the model's (log 3, 14, 6, 1, 15, 5). -/
def Obligations.ResetLeavesTheTable : Prop :=
  ∀ c : Cfg,
    (State.resetFor c).cfg = c
      ∧ (∀ p ∈ c.raw.pinIds, (State.resetFor c).dirOf p = .output)
      ∧ (State.resetFor c).latchOf c.raw.pinE = .level false
      ∧ (State.resetFor c).latchOf c.raw.pinRW = .level false
      ∧ (State.resetFor c).latchOf c.raw.pinRS = .unwritten
      ∧ (∀ p ∈ c.raw.pinD, (State.resetFor c).latchOf p = .unwritten)
      ∧ (∀ p, c.raw.pinDbg = some p → (State.resetFor c).latchOf p = .level false)
      ∧ (State.resetFor c).mode = .initializing
      ∧ (State.resetFor c).pending = []
      ∧ (State.resetFor c).shadow = ⟨.unknown, .unknown, .unknown, .unknown⟩
      ∧ (∀ row ∈ (State.resetFor c).rows, row.head? = some 0x00#8)
      ∧ (State.resetFor c).rows.length = c.raw.rowCount
      ∧ (∀ row ∈ (State.resetFor c).rows, row = List.replicate c.raw.rowCapacity 0x00#8)
      ∧ (State.resetFor c).pins.map (·.id) = c.raw.pinIds
      ∧ (State.resetFor c).events
          = c.raw.pinIds.map .cfg ++ [.wr c.raw.pinE false, .wr c.raw.pinRW false] ++ c.raw.pinDbg.toList.map (.wr · false)
      ∧ (State.resetFor c).draws = (State.resetFor c).trace.length
      ∧ (State.resetFor c).trace.map (·.2) = (List.range (State.resetFor c).draws).map (fun k => drawSum (k + 1))
      ∧ (State.resetFor c).now = drawSum (State.resetFor c).draws
      ∧ (State.resetFor c).queue = []
      ∧ (State.resetFor c).wake = Config.firstWake
      ∧ State.reset = State.resetFor Config.standard

/-! ## Invariants of every step -/

/-- R36, R168: whatever is in flight runs to its end and leaves E and RW low and every pin an output, and every step keeps it so. -/
def Obligations.StepKeepsTheBlockSettling : Prop :=
  ∀ s t : State, s.settlesQuiet → step s = .next t → t.settlesQuiet

/-- R113, R36: RW stays low, and nothing that is ever pending writes it. -/
def Obligations.StepKeepsRwLow : Prop :=
  ∀ s t : State, s.rwLow → step s = .next t → t.rwLow

/-- R21, R27: in every state the pins hold what the trace wrote last: nothing but a recorded write changes a latch. -/
def Obligations.StepKeepsPinsExplainedByTheTrace : Prop :=
  ∀ s t : State, s.explained → step s = .next t → t.explained

/-- R122, R190, R191, R197: for every draw of the clock, every pulse is wide enough, every two pulses are far enough apart, and RS
moves only between pulses, and every step keeps it so. -/
def Obligations.StepKeepsTheTimingBounds : Prop :=
  ∀ s t : State, s.settlesTimed → step s = .next t → t.settlesTimed

/-- R30: the shadow address stays in the range of its RAM. -/
def Obligations.StepKeepsTheShadowInRange : Prop :=
  ∀ s t : State, s.shadowInRange → step s = .next t → t.shadowInRange

/-- R141: the row buffer keeps its shape: `ROW_COUNT` rows of `ROW_CAPACITY` bytes, each with a terminator in it. -/
def Obligations.StepKeepsTheRowsShaped : Prop :=
  ∀ s t : State, s.rowsShaped → step s = .next t → t.rowsShaped

/-- R27, R28, R29: a step never changes the configuration, never takes an event out of the trace, never moves the clock back, and
keeps the times of the trace in order. -/
def Obligations.StepOnlyExtendsTheTrace : Prop :=
  ∀ s t : State, step s = .next t →
    t.cfg = s.cfg ∧ s.now ≤ t.now ∧ (∃ new, t.trace = s.trace ++ new) ∧ (s.clockOrdered → t.clockOrdered)

/-- R24: Running is never left, and only INIT enters it: by a call with nothing in flight, or by its last pending event.
The calls are requests of the model's queue (log 1). -/
def Obligations.OnlyInitEntersRunning : Prop :=
  ∀ s t : State, step s = .next t →
    (s.mode = .running → t.mode = .running)
      ∧ (s.mode = .initializing → t.mode = .running →
          (s.pending = [] ∧ s.queue.head? = some (.call .init))
            ∨ ∃ a rest, s.pending = a :: rest ∧ .enterRunning ∈ a.updates)

/-- R35, R36, R30, R122, R141: the reset state has every invariant above, for every configuration; power-up settles too. -/
def Obligations.ResetHasTheInvariants : Prop :=
  ∀ c : Cfg,
    (State.resetFor c).settlesQuiet ∧ (State.resetFor c).rwLow ∧ (State.resetFor c).explained
      ∧ (State.resetFor c).settlesTimed ∧ (State.resetFor c).shadowInRange ∧ (State.resetFor c).clockOrdered
      ∧ (State.resetFor c).completionKept ∧ (State.resetFor c).rowsShaped ∧ (State.powerUp c).settlesQuiet
      ∧ (State.powerUp c).rowsShaped

/-! ## Whole-machine rules -/

/-- R32: nothing reads the shadow: two states that differ in it alone step to states that differ in it alone. -/
def Obligations.NothingReadsTheShadow : Prop :=
  ∀ (s : State) (sh : Shadow),
    (∀ t, step s = .next t → ∃ sh', step { s with shadow := sh } = .next { t with shadow := sh' })
      ∧ ∀ r, step s = .refused r → step { s with shadow := sh } = .refused r

/-- R28: no command reads the clock: with another clock, trace and draws it emits the same events and leaves the same pins, mode,
shadow and pending events. -/
def Obligations.CommandsIgnoreTheClock : Prop :=
  ∀ (i : Instr) (s t : State) (now draws : Nat) (trace : List (Event × Nat)), exec i s = .next t →
    ∃ t' evs, exec i { s with now := now, draws := draws, trace := trace } = .next t'
      ∧ t.events = s.events ++ evs ∧ t'.events = trace.map (·.1) ++ evs
      ∧ t'.pins = t.pins ∧ t'.mode = t.mode ∧ t'.shadow = t.shadow ∧ t'.pending = t.pending

/-- R201: the minimum duration of every command, for every draw of the clock. The draws are log 5. -/
def Obligations.CommandsTakeTheirMinimumTime : Prop :=
  ∀ (i : Instr) (s t : State), exec i s = .next t → s.now + minDuration s.cfg.raw i ≤ t.now

/-- R202, R57, R195: every command adds the pulses of one byte, and INIT 5 or 11: a Half block never sends a lone nibble after the
one of INIT. -/
def Obligations.CommandsMakeTheirPulses : Prop :=
  ∀ (i : Instr) (s t : State), s.pending = [] → s.quiet → s.explained → exec i s = .next t →
    (pulsesOf s.cfg.raw t.trace).length = (pulsesOf s.cfg.raw s.trace).length +
      (match i, s.cfg.raw.busWidth with
        | .init, .full => 5
        | .init, .half => 11
        | _, .full => 1
        | _, .half => 2)

/-- R192, R197: no command but a raw send of a clear or home byte ever leaves a completion bound violated or owed, for every draw
of the clock. The flag is log 21. -/
def Obligations.NamedCommandsKeepTheCompletionBound : Prop :=
  ∀ (i : Instr) (s t : State), s.pending = [] → s.quiet → s.explained → s.completionKept → ¬ isRawClear i →
    exec i s = .next t → t.completionKept

/-- R192, R115: after a raw send of a clear or home byte, and whatever the host then does that writes no bus pin, the next command,
whichever it is, is flagged exactly when less than `T_CLEAR` separates the fall of E that committed the byte from the next rise
of E; a host that has let `T_CLEAR` pass is not flagged (R203). The flag is log 21. -/
def Obligations.RawClearIsFlaggedWhenTooEarly : Prop :=
  ∀ (s t v u : State) (n : Nat) (new : List (Event × Nat)) (j : Instr),
    s.ready → s.quiet → s.explained → s.completionKept → isRawClear (.sendInstruction n) →
    exec (.sendInstruction n) s = .next t →
    v.ready → v.cfg = t.cfg → v.trace = t.trace ++ new → (∀ x ∈ new, ∀ p l, x.1 = .wr p l → ¬ isBusPin s.cfg.raw p) →
    t.now ≤ v.now → exec j v = .next u →
      ∃ p q, (pulsesOf s.cfg.raw u.trace)[pulsesPerByte s.cfg.raw]? = some p
        ∧ (pulsesOf s.cfg.raw u.trace)[pulsesPerByte s.cfg.raw - 1]? = some q
        ∧ (clearHazard s.cfg.raw u.trace = true ↔ q.riseAt < p.fallAt + s.cfg.raw.tClear)
        ∧ (t.now + s.cfg.raw.tClear ≤ v.now → clearHazard s.cfg.raw u.trace = false)

/-! ## The host -/

/-- R142: `set_line` out of range changes nothing; in range it stores at most `ROW_CAPACITY - 1` characters of the text, stopping at
its first terminator, ends them with a terminator, and changes no other row. That it is a request is log 18. -/
def Obligations.SetLineStoresTheText : Prop :=
  ∀ (s : State) (index : Int) (text : List Byte) (q : List Request),
    s.pending = [] → s.queue = .setLine index text :: q → s.rows.length = s.cfg.raw.rowCount →
      ∃ t, step s = .next t
        ∧ ((index < 0 ∨ s.cfg.raw.rowCount ≤ index) → t = { s with queue := q })
        ∧ (∀ k : Nat, index = k → k < s.cfg.raw.rowCount →
            ∃ row old,
              let n := min (text.takeWhile (· != 0x00#8)).length (s.cfg.raw.rowCapacity - 1)
              s.rows[k]? = some old
                ∧ t = { s with queue := q, rows := s.rows.set k row }
                ∧ row.take n = text.take n ∧ row[n]? = some 0x00#8
                ∧ row.drop (n + 1) = old.drop (n + 1))

/-- R143, R149: `display_line` out of range does nothing; in range it sends the row's address and then every stored character, each
with its own transfer. That it is a request that puts its commands before the others is log 18. -/
def Obligations.DisplayLineSendsTheRow : Prop :=
  ∀ (s : State) (index : Int) (q : List Request), s.ready → s.queue = .displayLine index :: q →
    ((index < 0 ∨ s.cfg.raw.rowCount ≤ index) → step s = .next { s with queue := q })
      ∧ ∀ (k : Nat) (row : List Byte) (addr : BitVec 7), index = k →
          s.cfg.raw.rowAddr[k]? = some addr → s.rows[k]? = some row →
            steps ((row.takeWhile (· != 0x00#8)).length + 2) s = .next
              { s.after (ruleSend s.cfg.raw false (BitVec.ofNat 8 (0x80 + addr.toNat))
                  ++ (row.takeWhile (· != 0x00#8)).flatMap (ruleSend s.cfg.raw true)) with
                queue := q, shadow := { s.shadow with ram := .ddram, addr := .known addr.toNat } }

/-- R147, R146: one period of the Running loop sets and displays each chosen row, toggles the debug pin and waits for the deadline, in
that order, before anything else the host asks for. That it is a request, and refused in Initializing, is log 9 and 18. -/
def Obligations.PeriodAsksInOrder : Prop :=
  ∀ (s : State) (content : List (Int × List Byte)) (q : List Request),
    s.pending = [] → s.queue = .period content :: q →
      (s.mode = .running → step s = .next { s with
          queue := content.flatMap (fun r => [.setLine r.1 r.2, .displayLine r.1]) ++ [.toggleDebug, .deadlineWait] ++ q })
        ∧ (s.mode = .initializing → step s = .refused .beforeInit)

/-- R175, R147: the toggle inverts the debug pin by one write and touches no other pin; without a debug pin it is skipped.
That it is a request is log 18. -/
def Obligations.DebugToggleInverts : Prop :=
  ∀ (s : State) (q : List Request), s.pending = [] → s.queue = .toggleDebug :: q →
    (s.cfg.raw.pinDbg = none → step s = .next { s with queue := q })
      ∧ ∀ p v, s.cfg.raw.pinDbg = some p → s.dirOf p = .output → s.latchOf p = .level v →
          ∃ t, step s = .next t ∧ t = { s.after [.wr p (!v)] with queue := q }
            ∧ t.latchOf p = .level (!v) ∧ ∀ r, r ≠ p → t.latchOf r = s.latchOf r

/-- R148, R174: with every iteration shorter than the period, the wake times are exactly one period apart, whatever the work.
That the task wakes exactly at its wake time is log 15. -/
def Obligations.DeadlinesDoNotDrift : Prop :=
  ∀ (s : State) (works : List Nat), s.now = s.wake → (∀ w ∈ works, w < s.cfg.raw.period) →
    (works.foldl workThenWait s).wake = s.wake + works.length * s.cfg.raw.period
      ∧ (works.foldl workThenWait s).now = (works.foldl workThenWait s).wake
      ∧ (works.foldl workThenWait s).trace = s.trace

/-- R173: the host's own busy-wait lasts at least as long as asked and writes no pin. That it is a request is log 18. -/
def Obligations.BusyWaitLasts : Prop :=
  ∀ (s : State) (d : Nat) (q : List Request), s.pending = [] → s.queue = .busyWait d :: q →
    ∃ t, step s = .next t ∧ t = { s.after [.wait d] with queue := q } ∧ s.now + d ≤ t.now ∧ t.pins = s.pins
end

