-- ==== Sys2Proof/Laws/State.lean ====
section
/-!
SUPPORT. The small lemmas of the record updates: for each update what it leaves in each field, so that no proof unfolds a
record update.
-/

namespace Sys2Proof.Machine

variable (s : State)

/-! ## `State.record` -/

@[simp] theorem record_cfg (e : Event) : (s.record e).cfg = s.cfg := rfl
@[simp] theorem record_pins (e : Event) : (s.record e).pins = s.pins := rfl
@[simp] theorem record_mode (e : Event) : (s.record e).mode = s.mode := rfl
@[simp] theorem record_pending (e : Event) : (s.record e).pending = s.pending := rfl
@[simp] theorem record_shadow (e : Event) : (s.record e).shadow = s.shadow := rfl
@[simp] theorem record_now (e : Event) : (s.record e).now = s.now + e.minTime + Config.draw s.draws := rfl
@[simp] theorem record_trace (e : Event) : (s.record e).trace = s.trace ++ [(e, s.now + e.minTime + Config.draw s.draws)] := rfl
@[simp] theorem record_draws (e : Event) : (s.record e).draws = s.draws + 1 := rfl
@[simp] theorem record_queue (e : Event) : (s.record e).queue = s.queue := rfl
@[simp] theorem record_rows (e : Event) : (s.record e).rows = s.rows := rfl
@[simp] theorem record_wake (e : Event) : (s.record e).wake = s.wake := rfl
@[simp] theorem record_dirOf (e : Event) (p : PinId) : (s.record e).dirOf p = s.dirOf p := rfl
@[simp] theorem record_latchOf (e : Event) (p : PinId) : (s.record e).latchOf p = s.latchOf p := rfl

/-! ## `State.after` -/

@[simp] theorem after_cfg (evs : List Event) : (s.after evs).cfg = s.cfg := rfl
@[simp] theorem after_pins (evs : List Event) : (s.after evs).pins = evs.foldl (fun cs e => e.onPins cs) s.pins := rfl
@[simp] theorem after_mode (evs : List Event) : (s.after evs).mode = s.mode := rfl
@[simp] theorem after_pending (evs : List Event) : (s.after evs).pending = s.pending := rfl
@[simp] theorem after_shadow (evs : List Event) : (s.after evs).shadow = s.shadow := rfl
@[simp] theorem after_now (evs : List Event) : (s.after evs).now = endTime s.draws s.now evs := rfl
@[simp] theorem after_trace (evs : List Event) : (s.after evs).trace = s.trace ++ stamps s.draws s.now evs := rfl
@[simp] theorem after_draws (evs : List Event) : (s.after evs).draws = s.draws + evs.length := rfl
@[simp] theorem after_queue (evs : List Event) : (s.after evs).queue = s.queue := rfl
@[simp] theorem after_rows (evs : List Event) : (s.after evs).rows = s.rows := rfl
@[simp] theorem after_wake (evs : List Event) : (s.after evs).wake = s.wake := rfl

/-! ## `applyUpdate` -/

@[simp] theorem applyUpdate_cfg (u : Update) : (applyUpdate s u).cfg = s.cfg := by cases u <;> rfl
@[simp] theorem applyUpdate_pins (u : Update) : (applyUpdate s u).pins = s.pins := by cases u <;> rfl
@[simp] theorem applyUpdate_pending (u : Update) : (applyUpdate s u).pending = s.pending := by cases u <;> rfl
@[simp] theorem applyUpdate_now (u : Update) : (applyUpdate s u).now = s.now := by cases u <;> rfl
@[simp] theorem applyUpdate_trace (u : Update) : (applyUpdate s u).trace = s.trace := by cases u <;> rfl
@[simp] theorem applyUpdate_draws (u : Update) : (applyUpdate s u).draws = s.draws := by cases u <;> rfl
@[simp] theorem applyUpdate_queue (u : Update) : (applyUpdate s u).queue = s.queue := by cases u <;> rfl
@[simp] theorem applyUpdate_rows (u : Update) : (applyUpdate s u).rows = s.rows := by cases u <;> rfl
@[simp] theorem applyUpdate_wake (u : Update) : (applyUpdate s u).wake = s.wake := by cases u <;> rfl
@[simp] theorem applyUpdate_dirOf (u : Update) (p : PinId) : (applyUpdate s u).dirOf p = s.dirOf p := by
  cases u <;> rfl
@[simp] theorem applyUpdate_latchOf (u : Update) (p : PinId) : (applyUpdate s u).latchOf p = s.latchOf p := by
  cases u <;> rfl
@[simp] theorem applyUpdate_address_mode (r : Ram) (a : Nat) : (applyUpdate s (.address r a)).mode = s.mode := rfl
@[simp] theorem applyUpdate_entry_mode (i j : BitVec 1) : (applyUpdate s (.entry i j)).mode = s.mode := rfl
@[simp] theorem applyUpdate_enterRunning_mode : (applyUpdate s .enterRunning).mode = .running := rfl
@[simp] theorem applyUpdate_enterRunning_shadow : (applyUpdate s .enterRunning).shadow = s.shadow := rfl
@[simp] theorem applyUpdate_address_shadow (r : Ram) (a : Nat) :
    (applyUpdate s (.address r a)).shadow = { s.shadow with ram := r, addr := .known a } := rfl
@[simp] theorem applyUpdate_entry_shadow (i j : BitVec 1) :
    (applyUpdate s (.entry i j)).shadow = { s.shadow with id := .known i, s := .known j } := rfl

/-! ## Updates of `pending` and `queue` leave the pins -/

@[simp] theorem dirOf_with_pending (l : List Act) (p : PinId) :
    ({ s with pending := l } : State).dirOf p = s.dirOf p := rfl
@[simp] theorem latchOf_with_pending (l : List Act) (p : PinId) :
    ({ s with pending := l } : State).latchOf p = s.latchOf p := rfl
@[simp] theorem dirOf_with_queue (q : List Request) (p : PinId) :
    ({ s with queue := q } : State).dirOf p = s.dirOf p := rfl
@[simp] theorem latchOf_with_queue (q : List Request) (p : PinId) :
    ({ s with queue := q } : State).latchOf p = s.latchOf p := rfl

/-! ## The host's operations -/

@[simp] theorem setLine_cfg (i : Int) (t : List Byte) : (setLine i t s).cfg = s.cfg := by
  simp only [setLine]; split <;> rfl
@[simp] theorem setLine_pins (i : Int) (t : List Byte) : (setLine i t s).pins = s.pins := by
  simp only [setLine]; split <;> rfl
@[simp] theorem setLine_mode (i : Int) (t : List Byte) : (setLine i t s).mode = s.mode := by
  simp only [setLine]; split <;> rfl
@[simp] theorem setLine_pending (i : Int) (t : List Byte) : (setLine i t s).pending = s.pending := by
  simp only [setLine]; split <;> rfl
@[simp] theorem setLine_shadow (i : Int) (t : List Byte) : (setLine i t s).shadow = s.shadow := by
  simp only [setLine]; split <;> rfl
@[simp] theorem setLine_now (i : Int) (t : List Byte) : (setLine i t s).now = s.now := by
  simp only [setLine]; split <;> rfl
@[simp] theorem setLine_trace (i : Int) (t : List Byte) : (setLine i t s).trace = s.trace := by
  simp only [setLine]; split <;> rfl
@[simp] theorem setLine_draws (i : Int) (t : List Byte) : (setLine i t s).draws = s.draws := by
  simp only [setLine]; split <;> rfl
@[simp] theorem setLine_queue (i : Int) (t : List Byte) : (setLine i t s).queue = s.queue := by
  simp only [setLine]; split <;> rfl
@[simp] theorem setLine_wake (i : Int) (t : List Byte) : (setLine i t s).wake = s.wake := by
  simp only [setLine]; split <;> rfl
@[simp] theorem displayLine_cfg (i : Int) : (displayLine i s).cfg = s.cfg := rfl
@[simp] theorem displayLine_pins (i : Int) : (displayLine i s).pins = s.pins := rfl
@[simp] theorem displayLine_mode (i : Int) : (displayLine i s).mode = s.mode := rfl
@[simp] theorem displayLine_pending (i : Int) : (displayLine i s).pending = s.pending := rfl
@[simp] theorem displayLine_shadow (i : Int) : (displayLine i s).shadow = s.shadow := rfl
@[simp] theorem displayLine_now (i : Int) : (displayLine i s).now = s.now := rfl
@[simp] theorem displayLine_trace (i : Int) : (displayLine i s).trace = s.trace := rfl
@[simp] theorem displayLine_draws (i : Int) : (displayLine i s).draws = s.draws := rfl
@[simp] theorem displayLine_rows (i : Int) : (displayLine i s).rows = s.rows := rfl
@[simp] theorem displayLine_wake (i : Int) : (displayLine i s).wake = s.wake := rfl
@[simp] theorem displayLine_queue (i : Int) :
    (displayLine i s).queue = (displayCommands s i).map .call ++ s.queue := rfl
@[simp] theorem deadlineWait_cfg : (deadlineWait s).cfg = s.cfg := by
  simp only [deadlineWait]; split <;> rfl
@[simp] theorem deadlineWait_pins : (deadlineWait s).pins = s.pins := by
  simp only [deadlineWait]; split <;> rfl
@[simp] theorem deadlineWait_mode : (deadlineWait s).mode = s.mode := by
  simp only [deadlineWait]; split <;> rfl
@[simp] theorem deadlineWait_pending : (deadlineWait s).pending = s.pending := by
  simp only [deadlineWait]; split <;> rfl
@[simp] theorem deadlineWait_shadow : (deadlineWait s).shadow = s.shadow := by
  simp only [deadlineWait]; split <;> rfl
@[simp] theorem deadlineWait_trace : (deadlineWait s).trace = s.trace := by
  simp only [deadlineWait]; split <;> rfl
@[simp] theorem deadlineWait_queue : (deadlineWait s).queue = s.queue := by
  simp only [deadlineWait]; split <;> rfl
@[simp] theorem deadlineWait_rows : (deadlineWait s).rows = s.rows := by
  simp only [deadlineWait]; split <;> rfl

end Sys2Proof.Machine
end

