-- ==== Sys2Proof/Laws/Pins.lean ====
section
/-!
SUPPORT. The laws of the pin file (10_state.md R21, R22): reading a pin after it or another one was written or configured, and the
identifiers, which no operation changes.
-/

namespace Sys2Proof.Machine

/-- The identifiers of the cells: the pin file's canonical form is that they stay the pins of PinAssignment. -/
abbrev idsOf (cs : List PinCell) : List PinId := cs.map (·.id)

@[simp] theorem setLatch_ids (p : PinId) (v : Level) (cs : List PinCell) : idsOf (setLatch p v cs) = idsOf cs := by
  simp only [idsOf, setLatch, List.map_map]
  refine List.map_congr_left fun c _ => ?_
  simp only [Function.comp]
  split <;> rfl

@[simp] theorem setOutput_ids (p : PinId) (cs : List PinCell) : idsOf (setOutput p cs) = idsOf cs := by
  simp only [idsOf, setOutput, List.map_map]
  refine List.map_congr_left fun c _ => ?_
  simp only [Function.comp]
  split <;> rfl

/-- Every event keeps the pin file's identifiers. -/
@[simp] theorem onPins_ids (e : Event) (cs : List PinCell) : idsOf (e.onPins cs) = idsOf cs := by
  cases e <;> simp [Event.onPins, -List.map_inj_left]

/-- A pin is found exactly when its identifier is there. -/
theorem findPin_isSome (p : PinId) (cs : List PinCell) : (findPin p cs).isSome = true ↔ p ∈ idsOf cs := by
  induction cs with
  | nil => simp [findPin]
  | cons c cs ih =>
    by_cases h : c.id = p
    · simp [findPin, h]
    · simp only [findPin, h, if_false, ih, idsOf, List.map_cons, List.mem_cons]
      constructor
      · exact Or.inr
      · rintro (rfl | h')
        · exact absurd rfl h
        · exact h'

/-- Rewriting the cells without changing an identifier rewrites the cell that is found. -/
theorem findPin_map (q : PinId) (f : PinCell → PinCell) (hf : ∀ c, (f c).id = c.id) (cs : List PinCell) :
    findPin q (cs.map f) = (findPin q cs).map f := by
  induction cs with
  | nil => rfl
  | cons c cs ih => by_cases h : c.id = q <;> simp [findPin, hf, h, ih]

/-- The cell found for a pin carries its identifier. -/
theorem findPin_id {q : PinId} {cs : List PinCell} {c : PinCell} (h : findPin q cs = some c) : c.id = q := by
  induction cs with
  | nil => simp [findPin] at h
  | cons d cs ih =>
    by_cases hd : d.id = q
    · simp only [findPin, hd, if_true, Option.some.injEq] at h
      exact h ▸ hd
    · exact ih (by simpa [findPin, hd] using h)

/-- Read after write: the pin written shows the level, every other pin is as before (R21). -/
theorem latchIn_setLatch (q p : PinId) (v : Level) (cs : List PinCell) :
    latchIn q (setLatch p v cs) = if q = p ∧ p ∈ idsOf cs then .level v else latchIn q cs := by
  have hm : p ∈ idsOf cs ↔ (findPin p cs).isSome = true := (findPin_isSome p cs).symm
  rw [latchIn, latchIn, setLatch, findPin_map _ _ (fun c => by split <;> rfl)]
  cases h : findPin q cs with
  | none =>
    rw [if_neg]
    · rfl
    · rintro ⟨rfl, hmem⟩
      simp [hm, h] at hmem
  | some c =>
    have hid := findPin_id h
    by_cases hq : q = p
    · subst hq
      rw [if_pos ⟨rfl, hm.2 (by simp [h])⟩]
      simp [hid]
    · rw [if_neg fun hh => hq hh.1]
      simp [hid, hq]

/-- Writing a pin configures none (R22). -/
theorem findPin_setLatch_dir (q p : PinId) (v : Level) (cs : List PinCell) :
    (findPin q (setLatch p v cs)).map (·.dir) = (findPin q cs).map (·.dir) := by
  rw [setLatch, findPin_map _ _ (fun c => by split <;> rfl), Option.map_map]
  congr 1
  funext c
  simp only [Function.comp]
  split <;> rfl

/-- Configuring a pin leaves every latch as it was (R22). -/
@[simp] theorem latchIn_setOutput (q p : PinId) (cs : List PinCell) : latchIn q (setOutput p cs) = latchIn q cs := by
  rw [latchIn, latchIn, setOutput, findPin_map _ _ (fun c => by split <;> rfl), Option.map_map]
  congr 2
  funext c
  simp only [Function.comp]
  split <;> rfl

/-- Configuring a pin of the file makes an output of it and of no other (R22). -/
theorem dirOf_setOutput (s : State) (q p : PinId) :
    ({ s with pins := setOutput p s.pins } : State).dirOf q
      = if q = p ∧ p ∈ idsOf s.pins then .output else s.dirOf q := by
  have hm : p ∈ idsOf s.pins ↔ (findPin p s.pins).isSome = true := (findPin_isSome p s.pins).symm
  simp only [State.dirOf, setOutput]
  rw [findPin_map q (fun c => if c.id = p then { c with dir := .output } else c) (fun c => by split <;> rfl)]
  cases h : findPin q s.pins with
  | none =>
    rw [if_neg]
    · rfl
    · rintro ⟨rfl, hmem⟩
      simp [hm, h] at hmem
  | some c =>
    have hid := findPin_id h
    by_cases hq : q = p
    · subst hq
      rw [if_pos ⟨rfl, hm.2 (by simp [h])⟩]
      simp [hid]
    · rw [if_neg fun hh => hq hh.1]
      simp [hid, hq]

/-- A pin that is an output is a pin of the block. -/
theorem mem_ids_of_output {s : State} {p : PinId} (h : s.dirOf p = .output) : p ∈ idsOf s.pins := by
  rw [← findPin_isSome]
  cases hf : findPin p s.pins with
  | none => simp [State.dirOf, hf] at h
  | some c => rfl

/-- The direction of a pin after an event: only `Cfg` makes an output of it (R22). -/
theorem dirOf_onPins_of_output (s : State) (e : Event) (q : PinId) (h : s.dirOf q = .output) :
    ({ s with pins := e.onPins s.pins } : State).dirOf q = .output := by
  cases e with
  | cfg p =>
    simp only [Event.onPins, State.dirOf, setOutput] at h ⊢
    rw [findPin_map _ _ (fun c => by split <;> rfl)]
    cases hf : findPin q s.pins with
    | none => simp [hf] at h
    | some c => by_cases hp : c.id = p <;> simp_all
  | wr p v => simpa only [Event.onPins, State.dirOf, findPin_setLatch_dir] using h
  | wait d => exact h

end Sys2Proof.Machine
end

