-- ==== Sys2Proof/Laws/Run.lean ====
section
/-!
SUPPORT. What performing events and acts can do, said once: `emit`, `perform`, `runActs` and `tick` (10_state.md R25, R27, R28).
-/

namespace Sys2Proof.Machine

/-! ## Going on from an outcome -/

@[simp] theorem andThen_next (s : State) (k : State → Result) : Result.andThen (.next s) k = k s := rfl
@[simp] theorem andThen_refused (q : Refusal) (k : State → Result) : Result.andThen (.refused q) k = .refused q := rfl

/-- A next state after two parts comes from a next state after the first. -/
theorem andThen_eq_next {r : Result} {k : State → Result} {t : State} :
    Result.andThen r k = .next t ↔ ∃ u, r = .next u ∧ k u = .next t := by
  cases r <;> simp [Result.andThen]

/-! ## One event, one act -/

/-- The state once an event has been performed. -/
def State.afterEvent (s : State) (e : Event) : State := ({ s with pins := e.onPins s.pins } : State).record e

/-- The state once an act has been performed. -/
def State.afterAct (s : State) (a : Act) : State := a.updates.foldl applyUpdate (s.afterEvent a.event)

/-- An event is admitted: it writes an output pin, or writes none (R22). -/
def State.admitsEvent (s : State) (e : Event) : Prop := ∀ p v, e = .wr p v → s.dirOf p = .output

/-- An admitted event is performed. -/
theorem emit_of_admits {s : State} {e : Event} (h : s.admitsEvent e) : emit e s = .next (s.afterEvent e) := by
  cases e with
  | cfg p => rfl
  | wr p v => simp [emit, h p v rfl, State.afterEvent, Event.onPins]
  | wait d => rfl

/-- Everything an event can do: it is admitted and performed. -/
theorem emit_eq_next {s t : State} {e : Event} :
    emit e s = .next t ↔ s.admitsEvent e ∧ t = s.afterEvent e := by
  constructor
  · intro h
    have ha : s.admitsEvent e := by
      rintro p v rfl
      by_contra hd
      simp [emit, hd] at h
    rw [emit_of_admits ha] at h
    exact ⟨ha, by injection h with h; exact h.symm⟩
  · rintro ⟨ha, rfl⟩
    exact emit_of_admits ha

/-- An admitted act is performed. -/
theorem perform_of_admits {s : State} {a : Act} (h : s.admitsEvent a.event) : perform a s = .next (s.afterAct a) := by
  rw [perform, emit_of_admits h]
  rfl

/-- Everything an act can do. -/
theorem perform_eq_next {s t : State} {a : Act} :
    perform a s = .next t ↔ s.admitsEvent a.event ∧ t = s.afterAct a := by
  rw [perform, andThen_eq_next]
  constructor
  · rintro ⟨u, hu, ht⟩
    obtain ⟨ha, rfl⟩ := emit_eq_next.1 hu
    injection ht with ht
    exact ⟨ha, ht.symm⟩
  · rintro ⟨ha, rfl⟩
    exact ⟨_, emit_of_admits ha, rfl⟩

/-! ## The frame of an act -/

theorem foldl_applyUpdate_eq {α : Type} (f : State → α) (hf : ∀ s u, f (applyUpdate s u) = f s) (us : List Update)
    (s : State) : f (us.foldl applyUpdate s) = f s := by
  induction us generalizing s with
  | nil => rfl
  | cons u us ih => rw [List.foldl_cons, ih, hf]

@[simp] theorem afterAct_cfg (s : State) (a : Act) : (s.afterAct a).cfg = s.cfg :=
  foldl_applyUpdate_eq (·.cfg) applyUpdate_cfg _ _
@[simp] theorem afterAct_pins (s : State) (a : Act) : (s.afterAct a).pins = a.event.onPins s.pins :=
  foldl_applyUpdate_eq (·.pins) applyUpdate_pins _ _
@[simp] theorem afterAct_pending (s : State) (a : Act) : (s.afterAct a).pending = s.pending :=
  foldl_applyUpdate_eq (·.pending) applyUpdate_pending _ _
@[simp] theorem afterAct_now (s : State) (a : Act) :
    (s.afterAct a).now = s.now + a.event.minTime + Config.draw s.draws :=
  foldl_applyUpdate_eq (·.now) applyUpdate_now _ _
@[simp] theorem afterAct_trace (s : State) (a : Act) :
    (s.afterAct a).trace = s.trace ++ [(a.event, s.now + a.event.minTime + Config.draw s.draws)] :=
  foldl_applyUpdate_eq (·.trace) applyUpdate_trace _ _
@[simp] theorem afterAct_draws (s : State) (a : Act) : (s.afterAct a).draws = s.draws + 1 :=
  foldl_applyUpdate_eq (·.draws) applyUpdate_draws _ _
@[simp] theorem afterAct_queue (s : State) (a : Act) : (s.afterAct a).queue = s.queue :=
  foldl_applyUpdate_eq (·.queue) applyUpdate_queue _ _
@[simp] theorem afterAct_rows (s : State) (a : Act) : (s.afterAct a).rows = s.rows :=
  foldl_applyUpdate_eq (·.rows) applyUpdate_rows _ _
@[simp] theorem afterAct_wake (s : State) (a : Act) : (s.afterAct a).wake = s.wake :=
  foldl_applyUpdate_eq (·.wake) applyUpdate_wake _ _

/-- An output stays an output through an act. -/
theorem afterAct_dirOf_output {s : State} {q : PinId} (a : Act) (h : s.dirOf q = .output) :
    (s.afterAct a).dirOf q = .output := by
  have := dirOf_onPins_of_output s a.event q h
  simpa only [State.dirOf, afterAct_pins] using this

/-! ## Many acts -/

@[simp] theorem runActs_nil (s : State) : runActs [] s = .next s := rfl

theorem runActs_append (as bs : List Act) (s : State) :
    runActs (as ++ bs) s = Result.andThen (runActs as s) (runActs bs) := by
  induction as generalizing s with
  | nil => rfl
  | cons a as ih =>
    simp only [List.cons_append, runActs]
    cases perform a s with
    | next t => exact ih t
    | fault f => rfl
    | refused q => rfl

/-- Everything running acts can do: if it answers a next state, that is the acts' effects one after the other. -/
theorem runActs_eq_next {as : List Act} {s t : State} (h : runActs as s = .next t) : t = as.foldl State.afterAct s := by
  induction as generalizing s with
  | nil => simpa using h.symm
  | cons a as ih =>
    obtain ⟨u, hu, hk⟩ := andThen_eq_next.1 h
    obtain ⟨-, rfl⟩ := perform_eq_next.1 hu
    exact ih hk

/-- Acts that write only outputs run to their end (R22). -/
theorem runActs_of_admits {as : List Act} {s : State} (h : ∀ a ∈ as, s.admitsEvent a.event) :
    runActs as s = .next (as.foldl State.afterAct s) := by
  induction as generalizing s with
  | nil => rfl
  | cons a as ih =>
    rw [runActs, perform_of_admits (h a (by simp)), andThen_next]
    exact ih fun b hb p v hw => afterAct_dirOf_output a (h b (by simp [hb]) p v hw)

/-- What acts never touch. -/
theorem foldl_afterAct_frame (as : List Act) (s : State) :
    (as.foldl State.afterAct s).cfg = s.cfg ∧ (as.foldl State.afterAct s).pending = s.pending
      ∧ (as.foldl State.afterAct s).queue = s.queue ∧ (as.foldl State.afterAct s).rows = s.rows
      ∧ (as.foldl State.afterAct s).wake = s.wake := by
  induction as generalizing s with
  | nil => simp
  | cons a as ih => simpa using ih (s.afterAct a)

theorem foldl_applyUpdate_with_pending (us : List Update) (s : State) (l : List Act) :
    us.foldl applyUpdate { s with pending := l } = { us.foldl applyUpdate s with pending := l } := by
  induction us generalizing s with
  | nil => rfl
  | cons u us ih =>
    have h : applyUpdate { s with pending := l } u = { applyUpdate s u with pending := l } := by cases u <;> rfl
    rw [List.foldl_cons, List.foldl_cons, h, ih]

theorem afterAct_with_pending (s : State) (a : Act) (l : List Act) :
    ({ s with pending := l } : State).afterAct a = { s.afterAct a with pending := l } :=
  foldl_applyUpdate_with_pending a.updates (s.afterEvent a.event) l

/-- An act that is not admitted writes a pin that is no output, and is refused by that name (R22). -/
theorem perform_of_not_admits {s : State} {a : Act} (h : ¬ s.admitsEvent a.event) :
    ∃ p, perform a s = .refused (.pinNotConfigured p) := by
  obtain ⟨e, us⟩ := a
  simp only [State.admitsEvent, not_forall] at h
  obtain ⟨p, v, rfl, hd⟩ := h
  exact ⟨p, by simp [perform, emit, hd]⟩

/-- A refused act is refused whatever is pending. -/
theorem perform_refused_with_pending {s : State} {a : Act} (h : ¬ s.admitsEvent a.event) (l m : List Act) :
    perform a { s with pending := l } = perform a { s with pending := m } := by
  obtain ⟨e, us⟩ := a
  simp only [State.admitsEvent, not_forall] at h
  obtain ⟨p, v, rfl, hd⟩ := h
  simp [perform, emit, hd]

/-! ## The acts of a list of events -/

theorem after_nil (s : State) : s.after [] = s := by
  simp [State.after, endTime, stamps]

theorem after_cons (s : State) (e : Event) (es : List Event) : s.after (e :: es) = (s.afterEvent e).after es := by
  simp [State.after, State.afterEvent, State.record, endTime, stamps, Nat.add_comm, Nat.add_left_comm]

theorem after_append (s : State) (es fs : List Event) : s.after (es ++ fs) = (s.after es).after fs := by
  induction es generalizing s with
  | nil => simp [after_nil]
  | cons e es ih => rw [List.cons_append, after_cons, after_cons, ih]

/-- The events of `actsOf` are the events it was given. -/
@[simp] theorem actsOf_events (us : List Update) (es : List Event) : (actsOf us es).map (·.event) = es := by
  induction es with
  | nil => rfl
  | cons e es ih => cases es with
    | nil => rfl
    | cons f fs => simp only [actsOf, List.map_cons, ih]

@[simp] theorem actsOf_length (us : List Update) (es : List Event) : (actsOf us es).length = es.length := by
  rw [← List.length_map (f := (·.event)), actsOf_events]

/-- What a command's acts leave behind: its events' effects, then its assignments (R31). -/
theorem foldl_actsOf (us : List Update) (es : List Event) (hne : es ≠ []) (s : State) :
    (actsOf us es).foldl State.afterAct s = us.foldl applyUpdate (s.after es) := by
  induction es generalizing s with
  | nil => exact absurd rfl hne
  | cons e es ih =>
    cases es with
    | nil => rw [after_cons, after_nil]; rfl
    | cons f fs =>
      rw [after_cons, ← ih (by simp)]
      rfl

/-- One lemma for every command that is a list of events and assignments: with every pin it writes an output, its acts run to
their end. -/
theorem runActs_actsOf {us : List Update} {es : List Event} {s : State} (hne : es ≠ [])
    (h : ∀ p v, Event.wr p v ∈ es → s.dirOf p = .output) :
    runActs (actsOf us es) s = .next (us.foldl applyUpdate (s.after es)) := by
  rw [runActs_of_admits, foldl_actsOf us es hne]
  rintro a ha p v hw
  refine h p v ?_
  rw [← hw, ← actsOf_events us es]
  exact List.mem_map_of_mem ha

/-! ## Small steps -/

/-- Small steps until nothing is pending run the command in flight to its end (R25). -/
theorem ticks_eq_runActs (as : List Act) (s : State) :
    ticks as.length { s with pending := as } = runActs as { s with pending := [] } := by
  induction as generalizing s with
  | nil => rfl
  | cons a rest ih =>
    have e1 : tick { s with pending := a :: rest } = perform a { s with pending := rest } := rfl
    rw [List.length_cons, ticks, e1, runActs]
    by_cases h : s.admitsEvent a.event
    · have h1 : ({ s with pending := rest } : State).admitsEvent a.event := h
      have h2 : ({ s with pending := [] } : State).admitsEvent a.event := h
      rw [perform_of_admits h1, perform_of_admits h2, andThen_next, andThen_next, afterAct_with_pending s a rest,
        afterAct_with_pending s a []]
      exact ih (s.afterAct a)
    · rw [perform_refused_with_pending h rest []]
      obtain ⟨p, hp⟩ := perform_of_not_admits (s := { s with pending := [] }) (a := a) h
      rw [hp, andThen_refused, andThen_refused]

/-- As many small steps as events are pending run the command in flight to its end (R25). -/
theorem ticks_pending (s : State) : ticks s.pending.length s = s.drained := ticks_eq_runActs s.pending s

end Sys2Proof.Machine
end

