-- ==== Sys2Proof/Laws/Admission.lean ====
section
/-!
SUPPORT. What `runCommand` can do, said once (10_state.md R24, R25), and the pins a command writes.
-/

namespace Sys2Proof.Machine

/-- With nothing in flight and the mode willing, a command performs its acts. -/
theorem runCommand_of_admitted {i : Instr} {acts : List Act} {s : State} (hp : s.pending = [])
    (hm : modeRefusal s.mode i = none) : runCommand i acts s = runActs acts s := by
  simp [runCommand, hp, hm]

/-- With nothing in flight and the mode against it, a command is refused by name. -/
theorem runCommand_of_refused {i : Instr} {acts : List Act} {s : State} {r : Refusal} (hp : s.pending = [])
    (hm : modeRefusal s.mode i = some r) : runCommand i acts s = .refused r := by
  simp [runCommand, hp, hm]

/-- Everything `runCommand` can do: if it answers a next state, then nothing was in flight, the mode admitted the command and
its acts ran; or `INIT` had come to it, and what was pending of it ran. -/
theorem runCommand_eq_next {i : Instr} {acts : List Act} {s t : State} (h : runCommand i acts s = .next t) :
    (s.pending = [] ∧ modeRefusal s.mode i = none ∧ runActs acts s = .next t)
      ∨ (s.pending ≠ [] ∧ s.issuedByInit i = true
          ∧ runActs (s.pending.take acts.length) { s with pending := s.pending.drop acts.length } = .next t) := by
  unfold runCommand at h
  split at h
  · rename_i hp
    split at h
    · exact .inl ⟨hp, by assumption, h⟩
    · cases h
  · rename_i hp
    split at h
    · exact .inr ⟨hp, by assumption, h⟩
    · cases h

/-- In Running every command but `INIT` and `INIT_NIBBLE` is admitted (R24). -/
theorem modeRefusal_running {i : Instr} (h1 : i ≠ .init) (h2 : i ≠ .initNibble) : modeRefusal .running i = none := by
  cases i <;> first | rfl | exact absurd rfl h1 | exact absurd rfl h2

/-! ## Which pins a transfer writes -/

theorem mem_assertFrom {v : Byte} {k : Nat} {ps : List PinId} {p : PinId} {l : Level}
    (h : Event.wr p l ∈ assertFrom v k ps) : p ∈ ps := by
  induction ps generalizing k with
  | nil => simp [assertFrom] at h
  | cons q qs ih =>
    simp only [assertFrom, List.mem_cons, Event.wr.injEq] at h
    rcases h with ⟨rfl, -⟩ | h
    · simp
    · exact List.mem_cons_of_mem _ (ih h)

/-- A pulse writes E and the data lines only (R23). -/
theorem mem_pulse {c : RawCfg} {v : Byte} {p : PinId} {l : Level} (h : Event.wr p l ∈ pulse c v) :
    p = c.pinE ∨ p ∈ c.pinD := by
  simp only [pulse, assertLines, List.cons_append, List.mem_cons, List.mem_append, Event.wr.injEq, reduceCtorEq,
    List.not_mem_nil, false_or, or_false] at h
  rcases h with ⟨rfl, -⟩ | h | ⟨rfl, -⟩
  · exact .inl rfl
  · exact .inr (mem_assertFrom h)
  · exact .inl rfl

/-- A transfer writes RS, E and the data lines only (R23). -/
theorem mem_send {c : RawCfg} {rs : Level} {b : Byte} {p : PinId} {l : Level} (h : Event.wr p l ∈ send c rs b) :
    p = c.pinRS ∨ p = c.pinE ∨ p ∈ c.pinD := by
  simp only [send, List.mem_cons, Event.wr.injEq] at h
  rcases h with ⟨rfl, -⟩ | h
  · exact .inl rfl
  · right
    cases hw : c.busWidth with
    | full => rw [hw] at h; exact mem_pulse h
    | half =>
      rw [hw] at h
      rcases List.mem_append.1 h with h | h <;> exact mem_pulse h

/-- The same with the completion wait (R91). -/
theorem mem_issueByte {c : RawCfg} {b : Byte} {post : Option Nat} {p : PinId} {l : Level}
    (h : Event.wr p l ∈ issueByte c b post) : p = c.pinRS ∨ p = c.pinE ∨ p ∈ c.pinD := by
  rcases List.mem_append.1 h with h | h
  · exact mem_send h
  · simp at h

theorem send_ne_nil (c : RawCfg) (rs : Level) (b : Byte) : send c rs b ≠ [] := by simp [send]

theorem issueByte_ne_nil (c : RawCfg) (b : Byte) (post : Option Nat) : issueByte c b post ≠ [] := by
  simp [issueByte, send]

/-- RS, E and the data lines are pins of PinAssignment. -/
theorem busPin_mem {c : RawCfg} {p : PinId} (h : p = c.pinRS ∨ p = c.pinE ∨ p ∈ c.pinD) : p ∈ c.pinIds := by
  simp only [RawCfg.pinIds, List.mem_append, List.mem_cons, List.not_mem_nil, or_false]
  rcases h with rfl | rfl | h
  · exact .inl (.inr (.inl rfl))
  · exact .inl (.inr (.inr (.inr rfl)))
  · exact .inl (.inl h)

end Sys2Proof.Machine
end

