-- ==== Sys2Proof/Laws/Bus.lean ====
section
/-!
SUPPORT. The shape of a valid configuration's pins, and what the events of a pulse and of a transfer leave behind
(41_bus_transfer.md R110 to R121).
-/

namespace Sys2Proof.Machine

/-! ## The pins of a valid configuration (R9) -/

theorem Cfg.nodup (c : Cfg) : c.raw.pinIds.Nodup := by
  have h := c.ok.1
  simp only [RawCfg.cfgOk, Bool.and_eq_true, decide_eq_true_eq] at h
  exact h.1.2

theorem Cfg.pinD_length (c : Cfg) : c.raw.pinD.length = c.raw.busWidth.lineCount := by
  have h := c.ok.1
  simp only [RawCfg.cfgOk, Bool.and_eq_true, beq_iff_eq] at h
  exact h.1.1.1

theorem Cfg.lines_eq (c : Cfg) : c.raw.lines = 1 ∨ c.raw.lines = 2 := by
  have h := c.ok.1
  simp only [RawCfg.cfgOk, Bool.and_eq_true, Bool.or_eq_true, beq_iff_eq] at h
  exact h.1.1.2

theorem Cfg.initRow_lt (c : Cfg) : c.raw.initRow < c.raw.rowCount := by
  have h := c.ok.1
  simp only [RawCfg.cfgOk, Bool.and_eq_true, decide_eq_true_eq] at h
  exact h.2

theorem Cfg.rowAddr_length (c : Cfg) : c.raw.rowAddr.length = c.raw.rowCount := by
  have h := c.ok.2
  simp only [RawCfg.hostOk, Bool.and_eq_true, beq_iff_eq] at h
  exact h.1.1

theorem Cfg.rowCapacity_pos (c : Cfg) : 1 ≤ c.raw.rowCapacity := by
  have h := c.ok.2
  simp only [RawCfg.hostOk, Bool.and_eq_true, decide_eq_true_eq] at h
  exact h.2

/-- A Full block has eight data lines. -/
theorem Cfg.pinD_full (c : Cfg) (h : c.raw.busWidth = .full) :
    ∃ d0 d1 d2 d3 d4 d5 d6 d7, c.raw.pinD = [d0, d1, d2, d3, d4, d5, d6, d7] := by
  have hl := Cfg.pinD_length c
  rw [h] at hl
  match hd : c.raw.pinD, hl with
  | [d0, d1, d2, d3, d4, d5, d6, d7], _ => exact ⟨d0, d1, d2, d3, d4, d5, d6, d7, rfl⟩

/-- A Half block has four data lines. -/
theorem Cfg.pinD_half (c : Cfg) (h : c.raw.busWidth = .half) : ∃ d0 d1 d2 d3, c.raw.pinD = [d0, d1, d2, d3] := by
  have hl := Cfg.pinD_length c
  rw [h] at hl
  match hd : c.raw.pinD, hl with
  | [d0, d1, d2, d3], _ => exact ⟨d0, d1, d2, d3, rfl⟩

/-- The roles of a valid configuration are on different pins (R9, D21). -/
theorem Cfg.distinct (c : Cfg) :
    c.raw.pinRS ≠ c.raw.pinRW ∧ c.raw.pinRS ≠ c.raw.pinE ∧ c.raw.pinRW ≠ c.raw.pinE
      ∧ c.raw.pinRS ∉ c.raw.pinD ∧ c.raw.pinRW ∉ c.raw.pinD ∧ c.raw.pinE ∉ c.raw.pinD ∧ c.raw.pinD.Nodup
      ∧ ∀ p, c.raw.pinDbg = some p → p ≠ c.raw.pinRS ∧ p ≠ c.raw.pinRW ∧ p ≠ c.raw.pinE ∧ p ∉ c.raw.pinD := by
  have h := Cfg.nodup c
  simp only [RawCfg.pinIds, List.nodup_append, List.nodup_cons, List.mem_cons, List.mem_append, not_or,
    List.not_mem_nil, or_false, not_false_eq_true, List.nodup_nil, and_true, ne_eq, Option.mem_toList] at h
  obtain ⟨⟨hd, ⟨⟨h1, h2⟩, h3⟩, hx⟩, -, hg⟩ := h
  refine ⟨h1, h2, h3, fun hm => hx _ hm _ (.inl rfl) rfl, fun hm => hx _ hm _ (.inr (.inl rfl)) rfl,
    fun hm => hx _ hm _ (.inr (.inr rfl)) rfl, hd, fun p hp => ?_⟩
  exact ⟨fun e => hg _ (.inr (.inl rfl)) p hp e.symm, fun e => hg _ (.inr (.inr (.inl rfl))) p hp e.symm,
    fun e => hg _ (.inr (.inr (.inr rfl))) p hp e.symm, fun hm => hg p (.inl hm) p hp rfl⟩

/-! ## Pins after events -/

/-- The pins after events, read one by one. -/
theorem latchIn_foldl_snoc (es : List Event) (e : Event) (cs : List PinCell) (q : PinId) :
    latchIn q ((es ++ [e]).foldl (fun cs e => e.onPins cs) cs)
      = latchIn q (e.onPins (es.foldl (fun cs e => e.onPins cs) cs)) := by
  rw [List.foldl_append]
  rfl

/-- A pin that no event of a list writes keeps its latch (R21). -/
theorem latchIn_foldl_of_not_written (es : List Event) (cs : List PinCell) (q : PinId)
    (h : ∀ v, Event.wr q v ∉ es) : latchIn q (es.foldl (fun cs e => e.onPins cs) cs) = latchIn q cs := by
  induction es generalizing cs with
  | nil => rfl
  | cons e es ih =>
    rw [List.foldl_cons, ih _ fun v hv => h v (List.mem_cons_of_mem _ hv)]
    cases e with
    | cfg p => exact latchIn_setOutput q p cs
    | wait d => rfl
    | wr p v =>
      rw [Event.onPins, latchIn_setLatch, if_neg]
      rintro ⟨rfl, -⟩
      exact h v (by simp)

/-- Events keep the identifiers of the pin file. -/
@[simp] theorem foldl_onPins_ids (es : List Event) (cs : List PinCell) :
    idsOf (es.foldl (fun cs e => e.onPins cs) cs) = idsOf cs := by
  induction es generalizing cs with
  | nil => rfl
  | cons e es ih => rw [List.foldl_cons, ih, onPins_ids]

/-! ## The data lines -/

/-- The writes of R117, one for each line. -/
theorem assertFrom_eq (v : Byte) (k : Nat) (ps : List PinId) :
    assertFrom v k ps = (ps.zipIdx k).map fun x => Event.wr x.1 (v.getLsbD x.2) := by
  induction ps generalizing k with
  | nil => rfl
  | cons p ps ih => simp only [assertFrom, List.zipIdx_cons, List.map_cons, ih]

theorem hi_getLsbD (b : Byte) (i : Nat) (h : i < 4) : (hi b).getLsbD i = b.getLsbD (4 + i) := by
  revert b
  match i, h with
  | 0, _ => decide
  | 1, _ => decide
  | 2, _ => decide
  | 3, _ => decide

theorem lo_getLsbD (b : Byte) (i : Nat) (h : i < 4) : (lo b).getLsbD i = b.getLsbD i := by
  revert b
  match i, h with
  | 0, _ => decide
  | 1, _ => decide
  | 2, _ => decide
  | 3, _ => decide

end Sys2Proof.Machine
end

