-- ==== Sys2Proof/Laws/Watch.lean ====
section
/-!
SUPPORT. What the latch observer sees of stamped events: one event, the data lines, one pulse, one transfer
(41_bus_transfer.md R110 to R122).
-/

namespace Sys2Proof.Machine

/-! ## Stamps -/

theorem endTime_append (k now : Nat) (es fs : List Event) :
    endTime k now (es ++ fs) = endTime (k + es.length) (endTime k now es) fs := by
  induction es generalizing k now with
  | nil => rfl
  | cons e es ih => simp only [List.cons_append, endTime, ih, List.length_cons, Nat.add_comm, Nat.add_left_comm]

theorem stamps_append (k now : Nat) (es fs : List Event) :
    stamps k now (es ++ fs) = stamps k now es ++ stamps (k + es.length) (endTime k now es) fs := by
  induction es generalizing k now with
  | nil => rfl
  | cons e es ih => simp only [List.cons_append, stamps, ih, List.length_cons, endTime, Nat.add_comm, Nat.add_left_comm]

/-- The clock never goes back (R28). -/
theorem le_endTime (k now : Nat) (es : List Event) : now ≤ endTime k now es := by
  induction es generalizing k now with
  | nil => exact Nat.le_refl _
  | cons e es ih => exact Nat.le_trans (by omega) (ih _ _)

/-- The events of a stamped list. -/
@[simp] theorem stamps_events (k now : Nat) (es : List Event) : (stamps k now es).map (·.1) = es := by
  induction es generalizing k now with
  | nil => rfl
  | cons e es ih => simp [stamps, ih]

/-- Every event has its stamp. -/
@[simp] theorem stamps_length (k now : Nat) (es : List Event) : (stamps k now es).length = es.length := by
  rw [← List.length_map (f := (·.1)), stamps_events]

/-! ## One event -/

/-- The observer goes on over the stamped events `es`, the first of which starts at `now`. -/
def Watch.over (c : RawCfg) (w : Watch) (k now : Nat) (es : List Event) : Watch :=
  (stamps k now es).foldl (Watch.see c) w

theorem Watch.over_append (c : RawCfg) (w : Watch) (k now : Nat) (es fs : List Event) :
    w.over c k now (es ++ fs) = (w.over c k now es).over c (k + es.length) (endTime k now es) fs := by
  simp only [Watch.over, stamps_append, List.foldl_append]

theorem Watch.over_cons (c : RawCfg) (w : Watch) (k now : Nat) (e : Event) (es : List Event) :
    w.over c k now (e :: es)
      = (w.see c (e, now + e.minTime + Config.draw k)).over c (k + 1) (now + e.minTime + Config.draw k) es := rfl

theorem Watch.over_nil (c : RawCfg) (w : Watch) (k now : Nat) : w.over c k now [] = w := rfl

/-- The trace after events is watched by going on over them. -/
theorem watch_after (s : State) (es : List Event) :
    watch s.cfg.raw (s.after es).trace = (watch s.cfg.raw s.trace).over s.cfg.raw s.draws s.now es := by
  simp only [watch, after_trace, List.foldl_append, Watch.over]

/-- The observer's pins are what the events leave (R21, R27). -/
theorem see_pins (c : RawCfg) (w : Watch) (e : Event) (t : Nat) : ∃ cs, (w.see c (e, t)).pins = cs
    ∧ ∀ q, latchIn q cs = latchIn q (e.onPins w.pins) := by
  cases e with
  | cfg p => exact ⟨_, rfl, fun q => (latchIn_setOutput q p w.pins).symm⟩
  | wait d => exact ⟨_, rfl, fun q => rfl⟩
  | wr p v =>
    refine ⟨_, rfl, fun q => ?_⟩
    simp only [Watch.see, Event.onPins]
    split_ifs <;> rfl

/-- The observer keeps the identifiers of its pin file. -/
theorem see_ids (c : RawCfg) (w : Watch) (e : Event) (t : Nat) : idsOf (w.see c (e, t)).pins = idsOf w.pins := by
  cases e with
  | cfg p => rfl
  | wait d => rfl
  | wr p v =>
    have h : (w.see c (.wr p v, t)).pins = setLatch p v w.pins := by
      simp only [Watch.see]
      split_ifs <;> rfl
    rw [h, setLatch_ids]

theorem foldl_see_ids (c : RawCfg) (tr : List (Event × Nat)) (w : Watch) :
    idsOf (tr.foldl (Watch.see c) w).pins = idsOf w.pins := by
  induction tr generalizing w with
  | nil => rfl
  | cons e tr ih => rw [List.foldl_cons, ih]; exact see_ids c w e.1 e.2

/-- The observer's pin file has the pins of PinAssignment. -/
@[simp] theorem watch_ids (c : RawCfg) (tr : List (Event × Nat)) : idsOf (watch c tr).pins = c.pinIds := by
  rw [watch, foldl_see_ids]
  simp [Watch.start, idsOf, Function.comp_def]

/-- A write of E to 1 while it is not high is a rise. -/
theorem see_rise {c : RawCfg} {w : Watch} (h : latchIn c.pinE w.pins ≠ .level true) (t : Nat) :
    w.see c (.wr c.pinE true, t) = ({ w with pins := setLatch c.pinE true w.pins } : Watch).rise c t := by
  simp [Watch.see, h]

/-- A write of E to 0 while it is high is a fall. -/
theorem see_fall {c : RawCfg} {w : Watch} (h : latchIn c.pinE w.pins = .level true) (t : Nat) :
    w.see c (.wr c.pinE false, t) = ({ w with pins := setLatch c.pinE false w.pins } : Watch).fall c t := by
  simp [Watch.see, h]

/-- A write of a data line moves `dataAt` alone. -/
theorem see_data {c : RawCfg} {w : Watch} {p : PinId} (h1 : p ≠ c.pinE) (h2 : p ≠ c.pinRS) (h3 : p ∈ c.pinD) (v : Level)
    (t : Nat) : w.see c (.wr p v, t) = { w with pins := setLatch p v w.pins, dataAt := t } := by
  simp [Watch.see, h1, h2, h3]

/-- A write of RS. -/
theorem see_select {c : RawCfg} {w : Watch} (h : c.pinRS ≠ c.pinE) (v : Level) (t : Nat) :
    w.see c (.wr c.pinRS v, t)
      = ({ w with pins := setLatch c.pinRS v w.pins } : Watch).select c (latchIn c.pinE w.pins) t := by
  simp [Watch.see, h]

/-- The observer ignores time. -/
theorem see_wait (c : RawCfg) (w : Watch) (d t : Nat) : w.see c (.wait d, t) = w := rfl

/-- What is written to other pins than RS, E and the data lines moves nothing the observer keeps but those pins (R120). -/
theorem foldl_see_other (c : RawCfg) (w : Watch) (new : List (Event × Nat))
    (h : ∀ x ∈ new, ∀ p l, x.1 = .wr p l → p ≠ c.pinRS ∧ p ≠ c.pinE ∧ p ∉ c.pinD) :
    (new.foldl (Watch.see c) w).pulses = w.pulses ∧ (new.foldl (Watch.see c) w).clearFall = w.clearFall
      ∧ (new.foldl (Watch.see c) w).hazard = w.hazard
      ∧ latchIn c.pinE (new.foldl (Watch.see c) w).pins = latchIn c.pinE w.pins := by
  induction new generalizing w with
  | nil => exact ⟨rfl, rfl, rfl, rfl⟩
  | cons x new ih =>
    obtain ⟨h1, h2, h3, h4⟩ := ih (w.see c x) (fun y hy => h y (List.mem_cons_of_mem _ hy))
    rw [List.foldl_cons, h1, h2, h3, h4]
    obtain ⟨e, t⟩ := x
    cases e with
    | cfg p => exact ⟨rfl, rfl, rfl, rfl⟩
    | wait d => exact ⟨rfl, rfl, rfl, rfl⟩
    | wr p v =>
      obtain ⟨hrs, he, hd⟩ := h (.wr p v, t) List.mem_cons_self p v rfl
      simp only [Watch.see, if_neg hrs, if_neg he, if_neg hd]
      exact ⟨trivial, trivial, trivial, by rw [latchIn_setLatch, if_neg fun hh => he hh.1.symm]⟩

/-! ## The data lines and one pulse -/

/-- The pins after the data lines have been asserted (R117). -/
def assertPins (v : Byte) (i : Nat) (ps : List PinId) (cs : List PinCell) : List PinCell :=
  (assertFrom v i ps).foldl (fun cs e => e.onPins cs) cs

/-- Asserting the data lines moves their latches and `dataAt` alone (R117). -/
theorem over_assert (c : Cfg) (v : Byte) (ps : List PinId) (hps : ∀ p ∈ ps, p ∈ c.raw.pinD) (hne : ps ≠ []) (i : Nat)
    (w : Watch) (k now : Nat) :
    w.over c.raw k now (assertFrom v i ps)
      = { w with pins := assertPins v i ps w.pins, dataAt := endTime k now (assertFrom v i ps) } := by
  induction ps generalizing i w k now with
  | nil => exact absurd rfl hne
  | cons p ps ih =>
    have hp := hps p (by simp)
    have hd := Cfg.distinct c
    have h1 : p ≠ c.raw.pinE := fun e => hd.2.2.2.2.2.1 (e ▸ hp)
    have h2 : p ≠ c.raw.pinRS := fun e => hd.2.2.2.1 (e ▸ hp)
    rw [assertFrom, Watch.over_cons, see_data h1 h2 hp]
    cases ps with
    | nil => rfl
    | cons q qs => rw [ih (fun q hq => hps q (List.mem_cons_of_mem _ hq)) (by simp)]; rfl

/-- A data line after it has been asserted; every other pin is as before (R117). -/
theorem latchIn_assertPins (v : Byte) (ps : List PinId) (i : Nat) (cs : List PinCell) (hn : ps.Nodup)
    (hm : ∀ p ∈ ps, p ∈ idsOf cs) :
    (∀ j p, ps[j]? = some p → latchIn p (assertPins v i ps cs) = .level (v.getLsbD (i + j)))
      ∧ ∀ q, q ∉ ps → latchIn q (assertPins v i ps cs) = latchIn q cs := by
  induction ps generalizing i cs with
  | nil => exact ⟨by simp, fun q _ => rfl⟩
  | cons p ps ih =>
    have hn' := List.nodup_cons.1 hn
    have hc : ∀ q ∈ ps, q ∈ idsOf (setLatch p (v.getLsbD i) cs) := by
      intro q hq
      rw [setLatch_ids]
      exact hm q (by simp [hq])
    obtain ⟨h1, h2⟩ := ih (i + 1) (setLatch p (v.getLsbD i) cs) hn'.2 hc
    have hun : assertPins v i (p :: ps) cs = assertPins v (i + 1) ps (setLatch p (v.getLsbD i) cs) := rfl
    rw [hun]
    constructor
    · intro j q hq
      cases j with
      | zero =>
        obtain rfl : p = q := by simpa using hq
        rw [h2 p hn'.1, latchIn_setLatch, if_pos ⟨rfl, hm p (by simp)⟩, Nat.add_zero]
      | succ j =>
        have := h1 j q (by simpa using hq)
        rwa [Nat.add_assoc, Nat.add_comm 1 j] at this
    · intro q hq
      simp only [List.mem_cons, not_or] at hq
      rw [h2 q hq.2, latchIn_setLatch, if_neg fun h => hq.1 h.1]

/-- The word a pulse commits when RS and RW are as in `cs` and its lines get the bits of `v` (R120). -/
def pulseWord (c : RawCfg) (v : Byte) (cs : List PinCell) : LatchedWord :=
  ⟨latchIn c.pinRS cs, latchIn c.pinRW cs, (List.range c.pinD.length).reverse.map fun i => .level (v.getLsbD i)⟩

/-- The pins after a pulse. -/
def pulsePins (c : RawCfg) (v : Byte) (cs : List PinCell) : List PinCell :=
  setLatch c.pinE false (assertPins v 0 c.pinD (setLatch c.pinE true cs))

/-- What a pulse leaves on the pins (R110): E low, the value on the data lines, every other pin as before. -/
theorem latchIn_pulsePins (c : Cfg) (v : Byte) (cs : List PinCell) (hids : ∀ p ∈ c.raw.pinIds, p ∈ idsOf cs) :
    latchIn c.raw.pinE (pulsePins c.raw v cs) = .level false
      ∧ (∀ j p, c.raw.pinD[j]? = some p → latchIn p (pulsePins c.raw v cs) = .level (v.getLsbD j))
      ∧ ∀ q, q ≠ c.raw.pinE → q ∉ c.raw.pinD → latchIn q (pulsePins c.raw v cs) = latchIn q cs := by
  have hd := Cfg.distinct c
  have hE : c.raw.pinE ∈ idsOf cs := hids _ (busPin_mem (.inr (.inl rfl)))
  have hD : ∀ p ∈ c.raw.pinD, p ∈ idsOf (setLatch c.raw.pinE true cs) := fun p hp => by
    rw [setLatch_ids]; exact hids p (busPin_mem (.inr (.inr hp)))
  obtain ⟨h1, h2⟩ := latchIn_assertPins v c.raw.pinD 0 (setLatch c.raw.pinE true cs) hd.2.2.2.2.2.2.1 hD
  have hE' : c.raw.pinE ∈ idsOf (assertPins v 0 c.raw.pinD (setLatch c.raw.pinE true cs)) := by
    rw [assertPins, foldl_onPins_ids, setLatch_ids]; exact hE
  refine ⟨?_, fun j p hp => ?_, fun q hq hq' => ?_⟩
  · rw [pulsePins, latchIn_setLatch, if_pos ⟨rfl, hE'⟩]
  · have hp' : p ∈ c.raw.pinD := List.mem_of_getElem? hp
    have hne : p ≠ c.raw.pinE := fun e => hd.2.2.2.2.2.1 (e ▸ hp')
    rw [pulsePins, latchIn_setLatch, if_neg fun h => hne h.1, h1 j p hp, Nat.zero_add]
  · rw [pulsePins, latchIn_setLatch, if_neg fun h => hq h.1, h2 q hq', latchIn_setLatch, if_neg fun h => hq h.1]

theorem pulse_onPins (c : RawCfg) (v : Byte) (cs : List PinCell) :
    (pulse c v).foldl (fun cs e => e.onPins cs) cs = pulsePins c v cs := by
  simp only [pulse, assertLines, List.cons_append, List.foldl_cons, List.foldl_append, List.foldl_nil, Event.onPins]
  rfl

/-- The observer over one pulse (R110, R120): one more pulse, wide enough and with its settling time (R122), and the completion
bound checked at its rise (R192). -/
theorem over_pulse (c : Cfg) (v : Byte) (w : Watch) (k now : Nat) (hids : idsOf w.pins = c.raw.pinIds)
    (hE : latchIn c.raw.pinE w.pins ≠ .level true) :
    ∃ p : Pulse, now ≤ p.riseAt ∧ p.riseAt + c.raw.tPw ≤ p.fallAt ∧ p.dataAt + c.raw.tPw ≤ p.fallAt
      ∧ p.fallAt + c.raw.tSettle ≤ endTime k now (pulse c.raw v)
      ∧ p.word = pulseWord c.raw v w.pins
      ∧ w.over c.raw k now (pulse c.raw v) =
        { pins := pulsePins c.raw v w.pins
          riseAt := p.riseAt
          dataAt := p.dataAt
          pulses := p :: w.pulses
          rsMoved := w.rsMoved
          clearFall := if isClearOrHome (completedByte c.raw (p :: w.pulses)) then some p.fallAt else none
          hazard := w.hazard || (match w.clearFall with
            | some f => decide (p.riseAt < f + c.raw.tClear)
            | none => false) } := by
  have hd := Cfg.distinct c
  have hne : c.raw.pinD ≠ [] := by
    intro e
    have := Cfg.pinD_length c
    rw [e] at this
    cases hw : c.raw.busWidth <;> simp [hw, BusWidth.lineCount] at this
  have hmem : ∀ p ∈ c.raw.pinIds, p ∈ idsOf w.pins := fun p hp => hids ▸ hp
  obtain ⟨t1, ht1⟩ : ∃ t, t = now + Config.draw k := ⟨_, rfl⟩
  obtain ⟨t2, ht2⟩ : ∃ t, t = endTime (k + 1) t1 (assertLines c.raw v) := ⟨_, rfl⟩
  obtain ⟨k2, hk2⟩ : ∃ n, n = k + 1 + (assertLines c.raw v).length := ⟨_, rfl⟩
  obtain ⟨t3, ht3⟩ : ∃ t, t = t2 + c.raw.tPw + Config.draw k2 + Config.draw (k2 + 1) := ⟨_, rfl⟩
  have hle : t1 ≤ t2 := by rw [ht2]; exact le_endTime _ _ _
  have hend : endTime k now (pulse c.raw v) = t3 + c.raw.tSettle + Config.draw (k2 + 2) := by
    rw [pulse, List.cons_append, endTime, endTime_append]
    have e1 : now + (Event.wr c.raw.pinE true).minTime + Config.draw k = t1 := by rw [ht1]; rfl
    rw [e1, ← ht2, ← hk2]
    simp only [endTime, Event.minTime, Nat.add_zero, ht3, Nat.add_assoc]
  have hEa : latchIn c.raw.pinE (assertPins v 0 c.raw.pinD (setLatch c.raw.pinE true w.pins)) = .level true := by
    have hD : ∀ p ∈ c.raw.pinD, p ∈ idsOf (setLatch c.raw.pinE true w.pins) := fun p hp => by
      rw [setLatch_ids]; exact hmem p (busPin_mem (.inr (.inr hp)))
    rw [(latchIn_assertPins v c.raw.pinD 0 _ hd.2.2.2.2.2.2.1 hD).2 _ hd.2.2.2.2.2.1, latchIn_setLatch,
      if_pos ⟨rfl, hmem _ (busPin_mem (.inr (.inl rfl)))⟩]
  have hsample : sample c.raw (pulsePins c.raw v w.pins) = pulseWord c.raw v w.pins := by
    obtain ⟨-, l2, l3⟩ := latchIn_pulsePins c v w.pins hmem
    have hD : c.raw.pinD.reverse.map (fun p => latchIn p (pulsePins c.raw v w.pins))
        = (List.range c.raw.pinD.length).reverse.map fun i => .level (v.getLsbD i) := by
      rw [List.map_reverse, List.map_reverse]
      congr 1
      apply List.ext_getElem?
      intro j
      simp only [List.getElem?_map]
      cases hj : c.raw.pinD[j]? with
      | none =>
        have : c.raw.pinD.length ≤ j := by simpa using hj
        simp [this]
      | some p =>
        have : j < c.raw.pinD.length := by
          by_contra h
          simp [List.getElem?_eq_none (Nat.le_of_not_lt h)] at hj
        simp [this, l2 j p hj]
    rw [sample, pulseWord, l3 _ hd.2.1 hd.2.2.2.1, l3 _ hd.2.2.1 hd.2.2.2.2.1, hD]
  refine ⟨⟨t1, t3, t2, sample c.raw (pulsePins c.raw v w.pins)⟩, by simp only [ht1]; omega, by simp only [ht3]; omega,
    by simp only [ht3]; omega, by simp only [hend]; omega, hsample, ?_⟩
  have e1 : now + (Event.wr c.raw.pinE true).minTime + Config.draw k = t1 := by rw [ht1]; rfl
  rw [pulse, List.cons_append, Watch.over_cons, see_rise hE, e1, Watch.over_append]
  have e2 : ∀ w' : Watch, w'.over c.raw (k + 1) t1 (assertLines c.raw v)
      = { w' with pins := assertPins v 0 c.raw.pinD w'.pins, dataAt := t2 } := fun w' => by
    rw [ht2]
    exact over_assert c v c.raw.pinD (fun _ h => h) hne 0 w' (k + 1) t1
  rw [e2, ← ht2, ← hk2, Watch.over_cons, see_wait, Watch.over_cons, see_fall hEa, Watch.over_cons, see_wait,
    Watch.over_nil]
  have e3 : t2 + (Event.wait c.raw.tPw).minTime + Config.draw k2 + (Event.wr c.raw.pinE false).minTime + Config.draw (k2 + 1)
      = t3 := by
    rw [ht3]; rfl
  rw [e3]
  rfl

/-! ## One transfer -/

@[simp] theorem pulsePins_ids (c : RawCfg) (v : Byte) (cs : List PinCell) : idsOf (pulsePins c v cs) = idsOf cs := by
  simp only [pulsePins, assertPins, setLatch_ids, foldl_onPins_ids]

/-- The pins after a transfer (R112). -/
def sendPins (c : RawCfg) (rs : Level) (b : Byte) (cs : List PinCell) : List PinCell :=
  match c.busWidth with
  | .full => pulsePins c b (setLatch c.pinRS rs cs)
  | .half => pulsePins c (lo b) (pulsePins c (hi b) (setLatch c.pinRS rs cs))

@[simp] theorem sendPins_ids (c : RawCfg) (rs : Level) (b : Byte) (cs : List PinCell) :
    idsOf (sendPins c rs b cs) = idsOf cs := by
  cases hw : c.busWidth <;> simp only [sendPins, hw, pulsePins_ids, setLatch_ids]

theorem send_onPins (c : RawCfg) (rs : Level) (b : Byte) (cs : List PinCell) :
    (send c rs b).foldl (fun cs e => e.onPins cs) cs = sendPins c rs b cs := by
  cases hw : c.busWidth <;> simp only [send, sendPins, hw, List.foldl_cons, List.foldl_append] <;> rw [pulse_onPins]
  · rw [pulse_onPins]; rfl
  · rfl

/-- The pins of a transfer, read one by one (R119, R23). -/
theorem latchIn_sendPins (c : Cfg) (rs : Level) (b : Byte) (cs : List PinCell)
    (hids : ∀ p ∈ c.raw.pinIds, p ∈ idsOf cs) :
    latchIn c.raw.pinRS (sendPins c.raw rs b cs) = .level rs
      ∧ latchIn c.raw.pinE (sendPins c.raw rs b cs) = .level false
      ∧ (∀ j p, c.raw.pinD[j]? = some p → latchIn p (sendPins c.raw rs b cs) = .level (b.getLsbD j))
      ∧ ∀ q, q ≠ c.raw.pinRS → q ≠ c.raw.pinE → q ∉ c.raw.pinD →
          latchIn q (sendPins c.raw rs b cs) = latchIn q cs := by
  have hd := Cfg.distinct c
  have h1 : ∀ p ∈ c.raw.pinIds, p ∈ idsOf (setLatch c.raw.pinRS rs cs) := fun p hp => by
    rw [setLatch_ids]; exact hids p hp
  have hrs := latchIn_setLatch c.raw.pinRS c.raw.pinRS rs cs
  rw [if_pos ⟨rfl, hids _ (busPin_mem (.inl rfl))⟩] at hrs
  cases hw : c.raw.busWidth with
  | full =>
    obtain ⟨l1, l2, l3⟩ := latchIn_pulsePins c b _ h1
    simp only [sendPins, hw]
    refine ⟨by rw [l3 _ hd.2.1 hd.2.2.2.1, hrs], l1, l2, fun q hq hq' hq'' => ?_⟩
    rw [l3 _ hq' hq'', latchIn_setLatch, if_neg fun h => hq h.1]
  | half =>
    obtain ⟨-, -, l3⟩ := latchIn_pulsePins c (hi b) _ h1
    have h2 : ∀ p ∈ c.raw.pinIds, p ∈ idsOf (pulsePins c.raw (hi b) (setLatch c.raw.pinRS rs cs)) := fun p hp => by
      rw [pulsePins_ids]; exact h1 p hp
    obtain ⟨m1, m2, m3⟩ := latchIn_pulsePins c (lo b) _ h2
    simp only [sendPins, hw]
    refine ⟨by rw [m3 _ hd.2.1 hd.2.2.2.1, l3 _ hd.2.1 hd.2.2.2.1, hrs], m1, fun j p hp => ?_, fun q hq hq' hq'' => ?_⟩
    · have hj : j < 4 := by
        have hl := Cfg.pinD_length c
        rw [hw] at hl
        by_contra hj
        rw [List.getElem?_eq_none (by rw [hl]; exact Nat.le_of_not_lt hj)] at hp
        cases hp
      rw [m2 j p hp, lo_getLsbD b j hj]
    · rw [m3 _ hq' hq'', l3 _ hq' hq'', latchIn_setLatch, if_neg fun h => hq h.1]

/-- The completion flag after a rise at `t` (R192). -/
def Watch.flagAt (c : RawCfg) (w : Watch) (t : Nat) : Bool :=
  w.hazard || (match w.clearFall with
    | some f => decide (t < f + c.tClear)
    | none => false)

/-- The observer's clear-or-home mark after the pulses `ps`, the newest of which fell at `t` (R192). -/
def markAt (c : RawCfg) (ps : List Pulse) (t : Nat) : Option Nat :=
  if isClearOrHome (completedByte c ps) then some t else none

/-- The observer over the write of RS: no pulse, and RS on its pins. -/
theorem over_select (c : Cfg) (rs : Level) (w : Watch) (k now : Nat) (hids : idsOf w.pins = c.raw.pinIds) :
    ∃ w' : Watch, w.over c.raw k now [.wr c.raw.pinRS rs] = w' ∧ w'.pins = setLatch c.raw.pinRS rs w.pins
      ∧ latchIn c.raw.pinRS w'.pins = .level rs ∧ latchIn c.raw.pinRW w'.pins = latchIn c.raw.pinRW w.pins
      ∧ latchIn c.raw.pinE w'.pins = latchIn c.raw.pinE w.pins
      ∧ w'.pulses = w.pulses ∧ w'.clearFall = w.clearFall ∧ w'.hazard = w.hazard := by
  have hd := Cfg.distinct c
  have hm : c.raw.pinRS ∈ idsOf w.pins := hids ▸ busPin_mem (.inl rfl)
  refine ⟨_, rfl, ?_⟩
  rw [Watch.over_cons, Watch.over_nil, see_select hd.2.1]
  simp only [Watch.select]
  refine ⟨trivial, ?_, ?_, ?_, trivial, trivial, trivial⟩
  · rw [latchIn_setLatch, if_pos ⟨rfl, hm⟩]
  · rw [latchIn_setLatch, if_neg fun h => hd.1 h.1.symm]
  · rw [latchIn_setLatch, if_neg fun h => hd.2.1 h.1.symm]

/-- The observer over a transfer of a Full block (R112, R121): one more pulse, with the byte on the lines. -/
theorem over_send_full (c : Cfg) (hw : c.raw.busWidth = .full) (rs : Level) (b : Byte) (w : Watch) (k now : Nat)
    (hids : idsOf w.pins = c.raw.pinIds) (hE : latchIn c.raw.pinE w.pins ≠ .level true) :
    ∃ (p : Pulse) (w' : Watch), w.over c.raw k now (send c.raw rs b) = w'
      ∧ now ≤ p.riseAt ∧ p.riseAt ≤ p.fallAt ∧ p.fallAt ≤ endTime k now (send c.raw rs b)
      ∧ p.word = ⟨.level rs, latchIn c.raw.pinRW w.pins, (List.range 8).reverse.map fun i => .level (b.getLsbD i)⟩
      ∧ w'.pins = sendPins c.raw rs b w.pins ∧ w'.pulses = p :: w.pulses
      ∧ w'.clearFall = markAt c.raw (p :: w.pulses) p.fallAt ∧ w'.hazard = w.flagAt c.raw p.riseAt := by
  obtain ⟨v, e1, e2, e3, e4, e5, e6, e7, e8⟩ := over_select c rs w k now hids
  obtain ⟨p, h1, h2, -, h4, h5, h6⟩ := over_pulse c b v (k + 1) (endTime k now [.wr c.raw.pinRS rs])
    (by rw [e2, setLatch_ids, hids]) (by rw [e5]; exact hE)
  have hs : send c.raw rs b = [.wr c.raw.pinRS rs] ++ pulse c.raw b := by simp [send, hw]
  have hend : endTime k now (send c.raw rs b) = endTime (k + 1) (endTime k now [.wr c.raw.pinRS rs]) (pulse c.raw b) := by
    rw [hs, endTime_append]; rfl
  refine ⟨p, _, rfl, Nat.le_trans (le_endTime _ _ _) h1, by omega, by rw [hend]; omega, ?_, ?_⟩
  · rw [h5, pulseWord, e3, e4, Cfg.pinD_length, hw]; rfl
  · have ho : w.over c.raw k now (send c.raw rs b)
        = v.over c.raw (k + 1) (endTime k now [.wr c.raw.pinRS rs]) (pulse c.raw b) := by
      rw [hs, Watch.over_append, e1]; rfl
    rw [ho, h6, e2, e6]
    simp only [sendPins, hw, markAt, Watch.flagAt, e7, e8, and_self]

/-- The observer over a transfer of a Half block (R112, R121): two more pulses, the high nibble first. -/
theorem over_send_half (c : Cfg) (hw : c.raw.busWidth = .half) (rs : Level) (b : Byte) (w : Watch) (k now : Nat)
    (hids : idsOf w.pins = c.raw.pinIds) (hE : latchIn c.raw.pinE w.pins ≠ .level true) :
    ∃ (p q : Pulse) (w' : Watch), w.over c.raw k now (send c.raw rs b) = w'
      ∧ now ≤ p.riseAt ∧ p.riseAt ≤ p.fallAt ∧ p.fallAt ≤ q.riseAt ∧ q.riseAt ≤ q.fallAt
      ∧ q.fallAt ≤ endTime k now (send c.raw rs b)
      ∧ p.word = ⟨.level rs, latchIn c.raw.pinRW w.pins, (List.range 4).reverse.map fun i => .level (b.getLsbD (4 + i))⟩
      ∧ q.word = ⟨.level rs, latchIn c.raw.pinRW w.pins, (List.range 4).reverse.map fun i => .level (b.getLsbD i)⟩
      ∧ w'.pins = sendPins c.raw rs b w.pins ∧ w'.pulses = q :: p :: w.pulses
      ∧ w'.clearFall = markAt c.raw (q :: p :: w.pulses) q.fallAt
      ∧ w'.hazard = (w.flagAt c.raw p.riseAt || (match markAt c.raw (p :: w.pulses) p.fallAt with
          | some f => decide (q.riseAt < f + c.raw.tClear)
          | none => false)) := by
  have hd := Cfg.distinct c
  obtain ⟨v, e1, e2, e3, e4, e5, e6, e7, e8⟩ := over_select c rs w k now hids
  have hv : idsOf v.pins = c.raw.pinIds := by rw [e2, setLatch_ids, hids]
  have hl := latchIn_pulsePins c (hi b) v.pins (fun p hp => hv ▸ hp)
  obtain ⟨p, h1, h2, -, h4, h5, h6⟩ := over_pulse c (hi b) v (k + 1) (endTime k now [.wr c.raw.pinRS rs]) hv
    (by rw [e5]; exact hE)
  obtain ⟨T, hT⟩ : ∃ T, T = endTime (k + 1) (endTime k now [.wr c.raw.pinRS rs]) (pulse c.raw (hi b)) := ⟨_, rfl⟩
  obtain ⟨K, hK⟩ : ∃ K, K = k + 1 + (pulse c.raw (hi b)).length := ⟨_, rfl⟩
  obtain ⟨q, g1, g2, -, g4, g5, g6⟩ := over_pulse c (lo b) (v.over c.raw (k + 1) (endTime k now [.wr c.raw.pinRS rs])
    (pulse c.raw (hi b))) K T (by rw [h6]; simp only [pulsePins_ids, hv]) (by rw [h6]; simp only [hl.1]; simp)
  have hs : send c.raw rs b = [.wr c.raw.pinRS rs] ++ (pulse c.raw (hi b) ++ pulse c.raw (lo b)) := by simp [send, hw]
  have hend : endTime k now (send c.raw rs b) = endTime K T (pulse c.raw (lo b)) := by
    rw [hs, endTime_append, endTime_append, hT, hK]; rfl
  have hlen : c.raw.pinD.length = 4 := by rw [Cfg.pinD_length, hw]; rfl
  refine ⟨p, q, _, rfl, Nat.le_trans (le_endTime _ _ _) h1, by omega, by omega, by omega, by rw [hend]; omega, ?_, ?_, ?_⟩
  · rw [h5, pulseWord, e3, e4, hlen]
    congr 1
    refine List.map_congr_left fun i hi' => ?_
    rw [hi_getLsbD b i (by simpa using hi')]
  · rw [g5, pulseWord, h6]
    simp only [hl.2.2 _ hd.2.1 hd.2.2.2.1, hl.2.2 _ hd.2.2.1 hd.2.2.2.2.1, e3, e4, hlen]
    congr 1
    refine List.map_congr_left fun i hi' => ?_
    rw [lo_getLsbD b i (by simpa using hi')]
  · have ho : w.over c.raw k now (send c.raw rs b)
        = (v.over c.raw (k + 1) (endTime k now [.wr c.raw.pinRS rs]) (pulse c.raw (hi b))).over c.raw K T
            (pulse c.raw (lo b)) := by
      rw [hs, Watch.over_append, e1, Watch.over_append, hT, hK]; rfl
    rw [ho, g6, h6, e2, e6]
    simp only [sendPins, hw, markAt, Watch.flagAt, e7, e8, and_self]

end Sys2Proof.Machine
end

