-- ==== Sys2Proof/Laws/Step.lean ====
section
/-!
SUPPORT. What a step can do, said once (10_state.md R25): each case of `step` with the state it leaves.
-/

namespace Sys2Proof.Machine

/-- Every meaning admits its command and runs the acts of it (R25). -/
theorem exec_eq (i : Instr) (s : State) : exec i s = runCommand i (actsOfInstr s.cfg.raw i) s := by cases i <;> rfl

/-- With nothing in flight: if a command answers a next state, the mode admitted it and its acts ran (R24). -/
theorem exec_eq_next {i : Instr} {s t : State} (hp : s.pending = []) (h : exec i s = .next t) :
    modeRefusal s.mode i = none ∧ runActs (actsOfInstr s.cfg.raw i) s = .next t := by
  rw [exec_eq] at h
  rcases runCommand_eq_next h with ⟨-, hm, hr⟩ | ⟨hne, -⟩
  · exact ⟨hm, hr⟩
  · exact absurd hp hne

/-- Everything serving a request can do when nothing is in flight: a command runs; a command is issued; the host's rows, queue
or deadline change; or one event is performed outside any command. -/
theorem serve_eq_next {r : Request} {s t : State} (hp : s.pending = []) (h : serve r s = .next t) :
    (∃ i, (r = .call i ∨ ∃ nbits w, r = .word nbits w ∧ decodeTableWord nbits w = some i)
        ∧ modeRefusal s.mode i = none ∧ runActs (actsOfInstr s.cfg.raw i) s = .next t)
      ∨ (∃ i, r = .issue i ∧ modeRefusal s.mode i = none ∧ t = { s with pending := actsOfInstr s.cfg.raw i })
      ∨ (∃ index text, r = .setLine index text ∧ t = setLine index text s)
      ∨ (∃ index, r = .displayLine index ∧ t = displayLine index s)
      ∨ (∃ content, r = .period content ∧ s.mode = .running ∧ t = { s with queue := periodRequests content ++ s.queue })
      ∨ (r = .toggleDebug ∧ s.cfg.raw.pinDbg = none ∧ t = s)
      ∨ (∃ p, r = .toggleDebug ∧ s.cfg.raw.pinDbg = some p ∧ s.dirOf p = .output
          ∧ t = s.afterEvent (.wr p (!levelOf s.draws (s.latchOf p))))
      ∨ (r = .deadlineWait ∧ t = deadlineWait s)
      ∨ (∃ d, r = .busyWait d ∧ t = s.afterEvent (.wait d)) := by
  cases r with
  | call i => exact .inl ⟨i, .inl rfl, exec_eq_next hp h⟩
  | word nbits w =>
    simp only [serve] at h
    split at h
    · rename_i i hi
      exact .inl ⟨i, .inr ⟨nbits, w, rfl, hi⟩, exec_eq_next hp h⟩
    · cases h
  | issue i =>
    simp only [serve, issue, hp, if_true] at h
    split at h
    · rename_i hm
      injection h with h
      exact .inr (.inl ⟨i, rfl, hm, h.symm⟩)
    · cases h
  | setLine index text => injection h with h; exact .inr (.inr (.inl ⟨index, text, rfl, h.symm⟩))
  | displayLine index => injection h with h; exact .inr (.inr (.inr (.inl ⟨index, rfl, h.symm⟩)))
  | period content =>
    simp only [serve, period] at h
    split at h
    · rename_i hm
      injection h with h
      exact .inr (.inr (.inr (.inr (.inl ⟨content, rfl, hm, h.symm⟩))))
    · cases h
  | toggleDebug =>
    simp only [serve, toggleDebug] at h
    split at h
    · rename_i hd
      injection h with h
      exact .inr (.inr (.inr (.inr (.inr (.inl ⟨rfl, hd, h.symm⟩)))))
    · rename_i p hd
      obtain ⟨ha, he⟩ := emit_eq_next.1 h
      exact .inr (.inr (.inr (.inr (.inr (.inr (.inl ⟨p, rfl, hd, ha p _ rfl, he⟩))))))
  | deadlineWait =>
    injection h with h
    exact .inr (.inr (.inr (.inr (.inr (.inr (.inr (.inl ⟨rfl, h.symm⟩)))))))
  | busyWait d =>
    injection h with h
    exact .inr (.inr (.inr (.inr (.inr (.inr (.inr (.inr ⟨d, rfl, h.symm⟩)))))))

/-- Everything a step can do: the first pending event, or the next request, or nothing (R25). -/
theorem step_eq_next {s t : State} (h : step s = .next t) :
    (∃ a rest, s.pending = a :: rest ∧ s.admitsEvent a.event
        ∧ t = ({ s with pending := rest } : State).afterAct a)
      ∨ (s.pending = [] ∧ s.queue = [] ∧ t = s)
      ∨ ∃ r rest, s.pending = [] ∧ s.queue = r :: rest ∧ serve r { s with queue := rest } = .next t := by
  simp only [step, advance] at h
  split at h
  · rename_i a rest hp
    simp only [tick, hp] at h
    obtain ⟨ha, he⟩ := perform_eq_next.1 h
    exact .inl ⟨a, rest, hp, ha, he⟩
  · rename_i hp
    split at h
    · rename_i hq
      injection h with h
      exact .inr (.inl ⟨hp, hq, h.symm⟩)
    · rename_i r rest hq
      exact .inr (.inr ⟨r, rest, hp, hq, h⟩)

/-! ## Several steps of the machine -/

/-- A step that answers a next state, and then the others. -/
theorem steps_of_step {n : Nat} {s t : State} (h : step s = .next t) : steps (n + 1) s = steps n t := by
  rw [steps, h, andThen_next]

/-- Several steps and then several more. -/
theorem steps_add (m n : Nat) (s : State) : steps (m + n) s = Result.andThen (steps m s) (steps n) := by
  induction m generalizing s with
  | zero => rw [Nat.zero_add]; rfl
  | succ m ih =>
    rw [Nat.succ_add, steps, steps]
    cases step s with
    | next t => exact ih t
    | fault f => rfl
    | refused q => rfl

/-- With events pending the steps of the machine are the small steps of R25. -/
theorem steps_eq_ticks (n : Nat) (s : State) (h : n ≤ s.pending.length) : steps n s = ticks n s := by
  induction n generalizing s with
  | zero => rfl
  | succ n ih =>
    cases hp : s.pending with
    | nil => simp [hp] at h
    | cons a rest =>
      have e : step s = tick s := by simp [step, advance, hp]
      rw [steps, e, ticks]
      cases ht : tick s with
      | next t =>
        have hl : t.pending = rest := by
          simp only [tick, hp] at ht
          obtain ⟨-, rfl⟩ := perform_eq_next.1 ht
          simp
        exact ih t (by rw [hl]; rw [hp] at h; simpa using h)
      | fault f => rfl
      | refused r => rfl

end Sys2Proof.Machine
end

