-- ==== Sys2Proof/Laws/Commands.lean ====
section
/-!
SUPPORT. What the commands do (10_state.md R25, R31): each command but `INIT` is a list of events and the assignments after the
last one; `INIT` is its wait and its commands in order. `effect i s` is the state the command leaves.
-/

namespace Sys2Proof.Machine

/-- The events of every command but `INIT` (R25). -/
def eventsOf (c : RawCfg) : Instr → List Event
  | .clear => issueByte c encClear (some c.tClear)
  | .home => issueByte c encHome (some c.tClear)
  | .entry id s => issueByte c (encEntry id s) none
  | .dispctl d cu b => issueByte c (encDispctl d cu b) none
  | .shift sc rl => issueByte c (encShift sc rl) none
  | .funcset dl n f => issueByte c (encFuncset dl n f) none
  | .setcg a => issueByte c (encSetcg a) none
  | .setdd a => issueByte c (encSetdd a) none
  | .sendInstruction b => send c false (byteOperand b)
  | .write b => send c true (byteOperand b)
  | .initNibble => .wr c.pinRS false :: pulse c (hi (encFuncset 0 (nBit c) (fBit c)))
  | .init => []

/-- The assignments of every command but `INIT` (R31). -/
def updatesOf : Instr → List Update
  | .entry id s => [.entry (bitOperand id) (bitOperand s)]
  | .setcg a => [.address .cgram (maskW 6 a)]
  | .setdd a => [.address .ddram (maskW 7 a)]
  | _ => []

/-- The acts of a command are its events and its assignments (R25). -/
theorem actsBasic_eq (c : RawCfg) (i : Instr) : actsBasic c i = actsOf (updatesOf i) (eventsOf c i) := by cases i <;> rfl

/-- Every command but `INIT` has an event. -/
theorem eventsOf_ne_nil (c : RawCfg) {i : Instr} (h : i ≠ .init) : eventsOf c i ≠ [] := by
  cases i <;> simp [eventsOf, issueByte, send] at *

/-- A command writes RS, E and the data lines only (R23). -/
theorem wr_mem_eventsOf {c : RawCfg} {i : Instr} {p : PinId} {v : Level} (h : Event.wr p v ∈ eventsOf c i) :
    p = c.pinRS ∨ p = c.pinE ∨ p ∈ c.pinD := by
  cases i <;> first | exact mem_issueByte h | exact mem_send h | skip
  · rcases List.mem_cons.1 h with h | h
    · simp at h; exact .inl h.1
    · exact .inr (mem_pulse h)
  · simp [eventsOf] at h

/-- A command whose pins are outputs runs to its end (R168): its events, then its assignments. -/
theorem runActs_actsBasic {s : State} (h : s.pinsReady) {i : Instr} (hi : i ≠ .init) :
    runActs (actsBasic s.cfg.raw i) s = .next ((updatesOf i).foldl applyUpdate (s.after (eventsOf s.cfg.raw i))) := by
  rw [actsBasic_eq, runActs_actsOf (eventsOf_ne_nil _ hi)]
  intro p v hm
  exact h p (busPin_mem (wr_mem_eventsOf hm))

/-- An assignment added at the end is made after everything else. -/
theorem runActs_endWith (u : Update) (as : List Act) (h : as ≠ []) (s : State) :
    runActs (endWith u as) s = Result.andThen (runActs as s) (fun t => .next (applyUpdate t u)) := by
  induction as generalizing s with
  | nil => exact absurd rfl h
  | cons a as ih =>
    cases as with
    | nil =>
      simp only [endWith, runActs]
      by_cases ha : s.admitsEvent a.event
      · have ha' : s.admitsEvent ({a with updates := a.updates ++ [u]} : Act).event := ha
        rw [perform_of_admits ha, perform_of_admits ha']
        simp [State.afterAct, List.foldl_append]
      · obtain ⟨p, e⟩ := perform_of_not_admits ha
        obtain ⟨e', us⟩ := a
        simp only [State.admitsEvent, not_forall] at ha
        obtain ⟨p, v, rfl, hd⟩ := ha
        simp [perform, emit, hd]
    | cons b bs =>
      simp only [endWith]
      rw [runActs, runActs]
      cases perform a s with
      | next t => simp only [andThen_next]; exact ih (by simp) t
      | fault f => rfl
      | refused q => rfl

/-- Events leave every pin an output. -/
theorem after_pinsReady {s : State} (h : s.pinsReady) (evs : List Event) : (s.after evs).pinsReady := by
  intro p hp
  have hp : s.dirOf p = .output := h p hp
  induction evs generalizing s with
  | nil => rw [after_nil]; exact hp
  | cons e es ih =>
    rw [after_cons]
    refine ih ?_ ?_ ?_
    · intro q hq; exact dirOf_onPins_of_output s e q (h q hq)
    · assumption
    · exact dirOf_onPins_of_output s e p hp

/-- Assignments leave every pin an output. -/
theorem foldl_applyUpdate_pinsReady {s : State} (h : s.pinsReady) (us : List Update) : (us.foldl applyUpdate s).pinsReady := by
  induction us generalizing s with
  | nil => exact h
  | cons u us ih => exact ih (by intro p hp; rw [applyUpdate_dirOf]; rw [applyUpdate_cfg] at hp; exact h p hp)

/-- The state after a command other than `INIT` has performed its events and made its assignments. -/
def effect (i : Instr) (s : State) : State := (updatesOf i).foldl applyUpdate (s.after (eventsOf s.cfg.raw i))

/-- A command keeps the configuration (R29). -/
theorem effect_cfg (i : Instr) (s : State) : (effect i s).cfg = s.cfg := foldl_applyUpdate_eq (·.cfg) applyUpdate_cfg _ _

/-- A command leaves every pin an output. -/
theorem effect_pinsReady {s : State} (h : s.pinsReady) (i : Instr) :
    (effect i s).pinsReady := foldl_applyUpdate_pinsReady (after_pinsReady h _) _

/-- A command does not look at what is pending behind it. -/
theorem effect_with_pending (i : Instr) (s : State) (l) :
    effect i {s with pending := l} = {effect i s with pending := l} := by
  show List.foldl applyUpdate ({s.after (eventsOf s.cfg.raw i) with pending := l}) (updatesOf i) = _
  rw [foldl_applyUpdate_with_pending]; rfl

/-- `runActs_actsBasic` with the configuration given apart. -/
theorem runActs_actsBasic_of_cfg {s : State} (h : s.pinsReady) {i : Instr} (hi : i ≠ .init) (c) (hc : s.cfg.raw = c) :
    runActs (actsBasic c i) s = .next (effect i s) := by subst hc; exact runActs_actsBasic h hi

/-- Several commands one after the other (R63). -/
theorem runActs_commands (l : List Instr) (hl : ∀ i ∈ l, i ≠ .init) {s : State} (h : s.pinsReady) :
    runActs (l.flatMap (actsBasic s.cfg.raw)) s = .next (l.foldl (fun s i => effect i s) s) := by
  induction l generalizing s with
  | nil => rfl
  | cons i l ih =>
    rw [List.flatMap_cons, runActs_append, runActs_actsBasic h (hl i (by simp)), andThen_next]
    have := ih (fun j hj => hl j (by simp [hj])) (effect_pinsReady h i)
    rw [effect_cfg] at this
    exact this

/-- `INIT` is its wait, its commands in order, and the change to Running (R131). -/
theorem runActs_actsInit {s : State} (h : s.pinsReady) :
    runActs (actsInit s.cfg.raw) s = .next (applyUpdate
      ((initCommands s.cfg.raw).foldl (fun s i => effect i s) (s.after [.wait s.cfg.raw.tPowerOn])) .enterRunning) := by
  rw [actsInit, initRest]
  have ha : s.admitsEvent (.wait s.cfg.raw.tPowerOn) := by intro p v h; cases h
  rw [runActs, perform_of_admits ha, andThen_next]
  have e : s.afterAct ⟨.wait s.cfg.raw.tPowerOn, []⟩ = s.after [.wait s.cfg.raw.tPowerOn] := by
    rw [after_cons, after_nil]; rfl
  rw [runActs_endWith, e]
  · have := runActs_commands (initCommands s.cfg.raw)
      (by cases hw : s.cfg.raw.busWidth <;> simp [initCommands, hw]) (after_pinsReady h [.wait s.cfg.raw.tPowerOn])
    rw [after_cfg] at this
    rw [this]; rfl
  · cases hw : s.cfg.raw.busWidth <;> simp [initCommands, hw, actsBasic_eq, actsOf, eventsOf, issueByte, send]

/-- Assignments and events commute: no event reads the mode or the shadow (R32). -/
theorem foldl_applyUpdate_after (s : State) (us : List Update) (evs : List Event) :
    (us.foldl applyUpdate s).after evs = us.foldl applyUpdate (s.after evs) := by
  induction us generalizing s with
  | nil => rfl
  | cons u us ih => rw [List.foldl_cons, List.foldl_cons, ih]; congr 1; cases u <;> rfl

/-- Several commands are all their events and then all their assignments. -/
theorem foldl_effect (l : List Instr) (s : State) :
    l.foldl (fun s i => effect i s) s
      = (l.flatMap updatesOf).foldl applyUpdate (s.after (l.flatMap (eventsOf s.cfg.raw))) := by
  induction l generalizing s with
  | nil => simp [after_nil]
  | cons i l ih =>
    rw [List.foldl_cons, ih, effect_cfg, effect, foldl_applyUpdate_after, ← after_append,
      List.flatMap_cons, List.flatMap_cons, List.foldl_append]

/-- The added assignment belongs to the last part of a list. -/
theorem endWith_append (u) (as bs : List Act) (h : bs ≠ []) : endWith u (as ++ bs) = as ++ endWith u bs := by
  induction as with
  | nil => rfl
  | cons a as ih =>
    cases hab : as ++ bs with
    | nil => simp at hab; exact absurd hab.2 h
    | cons x xs => rw [List.cons_append, hab, endWith, ← hab, ih]; rfl; simp

/-- Every command but `INIT` has an act. -/
theorem actsBasic_ne_nil (c : RawCfg) {i : Instr} (h : i ≠ .init) : actsBasic c i ≠ [] := by
  rw [actsBasic_eq]; intro e; have := congrArg List.length e; simp at this; exact eventsOf_ne_nil c h this

/-- What is pending of `INIT` begins with the acts of its next command. -/
theorem initRest_cons (c : RawCfg) (i : Instr) (l : List Instr) (hl : l ≠ []) (hn : ∀ i ∈ l, i ≠ .init) :
    initRest c (i :: l) = actsBasic c i ++ initRest c l := by
  rw [initRest, List.flatMap_cons, endWith_append]; rfl
  cases l with
  | nil => exact absurd rfl hl
  | cons j l => simp [actsBasic_ne_nil c (hn j (by simp))]

/-- Where `INIT` has come to a command, that command is admitted. -/
theorem initReaches_of_comesTo (c : RawCfg) (i : Instr) (done l l' : List Instr) (h : l' = done ++ i :: l) :
    initReaches c i (initRest c (i :: l)) l' = true := by
  subst h
  induction done with
  | nil => simp [initReaches]
  | cons j d ih => simp [initReaches, ih]

/-- `INIT` is none of its own commands. -/
theorem ne_init_of_mem_initCommands (c : RawCfg) : ∀ i ∈ initCommands c, i ≠ .init := by
  cases hw : c.busWidth <;> simp [initCommands, hw]

/-- Only a command of `INIT` is admitted inside it. -/
theorem mem_of_initReaches (c : RawCfg) (i : Instr) (p l) (h : initReaches c i p l = true) : i ∈ l := by
  induction l with
  | nil => simp [initReaches] at h
  | cons j l ih =>
    simp only [initReaches, Bool.or_eq_true, Bool.and_eq_true, decide_eq_true_eq] at h
    rcases h with ⟨rfl, -⟩ | h
    · simp
    · simp [ih h]

/-- A command is admitted inside `INIT` exactly where `INIT` has come to it (R131, log 10). -/
theorem issuedByInit_iff (s : State) (i : Instr) : s.issuedByInit i = true ↔ ∃ l, s.initComesTo i l := by
  constructor
  · have key : ∀ l done, initCommands s.cfg.raw = done ++ l → initReaches s.cfg.raw i s.pending l = true →
        ∃ r, s.initComesTo i r := by
      intro l
      induction l with
      | nil => intro _ _ h; simp [initReaches] at h
      | cons j l ih =>
        intro done hl h
        simp only [initReaches, Bool.or_eq_true, Bool.and_eq_true, decide_eq_true_eq] at h
        rcases h with ⟨rfl, hp⟩ | h
        · exact ⟨l, hp, done, hl⟩
        · exact ih (done ++ [j]) (by simp [hl]) h
    exact key _ [] rfl
  · rintro ⟨l, h1, done, h2⟩
    rw [State.issuedByInit, h1]
    exact initReaches_of_comesTo _ _ _ _ _ h2

/-- The pins do not depend on what is pending. -/
theorem pinsReady_pending {s : State} (h : s.pinsReady) (l) : ({s with pending := l} : State).pinsReady := h

/-- A command that `INIT` has come to, with more commands after it (R131). -/
theorem exec_insideInit {s : State} {i : Instr} {l : List Instr} (hp : s.pinsReady) (hl : l ≠ []) (h : s.initComesTo i l) :
    exec i s = .next { effect i s with pending := initRest s.cfg.raw l } := by
  obtain ⟨h1, done, h2⟩ := h
  have hn : ∀ j ∈ i :: l, j ≠ .init := fun j hj => ne_init_of_mem_initCommands s.cfg.raw j (by rw [h2]; simp at hj ⊢; tauto)
  have hi := hn i (by simp)
  have hpend : s.pending = actsBasic s.cfg.raw i ++ initRest s.cfg.raw l := by
    rw [h1, initRest_cons _ _ _ hl fun j hj => hn j (by simp [hj])]
  have hne : s.pending ≠ [] := by rw [hpend]; simp [actsBasic_ne_nil _ hi]
  have hacts : actsOfInstr s.cfg.raw i = actsBasic s.cfg.raw i := by cases i <;> first | rfl | exact absurd rfl hi
  rw [exec_eq, hacts, runCommand, if_neg hne, State.issuedByInit, h1, if_pos (initReaches_of_comesTo _ _ _ _ _ h2),
    ← h1, hpend]
  simp only [List.take_left, List.drop_left]
  rw [runActs_actsBasic_of_cfg (s := {s with pending := _}) (pinsReady_pending hp (initRest s.cfg.raw l)) hi s.cfg.raw rfl,
    effect_with_pending]

/-- The last command of `INIT` ends in Running (R24). -/
theorem exec_lastOfInit {s : State} {i : Instr} (hp : s.pinsReady) (h : s.initComesTo i []) :
    exec i s = .next (applyUpdate ({ effect i s with pending := [] }) .enterRunning) := by
  obtain ⟨h1, done, h2⟩ := h
  have hi : i ≠ .init := ne_init_of_mem_initCommands s.cfg.raw i (by rw [h2]; simp)
  have hr : initRest s.cfg.raw [i] = endWith .enterRunning (actsBasic s.cfg.raw i) := by simp [initRest]
  have hlen : ∀ as : List Act, (endWith .enterRunning as).length = as.length := by
    intro as; induction as with
    | nil => rfl
    | cons a as ih => cases as with
      | nil => rfl
      | cons b bs => simp only [endWith, List.length_cons] at *; omega
  have hne : s.pending ≠ [] := by
    rw [h1, hr]; intro e; have := congrArg List.length e; rw [hlen] at this; exact actsBasic_ne_nil _ hi (by simpa using this)
  have hacts : actsOfInstr s.cfg.raw i = actsBasic s.cfg.raw i := by cases i <;> first | rfl | exact absurd rfl hi
  rw [exec_eq, hacts, runCommand, if_neg hne, State.issuedByInit, h1, if_pos (initReaches_of_comesTo _ _ _ _ _ h2),
    hr]
  have hl := hlen (actsBasic s.cfg.raw i)
  rw [← hl, List.take_length, List.drop_length, runActs_endWith _ _ (actsBasic_ne_nil _ hi)]
  rw [runActs_actsBasic_of_cfg (s := {s with pending := _}) (pinsReady_pending hp []) hi s.cfg.raw rfl,
    effect_with_pending]
  rfl

/-- Every assignment of an act is one of its command. -/
theorem updates_of_mem_actsBasic {c : RawCfg} {i : Instr} {a : Act} (h : a ∈ actsBasic c i) :
    ∀ u ∈ a.updates, u ∈ updatesOf i := by
  rw [actsBasic_eq] at h
  generalize eventsOf c i = es at h
  intro u hu
  induction es with
  | nil => simp [actsOf] at h
  | cons e es ih =>
    cases es with
    | nil => simp [actsOf] at h; subst h; exact hu
    | cons f fs =>
      rw [actsOf, List.mem_cons] at h
      rcases h with rfl | h
      · simp at hu
      · exact ih h
      · simp

/-- An act of the extended list is an act of the list, but for the added assignment. -/
theorem mem_endWith {u : Update} {as : List Act} {a : Act} (h : a ∈ endWith u as) :
    ∃ b ∈ as, a.event = b.event ∧ ∀ x ∈ a.updates, x ∈ b.updates ∨ x = u := by
  induction as with
  | nil => simp [endWith] at h
  | cons b bs ih =>
    cases bs with
    | nil => simp [endWith] at h; subst h; exact ⟨b, by simp, rfl, by simp⟩
    | cons d ds =>
      rw [endWith, List.mem_cons] at h
      rcases h with rfl | h
      · exact ⟨a, by simp, rfl, fun x hx => .inl hx⟩
      · obtain ⟨b', h1, h2⟩ := ih h; exact ⟨b', List.mem_cons_of_mem _ h1, h2⟩
      · simp

/-- Every act of a command: it writes bus pins only, configures nothing, and assigns what a command assigns (R23, R24, R31). -/
theorem mem_actsOfInstr {c : RawCfg} {i : Instr} {a : Act} (h : a ∈ actsOfInstr c i) :
    (∀ p v, a.event = .wr p v → p = c.pinRS ∨ p = c.pinE ∨ p ∈ c.pinD)
   ∧ (∀ p, a.event ≠ .cfg p)
   ∧ ∀ u ∈ a.updates, (u = .enterRunning ∧ i = .init) ∨ ∃ j, u ∈ updatesOf j := by
  have nocfg : ∀ j p, Event.cfg p ∉ eventsOf c j := by
    intro j p hm
    have ha : ∀ v k ps, Event.cfg p ∉ assertFrom v k ps := by
      intro v k ps; induction ps generalizing k with
      | nil => simp [assertFrom]
      | cons q qs ih => simp [assertFrom, ih]
    have hpulse : ∀ v, Event.cfg p ∉ pulse c v := by intro v; simp [pulse, assertLines, ha]
    have hsend : ∀ rs v, Event.cfg p ∉ send c rs v := by intro rs v; cases hw : c.busWidth <;> simp [send, hw, hpulse]
    cases j <;> simp [eventsOf, issueByte, hsend, hpulse] at hm
  have basic : ∀ j (a : Act), a ∈ actsBasic c j →
      (∀ p v, a.event = .wr p v → p = c.pinRS ∨ p = c.pinE ∨ p ∈ c.pinD) ∧ (∀ p, a.event ≠ .cfg p) ∧ ∀ u ∈ a.updates, u ∈ updatesOf j := by
    intro j a hm
    have : a.event ∈ eventsOf c j := by
      have := List.mem_map_of_mem (f := (·.event)) hm
      rwa [actsBasic_eq, actsOf_events] at this
    refine ⟨fun p v e => wr_mem_eventsOf (v := v) (e ▸ this), fun p e => nocfg j p (e ▸ this), updates_of_mem_actsBasic hm⟩
  by_cases hi : i = .init
  · subst hi
    rcases List.mem_cons.1 h with rfl | h
    · simp
    · obtain ⟨b, hb, he, hu⟩ := mem_endWith h
      obtain ⟨j, hj, hb⟩ := List.mem_flatMap.1 hb
      obtain ⟨x, y, z⟩ := basic j b hb
      rw [he]
      refine ⟨x, y, fun u hu' => ?_⟩
      rcases hu u hu' with h' | h'
      · exact .inr ⟨j, z u h'⟩
      · exact .inl ⟨h', rfl⟩
  · have hacts : actsOfInstr c i = actsBasic c i := by cases i <;> first | rfl | exact absurd rfl hi
    rw [hacts] at h
    obtain ⟨x, y, z⟩ := basic i a h
    exact ⟨x, y, fun u hu => .inr ⟨i, z u hu⟩⟩

/-- One event is a list of one event. -/
theorem afterEvent_eq (s : State) (e : Event) : s.afterEvent e = s.after [e] := by rw [after_cons, after_nil]

end Sys2Proof.Machine
end

