-- ==== Sys2Proof/Laws/Invariant.lean ====
section
/-!
SUPPORT. Two induction principles for the step, each proved once: a property of states that the single operations keep is kept
by every step (`StepClosed`), and a property of quiet states that every command restores holds again whenever the command
in flight has ended (`CommandClosed`).
-/

namespace Sys2Proof.Machine

/-- A property that each act keeps is kept by a run. -/
theorem runActs_induct {P : State → Prop} {as : List Act}
    (hP : ∀ s a, a ∈ as → P s → s.admitsEvent a.event → P (s.afterAct a)) {s t : State} (hs : P s) (h : runActs as s = .next t) : P t := by
  induction as generalizing s with
  | nil => injection h with h; exact h ▸ hs
  | cons a as ih =>
    obtain ⟨u, h1, h2⟩ := andThen_eq_next.1 h
    obtain ⟨ha, rfl⟩ := perform_eq_next.1 h1
    exact ih (fun s b hb => hP s b (List.mem_cons_of_mem _ hb)) (hP s a (by simp) hs ha) h2

/-- What the single operations of the machine must keep. -/
structure StepClosed (P : State → Prop) : Prop where
  pend : ∀ s l, P s → P {s with pending := l}
  queue : ∀ s l, P s → P {s with queue := l}
  rows : ∀ s l, P s → P {s with rows := l}
  dl : ∀ s, P s → P (deadlineWait s)
  upd : ∀ s u, P s → P (applyUpdate s u)
  ev : ∀ s e, P s → s.admitsEvent e → P (s.afterEvent e)

/-- An act keeps it. -/
theorem StepClosed.afterAct {P} (h : StepClosed P) {s} (a : Act) (hs : P s) (ha : s.admitsEvent a.event) :
    P (s.afterAct a) := by
  simp only [State.afterAct]
  have := h.ev s _ hs ha
  generalize s.afterEvent a.event = u at *
  generalize a.updates = us
  induction us generalizing u with
  | nil => exact this
  | cons x us ih => exact ih _ (h.upd _ _ this)

/-- Every step keeps it. -/
theorem StepClosed.step {P} (h : StepClosed P) {s t : State} (hs : P s) (ht : step s = .next t) : P t := by
  rcases step_eq_next ht with ⟨a, rest, hp, ha, rfl⟩ | ⟨hp, hq, rfl⟩ | ⟨r, rest, hp, hq, hr⟩
  · exact h.afterAct a (h.pend _ _ hs) ha
  · exact hs
  · have hs1 := h.queue s rest hs
    generalize hu : ({s with queue := rest} : State) = u at *
    have hup : u.pending = [] := by rw [← hu]; exact hp
    rcases serve_eq_next hup hr with ⟨i, -, hm, hx⟩ | ⟨i, -, hm, rfl⟩ | ⟨ix, tx, -, rfl⟩ |
      ⟨ix, -, rfl⟩ | ⟨c, -, -, rfl⟩ | ⟨-, -, rfl⟩ | ⟨p, -, hd, ho, rfl⟩ | ⟨-, rfl⟩ | ⟨d, -, rfl⟩
    · exact runActs_induct (fun s a _ hs ha => h.afterAct a hs ha) hs1 hx
    · exact h.pend _ _ hs1
    · simp only [setLine]; split
      · exact h.rows _ _ hs1
      · exact hs1
    · exact h.queue _ _ hs1
    · exact h.queue _ _ hs1
    · exact hs1
    · exact h.ev _ _ hs1 (by intro p' v' e; cases e; exact ho)
    · exact h.dl _ hs1
    · exact h.ev _ _ hs1 (by intro p' v' e; cases e)

/-- What a property of quiet states must survive: the pins stay outputs, and every command restores it. -/
structure CommandClosed (P : State → Prop) : Prop where
  ready : ∀ s, P s → s.pinsReady
  pend : ∀ s l, P s → P {s with pending := l}
  queue : ∀ s l, P s → P {s with queue := l}
  rows : ∀ s l, P s → P {s with rows := l}
  dl : ∀ s, P s → P (deadlineWait s)
  upd : ∀ s u, P s → P (applyUpdate s u)
  evs : ∀ s i, P s → P (s.after (eventsOf s.cfg.raw i))
  wait : ∀ s d, P s → P (s.after [.wait d])
  dbg : ∀ s p v, P s → s.cfg.raw.pinDbg = some p → P (s.after [.wr p v])

/-- Assignments keep it. -/
theorem CommandClosed.updates {P} (h : CommandClosed P) (us : List Update) {s} (hs : P s) :
    P (us.foldl applyUpdate s) := by
  induction us generalizing s with
  | nil => exact hs
  | cons u us ih => exact ih (h.upd _ _ hs)

/-- A command keeps it. -/
theorem CommandClosed.command {P} (h : CommandClosed P) (i) {s} (hs : P s) : P (effect i s) := h.updates _ (h.evs _ _ hs)

/-- A command keeps it. -/
theorem CommandClosed.commands {P} (h : CommandClosed P) (l : List Instr) {s} (hs : P s) :
    P (l.foldl (fun s i => effect i s) s) := by
  induction l generalizing s with
  | nil => exact hs
  | cons i l ih => exact ih (h.command i hs)

/-- Every command runs to its end and keeps it (R168). -/
theorem CommandClosed.runs {P} (h : CommandClosed P) (i : Instr) {s} (hs : P s) :
    ∃ t, runActs (actsOfInstr s.cfg.raw i) s = .next t ∧ P t := by
  by_cases hi : i = .init
  · subst hi
    exact ⟨_, runActs_actsInit (h.ready s hs), h.upd _ _ (h.commands _ (h.wait _ _ hs))⟩
  · have hacts : actsOfInstr s.cfg.raw i = actsBasic s.cfg.raw i := by cases i <;> first | rfl | exact absurd rfl hi
    rw [hacts]
    exact ⟨_, runActs_actsBasic (h.ready s hs) hi, h.command i hs⟩

/-- If it holds once the command in flight has ended, it holds so after every step. -/
theorem CommandClosed.step {P} (h : CommandClosed P) {s t : State} (hs : Result.satisfies s.drained P) (ht : step s = .next t) :
    Result.satisfies t.drained P := by
  rcases step_eq_next ht with ⟨a, rest, hp, ha, rfl⟩ | ⟨hp, hq, rfl⟩ | ⟨r, rest, hp, hq, hr⟩
  · simp only [State.drained, hp, runActs] at hs
    have ha' : ({ s with pending := [] } : State).admitsEvent a.event := ha
    rw [perform_of_admits ha', andThen_next] at hs
    simp only [State.drained, afterAct_pending]
    rw [afterAct_with_pending s a []] at hs
    rw [afterAct_with_pending s a rest]
    exact hs
  · exact hs
  · have hs0 : P {s with pending := []} := by simpa [State.drained, hp, Result.satisfies] using hs
    have hs1 : P {s with queue := rest} := by
      have : ({s with queue := rest} : State) = {({s with pending := []} : State) with queue := rest} := by rw [← hp]
      rw [this]; exact h.queue _ _ hs0
    generalize hu : ({s with queue := rest} : State) = u at *
    have hup : u.pending = [] := by rw [← hu]; exact hp
    have dr : ∀ t : State, t.pending = [] → P t → Result.satisfies t.drained P := by
      intro t h1 h2
      simp only [State.drained, h1, runActs]
      exact h.pend _ _ h2
    rcases serve_eq_next hup hr with ⟨i, -, hm, hx⟩ | ⟨i, -, hm, rfl⟩ | ⟨ix, tx, -, rfl⟩ |
      ⟨ix, -, rfl⟩ | ⟨c, -, -, rfl⟩ | ⟨-, -, rfl⟩ | ⟨p, -, hd, -, rfl⟩ | ⟨-, rfl⟩ | ⟨d, -, rfl⟩
    · obtain ⟨t', h1, h2⟩ := h.runs i hs1
      rw [h1] at hx; injection hx with hx; subst hx
      refine dr _ ?_ h2
      have := runActs_eq_next h1
      rw [this, (foldl_afterAct_frame _ _).2.1, hup]
    · simp only [State.drained]
      obtain ⟨t', h1, h2⟩ := h.runs i (s := {u with pending := []}) (h.pend _ _ hs1)
      rw [show ({ u with pending := [] } : State).cfg = u.cfg from rfl] at h1
      rw [h1]; exact h2
    · refine dr _ (by simp [hup]) ?_
      simp only [setLine]; split
      · exact h.rows _ _ hs1
      · exact hs1
    · exact dr _ (by simp [hup]) (h.queue _ _ hs1)
    · exact dr _ hup (h.queue _ _ hs1)
    · exact dr _ hup hs1
    · rw [afterEvent_eq]; exact dr _ hup (h.dbg _ _ _ hs1 hd)
    · exact dr _ (by simp [hup]) (h.dl _ hs1)
    · rw [afterEvent_eq]; exact dr _ hup (h.wait _ _ hs1)

end Sys2Proof.Machine
end

