-- ==== Sys2Proof/Laws/PerInstr.lean ====
section
/-!
SUPPORT. Statements about every command as syntax, one lemma for each constructor.
-/

namespace Sys2Proof.Laws.Masked

open Sys2Proof Sys2Proof.Machine

/-- Masking is lossless on the bus (30_encoding.md R73): the masked command is well formed and has the command's own word. -/
def Statement (i : Instr) : Prop := i.masked.wellFormed = true ∧ encodeWord i.masked = encodeWord i

theorem field_mod (w lo x : Nat) : field w lo (x % 2 ^ w) = field w lo x := by
  simp [field, maskW]

theorem field_mod_two (lo x : Nat) : field 1 lo (x % 2) = field 1 lo x := field_mod 1 lo x

theorem byteOperand_mod (x : Nat) : byteOperand (x % 256) = byteOperand x := by
  simp [byteOperand, maskW]

theorem mod_two_le (x : Nat) : x % 2 ≤ 1 := Nat.le_of_lt_succ (Nat.mod_lt _ (by decide))

theorem clear : Statement .clear := ⟨rfl, rfl⟩
theorem home : Statement .home := ⟨rfl, rfl⟩
theorem entry (id s : Nat) : Statement (.entry id s) := by
  simp [Statement, Instr.masked, Instr.wellFormed, encodeWord, transferOf, encEntry, field_mod_two, mod_two_le]
theorem dispctl (d c b : Nat) : Statement (.dispctl d c b) := by
  simp [Statement, Instr.masked, Instr.wellFormed, encodeWord, transferOf, encDispctl, field_mod_two, mod_two_le]
theorem shift (sc rl : Nat) : Statement (.shift sc rl) := by
  simp [Statement, Instr.masked, Instr.wellFormed, encodeWord, transferOf, encShift, field_mod_two, mod_two_le]
theorem funcset (dl n f : Nat) : Statement (.funcset dl n f) := by
  simp [Statement, Instr.masked, Instr.wellFormed, encodeWord, transferOf, encFuncset, field_mod_two, mod_two_le]
theorem setcg (a : Nat) : Statement (.setcg a) := by
  have h : field 6 0 (a % 64) = field 6 0 a := field_mod 6 0 a
  simp [Statement, Instr.masked, Instr.wellFormed, encodeWord, transferOf, encSetcg, h, Nat.mod_lt]
theorem setdd (a : Nat) : Statement (.setdd a) := by
  have h : field 7 0 (a % 128) = field 7 0 a := field_mod 7 0 a
  simp [Statement, Instr.masked, Instr.wellFormed, encodeWord, transferOf, encSetdd, h, Nat.mod_lt]
theorem sendInstruction (b : Nat) : Statement (.sendInstruction b) := by
  simp [Statement, Instr.masked, Instr.wellFormed, encodeWord, transferOf, byteOperand_mod, Nat.mod_lt]
theorem write (b : Nat) : Statement (.write b) := by
  simp [Statement, Instr.masked, Instr.wellFormed, encodeWord, transferOf, byteOperand_mod, Nat.mod_lt]
theorem initNibble : Statement .initNibble := ⟨rfl, rfl⟩
theorem init : Statement .init := ⟨rfl, rfl⟩

end Sys2Proof.Laws.Masked
end

