-- ==== Sys2Proof/Laws/Rows.lean ====
section
/-!
SUPPORT. The row buffer (43_host_line_renderer.md R141, R142): what storing a text does to a row, and to the shape of the buffer.
-/

namespace Sys2Proof.Machine

/-- A row keeps its length when a text is stored in it (R141, R142). -/
theorem storeText_length (cap : Nat) (text row : List Byte) (h : 1 ≤ cap) (hr : row.length = cap) :
    (storeText cap text row).length = cap := by
  simp only [storeText, List.length_append, List.length_cons, List.length_drop, List.length_take, hr]
  omega

/-- A stored row ends in a terminator (R142). -/
theorem terminator_mem_storeText (cap : Nat) (text row : List Byte) : 0x00#8 ∈ storeText cap text row := by
  simp [storeText]

/-- Every row of a shaped buffer is shaped (R141). -/
theorem setLine_rowsShaped (index : Int) (text : List Byte) {s : State} (h : s.rowsShaped) : (setLine index text s).rowsShaped := by
  have hcap : 1 ≤ s.cfg.raw.rowCapacity := by
    have hk := s.cfg.ok.2
    simp only [RawCfg.hostOk, Bool.and_eq_true, decide_eq_true_eq] at hk
    exact hk.2
  unfold setLine
  by_cases hi : rowInRange s.cfg.raw index = true
  · simp only [hi, if_true]
    refine ⟨by simpa using h.1, fun row hrow => ?_⟩
    rcases List.mem_or_eq_of_mem_set hrow with hm | rfl
    · exact h.2 row hm
    · refine ⟨storeText_length _ _ _ hcap ?_, terminator_mem_storeText _ _ _⟩
      simp only [rowInRange, Bool.and_eq_true, decide_eq_true_eq] at hi
      have hlt : index.toNat < s.rows.length := by rw [h.1]; omega
      rw [List.getD_eq_getElem?_getD, List.getElem?_eq_getElem hlt]
      exact (h.2 _ (List.getElem_mem hlt)).1
  · simpa only [hi, if_false, Bool.false_eq_true] using h

/-- The rows at reset and at power-up are shaped (R141). -/
theorem emptyRows_shaped (c : Cfg) :
    (emptyRows c.raw).length = c.raw.rowCount ∧ ∀ row ∈ emptyRows c.raw, row.length = c.raw.rowCapacity ∧ 0x00#8 ∈ row := by
  have hcap : 1 ≤ c.raw.rowCapacity := by
    have hk := c.ok.2
    simp only [RawCfg.hostOk, Bool.and_eq_true, decide_eq_true_eq] at hk
    exact hk.2
  refine ⟨by simp [emptyRows], fun row hrow => ?_⟩
  obtain rfl : row = List.replicate c.raw.rowCapacity 0x00#8 := List.eq_of_mem_replicate hrow
  exact ⟨by simp, by rw [List.mem_replicate]; exact ⟨by omega, rfl⟩⟩

end Sys2Proof.Machine
end

