-- ==== Sys2Proof/Tests/Slice0.lean ====
section
/-!
SUPPORT. Tests against spec/95_test_vectors.md (V<n>, P<n>, S<n>) and against words and traces written out from the encoding and
transfer rules; the smoke test of WellFormed; and for every obligation a witness that meets its hypotheses.
-/

namespace Sys2Proof.Tests

open Sys2Proof Sys2Proof.Machine Sys2Proof.Claims

/-! ## States the tests start from -/

/-- A Full block with a debug pin, two rows and the illustrative numbers of V23; its pins are D0..D7 = 0..7, RS = 8, RW = 9,
E = 10, debug = 11. -/
def fullRaw : RawCfg :=
  { Config.standardRaw with
    busWidth := .full
    pinD := [0, 1, 2, 3, 4, 5, 6, 7]
    pinRS := 8
    pinRW := 9
    pinE := 10
    pinDbg := some 11
    tPw := 1
    tSettle := 40
    tClear := 2000
    tPowerOn := 50000
    rowCount := 2
    rowAddr := [0x00#7, 0x40#7]
    period := 1000 }

def fullCfg : Cfg := ⟨fullRaw, by decide, by decide⟩

/-- The same block with the other value of every option (V19). -/
def otherCfg : Cfg :=
  ⟨{ fullRaw with
      lines := 1
      font := .b
      cursorOn := true
      blinkOn := true
      entryDir := .left
      autoShift := true
      initRow := 1 }, by decide, by decide⟩

/-- The standard Half block with the illustrative numbers of V23: D0..D3 = 0..3, RS = 4, RW = 5, E = 6. -/
def halfCfg : Cfg :=
  ⟨{ Config.standardRaw with tPw := 1, tSettle := 40, tClear := 2000, tPowerOn := 50000, period := 1000 }, by decide, by decide⟩

/-- The Full block after reset, and the same in Running. -/
def full : State := State.resetFor fullCfg
def fullRunning : State := { full with mode := .running }

/-- The Half block after reset, and the same in Running. -/
def half : State := State.resetFor halfCfg
def halfRunning : State := { half with mode := .running }

/-- The same with one nibble pulse in its trace, as `INIT` leaves it (R57). -/
def halfPaired : State :=
  { halfRunning with trace := halfRunning.trace ++ [(.wr 6 true, 0), (.wr 6 false, 0)] }

/-- The outcome is a next state that passes the check. -/
def passes (r : Result) (check : State → Bool) : Bool :=
  match r with
  | .next t => check t
  | .fault _ => false
  | .refused _ => false

/-- The outcome is this refusal. -/
def refusedBy (r : Result) (q : Refusal) : Bool :=
  match r with
  | .refused p => p == q
  | .next _ => false
  | .fault _ => false

/-- The events of the trace from the `n`-th on. -/
def newEvents (n : Nat) (t : State) : List Event := t.events.drop n

/-- The latched words as numbers, most significant line first. -/
def words (t : State) : List (Latch × Option Nat) :=
  (latched t.cfg.raw t.trace).map fun w => (w.rs, latchValue w.data 0)

/-! ## WellFormed refuses what does not fit its field (R71, R73) -/

theorem test_wf_entry_id : (Instr.entry 2 0).wellFormed = false := by decide
theorem test_wf_entry_s : (Instr.entry 0 2).wellFormed = false := by decide
theorem test_wf_dispctl_d : (Instr.dispctl 2 0 0).wellFormed = false := by decide
theorem test_wf_dispctl_c : (Instr.dispctl 0 2 0).wellFormed = false := by decide
theorem test_wf_dispctl_b : (Instr.dispctl 0 0 2).wellFormed = false := by decide
theorem test_wf_shift_sc : (Instr.shift 2 0).wellFormed = false := by decide
theorem test_wf_shift_rl : (Instr.shift 0 2).wellFormed = false := by decide
theorem test_wf_funcset_dl : (Instr.funcset 2 0 0).wellFormed = false := by decide
theorem test_wf_funcset_n : (Instr.funcset 0 2 0).wellFormed = false := by decide
theorem test_wf_funcset_f : (Instr.funcset 0 0 2).wellFormed = false := by decide
theorem test_wf_setcg : (Instr.setcg 64).wellFormed = false := by decide
theorem test_wf_setdd : (Instr.setdd 128).wellFormed = false := by decide
theorem test_wf_sendInstruction : (Instr.sendInstruction 256).wellFormed = false := by decide
theorem test_wf_write : (Instr.write 256).wellFormed = false := by decide
theorem test_wf_largest : ((Instr.setcg 63).wellFormed && (Instr.setdd 127).wellFormed && (Instr.write 255).wellFormed) = true := by
  decide

/-- V21: the configurations that are no block: five data lines in Half, E on the pin of RS, three lines, no such row. -/
theorem test_cfg_refused :
    ({ Config.standardRaw with pinD := [0, 1, 2, 3, 9] } : RawCfg).cfgOk = false
      ∧ ({ Config.standardRaw with pinE := 4 } : RawCfg).cfgOk = false
      ∧ ({ Config.standardRaw with lines := 3 } : RawCfg).cfgOk = false
      ∧ ({ Config.standardRaw with initRow := 4 } : RawCfg).cfgOk = false := by decide

/-! ## Decoding: words written out from R71, R79, R83 (RS first, then DB7 to DB0) -/

theorem test_decode_clear : decodeTableWord 16 0b0_0000_0001 = some .clear := by decide
theorem test_decode_home : decodeTableWord 16 0b0_0000_0010 = some .home := by decide
theorem test_decode_entry : decodeTableWord 16 0b0_0000_0101 = some (.entry 0 1) := by decide
theorem test_decode_dispctl : decodeTableWord 16 0b0_0000_1011 = some (.dispctl 0 1 1) := by decide
theorem test_decode_shift : decodeTableWord 16 0b0_0001_0100 = some (.shift 0 1) := by decide
theorem test_decode_funcset : decodeTableWord 16 0b0_0011_0100 = some (.funcset 1 0 1) := by decide
theorem test_decode_setcg : decodeTableWord 16 0b0_0110_0001 = some (.setcg 0x21) := by decide
theorem test_decode_setdd : decodeTableWord 16 0b0_1101_0100 = some (.setdd 0x54) := by decide
theorem test_decode_sendInstruction : decodeTableWord 16 0b0_0001_0001 = some (.sendInstruction 0x11) := by decide
theorem test_decode_write : decodeTableWord 16 0b1_0100_0001 = some (.write 0x41) := by decide
theorem test_decode_initNibble : decodeTableWord 8 0b0_0010 = some .initNibble := by decide
theorem test_decode_too_long : decodeTableWord 16 0b10_0000_0001 = none := by decide
/-- P1: the words of `INIT` in a Full block with the standard options. -/
theorem test_encode_init : encode fullRaw .init
    = [.bus9 0b000111000#9, .bus9 0b000000001#9, .bus9 0b000001100#9, .bus9 0b000000110#9, .bus9 0b010000000#9] := by decide

/-! ## The encoder functions: the masking vectors of V1 to V6 -/

theorem test_enc_masking : encEntry 2 3 = 0x05#8 ∧ encEntry 256 257 = 0x05#8 ∧ encDispctl 0xFF 0 2 = 0x0C#8
    ∧ encShift 2 1 = 0x14#8 ∧ encFuncset 3 0 4 = 0x30#8 ∧ encSetcg 0x1234 = 0x74#8 ∧ encSetdd 0x1234 = 0xB4#8 := by decide

/-! ## The commands -/

/-- V11: the 13 events of `ENTRY 1, 0` in a Full block (reset took 15 with a debug pin, V20), and both flags recorded (R31). -/
theorem test_entry_full : passes (exec (.entry 1 0) fullRunning) (fun t => newEvents 15 t ==
    [.wr 8 false, .wr 10 true, .wr 0 false, .wr 1 true, .wr 2 true, .wr 3 false, .wr 4 false, .wr 5 false, .wr 6 false,
      .wr 7 false, .wait 1, .wr 10 false, .wait 40]
    && t.shadow == ⟨.unknown, .unknown, .known 1#1, .known 0#1⟩) = true := by decide +kernel

/-- V16: `CLEAR` in a Full block ends with its completion wait. -/
theorem test_clear_full : passes (exec .clear fullRunning) (fun t => newEvents 15 t ==
    [.wr 8 false, .wr 10 true, .wr 0 true, .wr 1 false, .wr 2 false, .wr 3 false, .wr 4 false, .wr 5 false, .wr 6 false,
      .wr 7 false, .wait 1, .wr 10 false, .wait 40, .wait 2000]) = true := by decide +kernel

/-- V16: `HOME` in a Half block has 18 events and commits 0:0, 0:2. -/
theorem test_home_half : passes (exec .home halfRunning) (fun t => (newEvents 9 t).length == 18
    && words t == [(.level false, some 0), (.level false, some 2)]) = true := by decide +kernel

/-- V12: `ENTRY 1, 0` in a Half block commits 0:0, 0:6 and writes RS once. -/
theorem test_entry_half : passes (exec (.entry 1 0) halfRunning) (fun t => ((newEvents 9 t).filter (· == .wr 4 false)).length == 1
    && words t == [(.level false, some 0), (.level false, some 6)]) = true := by decide +kernel

/-- V2, V3, V4: the bytes on the lines. -/
theorem test_dispctl : passes (exec (.dispctl 1 0 1) fullRunning) (fun t => words t == [(.level false, some 0x0D)]) = true := by
  decide +kernel
theorem test_shift : passes (exec (.shift 1 0) fullRunning) (fun t => words t == [(.level false, some 0x18)]) = true := by
  decide +kernel
theorem test_funcset : passes (exec (.funcset 0 1 1) fullRunning) (fun t => words t == [(.level false, some 0x2C)]
    && t.cfg == fullRunning.cfg) = true := by decide +kernel

/-- V15: `SETCG 0x48`: the byte 0x48 and the address 8. -/
theorem test_setcg : passes (exec (.setcg 0x48) fullRunning) (fun t => words t == [(.level false, some 0x48)]
    && t.shadow == ⟨.cgram, .known 8, .unknown, .unknown⟩) = true := by decide +kernel

/-- P4: `SETDD 0xC0`: the byte 0xC0 and the address 0x40. -/
theorem test_setdd : passes (exec (.setdd 0xC0) fullRunning) (fun t => words t == [(.level false, some 0xC0)]
    && t.shadow == ⟨.ddram, .known 0x40, .unknown, .unknown⟩) = true := by decide +kernel

/-- V16, R115: a raw send of 0x01 has no completion wait, and no shadow update comes with a raw address byte. -/
theorem test_sendInstruction : passes (exec (.sendInstruction 0x01) fullRunning) (fun t => (newEvents 15 t).length == 13) = true
    ∧ passes (exec (.sendInstruction 0x80) fullRunning) (fun t => t.shadow == Shadow.unknown) = true := by decide +kernel

/-- V14: `WRITE 0x148` is reduced to 0x48; V13: `WRITE 0xA5` in a Half block commits 1:A, 1:5. -/
theorem test_write : passes (exec (.write 0x148) fullRunning) (fun t => words t == [(.level true, some 0x48)]) = true := by
  decide +kernel
theorem test_write_half : passes (exec (.write 0xA5) halfRunning) (fun t =>
    words t == [(.level true, some 0xA), (.level true, some 5)]
      && [0, 1, 2, 3, 4, 6].map t.latchOf
          == [.level true, .level false, .level true, .level false, .level true, .level false]) = true := by decide +kernel

/-- V18: `INIT` in a Full block, and V19: with the other value of every option. -/
theorem test_init_full : passes (exec .init full) (fun t =>
    words t == [0x38, 0x01, 0x0C, 0x06, 0x80].map (fun n => (.level false, some n))
      && t.mode == .running && (newEvents 15 t).length == 67 && (newEvents 15 t)[27]? == some (.wait 2000)) = true
    ∧ passes (exec .init (State.resetFor otherCfg)) (fun t =>
        words t == [0x34, 0x01, 0x0F, 0x05, 0xC0].map (fun n => (.level false, some n))) = true := by decide +kernel

/-- V17: `INIT` in a Half block. -/
theorem test_init_half : passes (exec .init State.reset) (fun t =>
    words t == [2, 2, 8, 0, 1, 0, 0xC, 0, 6, 8, 0].map (fun n => (.level false, some n))
      && (newEvents 9 t).length == 96 && t.shadow == ⟨.ddram, .known 0, .known 1#1, .known 0#1⟩) = true := by decide +kernel

/-- V9, R130: `INIT_NIBBLE` where `INIT` has come to it: 9 events, one word with data 2. -/
theorem test_initNibble : passes (exec .initNibble { half with
      pending := initRest half.cfg.raw (initCommands half.cfg.raw) }) (fun t =>
    newEvents 9 t == [.wr 4 false, .wr 6 true, .wr 0 false, .wr 1 true, .wr 2 false, .wr 3 false, .wait 1, .wr 6 false, .wait 40]
      && t.pending.length == 86) = true := by decide +kernel

/-- V21: a command before `INIT`, a second `INIT`, `INIT_NIBBLE` issued by the host. -/
theorem test_refusals : refusedBy (exec .clear full) .beforeInit = true ∧ refusedBy (exec .init fullRunning) .initTwice = true
    ∧ refusedBy (exec .initNibble halfRunning) .onlyInsideInit = true := by decide

/-! ## Steps, the host, the observer -/

/-- V20: the reset sequence of a Half block without a debug pin. -/
theorem test_reset_events : State.reset.events
    = [.cfg 0, .cfg 1, .cfg 2, .cfg 3, .cfg 4, .cfg 5, .cfg 6, .wr 6 false, .wr 5 false] := by decide

/-- A word placed for the next step runs from reset. -/
theorem test_step_word : passes (step (State.reset.withFetchWord 16 0b1_0100_0001)) (fun t =>
    words t == [(.level true, some 4), (.level true, some 1)]) = true := by decide +kernel

/-- The lone nibble placed for the next step: its first event, RS to 0. -/
theorem test_step_nibble : passes (step (State.reset.withFetchWord 8 0b0_0010)) (fun t => newEvents 9 t == [.wr 4 false]) = true := by
  decide +kernel

/-- R22: a write to a pin that was never configured is refused. -/
theorem test_unconfigured : refusedBy (emit (.wr 4 true) (State.powerUp Config.standard)) (.pinNotConfigured 4) = true := by decide

/-- V26: 26 characters in a row of 17: the first 16 and the terminator. -/
theorem test_setLine_truncates :
    (setLine 0 ((List.range 26).map fun n => BitVec.ofNat 8 (0x41 + n)) full).rows.map (·.drop 14)
      = [[0x4F#8, 0x50#8, 0x00#8], [0x00#8, 0x00#8, 0x00#8]] := by decide

/-- V26: a text out of range changes nothing. -/
theorem test_setLine_range : setLine 2 [0x58#8] full = full ∧ setLine (-1) [0x58#8] full = full := ⟨rfl, rfl⟩

/-- V26: `display_line(1)` of "HI" stands for `SETDD 0x40; WRITE 0x48; WRITE 0x49`; a row out of range for nothing. -/
theorem test_display : displayCommands (setLine 1 [0x48#8, 0x49#8] full) 1 = [.setdd 0x40, .write 0x48, .write 0x49]
    ∧ displayCommands full 2 = [] ∧ displayCommands full (-1) = [] := by decide

/-- V27: work of 120, 850, 3 and 999 with a period of 1000: the wake times. -/
theorem test_deadlines :
    ([120, 850, 3, 999].foldl (fun (x : State × List Nat) w =>
        let t := deadlineWait { x.1 with now := x.1.now + w }
        (t, x.2 ++ [t.wake])) ({ full with now := 0, wake := 0 }, [])).2 = [1000, 2000, 3000, 4000] := by decide

/-- V28: the debug pin after reset is 0 and the first toggle makes it 1. -/
theorem test_toggle : full.latchOf 11 = .level false ∧ passes (toggleDebug full) (fun t => t.latchOf 11 == .level true) = true := by
  decide

/-- V25: a write that follows a raw clear after the settling time only (the times are those of draws at their minimum). -/
theorem test_hazard :
    let pulses (t : Nat) (first : Level) : List (Event × Nat) :=
      [(.wr 8 false, t), (.wr 10 true, t), (.wr 0 first, t)]
        ++ [1, 2, 3, 4, 5, 6, 7].map (fun p => (.wr p false, t)) ++ [(.wr 10 false, t + 1)]
    clearHazard fullRaw (pulses 0 true ++ pulses 41 false) = true
      ∧ clearHazard fullRaw (pulses 0 true ++ pulses 2001 false) = false := by decide +kernel

/-! ## Witnesses: for every obligation a state and operands that meet its hypotheses, for each clause at a boundary -/

theorem exists_next {r : Result} (h : passes r (fun _ => true) = true) : ∃ t, r = .next t := by
  cases r with
  | next t => exact ⟨t, rfl⟩
  | fault f => cases f
  | refused q => cases h

/-- `INIT` in flight in a Half block, come to its first command (the lone nibble) and to its last (SETDD). -/
def inInit : State := { half with pending := initRest half.cfg.raw (initCommands half.cfg.raw) }
def atLast : State := { half with pending := initRest half.cfg.raw [.setdd 0] }

theorem witness_SpecificRowsAreDisjoint :
    (∀ x ∈ [rowClear, rowHome, rowEntry, rowDispctl, rowShift, rowFuncset, rowSetcg, rowSetdd], x.hit x.pattern = true)
      ∧ rowWrite ∈ specificRows ∧ rowWrite.hit 0x1FF#9 = true := by decide

theorem witness_DecodeAndEncodeAgree :
    (Instr.setdd 127).canonical = true ∧ (Instr.sendInstruction 3).canonical = true ∧ Instr.initNibble.canonical = true
      ∧ decode (.bus9 0x1FF#9) = some (.write 255) ∧ decode (.nib5 2#5) = some .initNibble ∧ (3#5 : BitVec 5) ≠ 0b00010#5 := by
  decide

theorem witness_EventsDoWhatTheySay :
    4 ∈ half.pins.map (·.id) ∧ (State.powerUp halfCfg).dirOf 4 = .unconfigured ∧ half.dirOf 4 = .output := by decide

theorem witness_PulseHasItsFiveParts : half.pinsReady ∧ half.cfg.raw.pinD[3]? = some 3 ∧ full.pinsReady
    ∧ full.cfg.raw.pinD[7]? = some 7 := by decide

theorem witness_TransferIsOneOrTwoPulses : fullCfg.raw.busWidth = .full ∧ halfCfg.raw.busWidth = .half := by decide

theorem witness_TransferLeavesItsLevels : half.quiet ∧ full.quiet ∧ full.cfg.raw.pinD[7]? = some 7 := by decide

theorem witness_TransferCommitsItsByte : half.quiet ∧ half.explained ∧ full.quiet ∧ full.explained
    ∧ (∃ x y, ruleLatched half.cfg.raw true 0xA5#8 = [x, y]) ∧ ∃ x, ruleLatched full.cfg.raw true 0xA5#8 = [x] :=
  ⟨by decide, by decide +kernel, by decide, by decide +kernel, ⟨_, _, rfl⟩, ⟨_, rfl⟩⟩

theorem witness_PhasesEmitTheTransfer : 9 < 5 * pulsesPerByte halfCfg.raw ∧ 4 < 5 * pulsesPerByte fullCfg.raw := by decide

/-- For the results of the ten commands of Running: `ClearAndHomeRun`, `EntryRuns`, `DispctlRuns`, `ShiftRuns`, `FuncsetRuns`,
`SetcgRuns`, `SetddRuns`, `SendInstructionRuns`, `WriteRuns`. -/
theorem witness_commands_run : halfRunning.ready ∧ fullRunning.ready ∧ half.pending = [] ∧ half.mode = .initializing := by decide

/-- Both outcomes of the check, and both line counts. -/
theorem witness_ConfigurationCheckAndOptionBits :
    fullRaw.cfgOk = true ∧ ({ fullRaw with initRow := 2 } : RawCfg).cfgOk = false ∧ otherCfg.raw.lines = 1 ∧ fullRaw.lines = 2 := by
  decide

theorem witness_NamedAndRawFormsDifferInTwoWays :
    halfRunning.ready ∧ rawForm .clear = some 0x01#8 ∧ rawForm .home = some 0x02#8 ∧ rawForm (.setdd 127) = some 0xFF#8
      ∧ rawForm (.setcg 0) = some 0x40#8 ∧ rawForm (.entry 1 1) = some 0x07#8 ∧ rawForm (.shift 0 0) = some 0x10#8 := by decide

theorem witness_InitNibbleRunsInsideInit :
    (inInit.initComesTo .initNibble ((initCommands half.cfg.raw).drop 1) ∧ inInit.pinsReady)
      ∧ (halfRunning.pending = [] ∧ halfRunning.mode = .running) ∧ (half.pending = [] ∧ half.mode = .initializing)
      ∧ (atLast.pending ≠ [] ∧ ∀ l, ¬ atLast.initComesTo .initNibble l) ∧ full.cfg.raw.busWidth = .full := by
  refine ⟨⟨⟨rfl, [], rfl⟩, by decide⟩, by decide, by decide, ⟨by decide, fun l h => ?_⟩, rfl⟩
  have hi : atLast.issuedByInit .initNibble = true := (issuedByInit_iff _ _).2 ⟨l, h⟩
  exact absurd hi (by decide +kernel)

theorem witness_InitRunsInFullBlock : full.readyForInit ∧ full.cfg.raw.busWidth = .full := by decide
theorem witness_InitRunsInHalfBlock : half.readyForInit ∧ half.cfg.raw.busWidth = .half := by decide

/-- Also for `InitLeavesARunningBlock` and `InitIsItsCommandsInOrder`. -/
theorem witness_InitCommitsItsBytes :
    (full.readyForInit ∧ full.quiet ∧ full.explained ∧ pulsesOf full.cfg.raw full.trace = [])
      ∧ half.readyForInit ∧ half.quiet ∧ half.explained ∧ pulsesOf half.cfg.raw half.trace = [] := by decide +kernel

theorem witness_ModesTurnCommandsAway : half.pending = [] ∧ half.mode = .initializing ∧ Instr.clear ≠ .init
    ∧ halfRunning.pending = [] ∧ halfRunning.mode = .running := by decide

theorem witness_NothingInterruptsACommand :
    (inInit.pending ≠ [] ∧ inInit.issuedByInit .clear = false) ∧ (∃ a rest, inInit.pending = a :: rest) ∧ ∃ t, step inInit = .next t :=
  ⟨by decide +kernel, ⟨_, _, rfl⟩, exists_next (by decide +kernel)⟩

theorem witness_UnconfiguredPinStopsACommand :
    let s := { State.powerUp halfCfg with pending := [], mode := .running }
    s.pending = [] ∧ s.mode = .running ∧ Instr.write 0 ≠ .init ∧ Instr.write 0 ≠ .initNibble
      ∧ s.dirOf s.cfg.raw.pinRS = .unconfigured := by decide

/-- Also for `CommandsIgnoreTheClock` and `CommandsTakeTheirMinimumTime`: with nothing in flight, and inside `INIT` at its first
and its last command. -/
theorem witness_CommandsLeaveOtherStateAlone :
    (∃ t, exec (.write 255) fullRunning = .next t) ∧ (∃ t, exec .init half = .next t) ∧ (∃ t, exec .initNibble inInit = .next t)
      ∧ ∃ t, exec (.setdd 0) atLast = .next t :=
  ⟨exists_next (by decide +kernel), exists_next (by decide +kernel), exists_next (by decide +kernel),
    exists_next (by decide +kernel)⟩

theorem witness_CommandsChangeTheirOwnShadowFields :
    fullRunning.pending = [] ∧ (∃ t, exec (.entry 1 1) fullRunning = .next t) ∧ (∃ t, exec (.setcg 63) fullRunning = .next t)
      ∧ (∃ t, exec (.setdd 127) fullRunning = .next t) ∧ (∃ t, exec .clear fullRunning = .next t)
      ∧ full.pending = [] ∧ ∃ t, exec .init full = .next t :=
  ⟨rfl, exists_next (by decide +kernel), exists_next (by decide +kernel), exists_next (by decide +kernel),
    exists_next (by decide +kernel), rfl, exists_next (by decide +kernel)⟩

theorem witness_StepRunsTheDecodedCommand :
    ({ halfRunning with queue := [.call .clear] } : State).pending = []
      ∧ decodeTableWord 16 0x1FF = some (.write 255) ∧ decodeTableWord 8 3 = none
      ∧ ({ halfRunning with queue := [.word 16 0x1FF] } : State).queue = .word 16 0x1FF :: []
      ∧ ({ halfRunning with queue := [.word 8 3] } : State).queue = .word 8 3 :: []
      ∧ ({ halfRunning with queue := [.issue .clear] } : State).queue = .issue .clear :: []
      ∧ halfRunning.queue = [] := by decide

theorem witness_SmallStepsMatchTheBigStep :
    (half.pending = [] ∧ modeRefusal half.mode .init = none)
      ∧ halfRunning.pending = [] ∧ modeRefusal halfRunning.mode (.write 0) = none
      ∧ ({ half with queue := [.issue .init, .deadlineWait] } : State).queue = .issue .init :: [.deadlineWait] := by decide

theorem witness_ResetLeavesTheTable : fullCfg.raw.pinDbg = some 11 ∧ halfCfg.raw.pinDbg = none := by decide

/-- Nothing in flight and a command called; a command in flight. -/
theorem witness_StepKeepsTheBlockSettling :
    (State.settlesQuiet { fullRunning with queue := [.call .clear] }
        ∧ ∃ t, step { fullRunning with queue := [.call .clear] } = .next t)
      ∧ (State.settlesQuiet (State.powerUp halfCfg) ∧ ∃ t, step (State.powerUp halfCfg) = .next t) := by
  refine ⟨⟨?_, exists_next (by decide +kernel)⟩, ?_, exists_next (by decide +kernel)⟩
  · show State.quiet { fullRunning with queue := [.call .clear] }
    decide
  · have h : ∃ t, (State.powerUp halfCfg).drained = .next t ∧ t.quiet := by
      have hp : passes (State.powerUp halfCfg).drained (fun t => decide t.quiet) = true := by decide +kernel
      cases hd : (State.powerUp halfCfg).drained with
      | next t => rw [hd] at hp; exact ⟨t, rfl, of_decide_eq_true hp⟩
      | fault f => cases f
      | refused q => rw [hd] at hp; cases hp
    obtain ⟨t, h1, h2⟩ := h
    rw [State.settlesQuiet, h1]
    exact h2

theorem witness_StepKeepsRwLow : inInit.rwLow ∧ (∃ t, step inInit = .next t) ∧ full.rwLow := by
  refine ⟨⟨by decide, ?_⟩, exists_next (by decide +kernel), by decide, fun a ha => absurd ha (List.not_mem_nil)⟩
  have h : (inInit.pending.all fun a => a.event != .wr 5 false && a.event != .wr 5 true) = true := by decide +kernel
  intro a ha v hv
  have ha' := List.all_eq_true.1 h a ha
  rw [hv] at ha'
  cases v <;> exact absurd ha' (by decide)

theorem witness_StepKeepsPinsExplainedByTheTrace : full.explained ∧ inInit.explained ∧ ∃ t, step inInit = .next t :=
  ⟨by decide +kernel, by decide +kernel, exists_next (by decide +kernel)⟩

/-- A Full block that has made one pulse of exactly the least width, at the end of its settling time. -/
def pulsed : State :=
  { fullRunning with
    now := 41
    trace := fullRunning.trace ++ [(.wr 10 true, 0), (.wr 0 true, 0), (.wr 10 false, 1)]
    queue := [.call (.write 0xFF)] }

theorem witness_StepKeepsTheTimingBounds : pulsed.settlesTimed ∧ ∃ t, step pulsed = .next t := by
  refine ⟨?_, exists_next (by decide +kernel)⟩
  show State.quiet pulsed ∧ State.timed pulsed
  have h : pulsesOf pulsed.cfg.raw pulsed.trace = [⟨0, 1, 0, ⟨.unwritten, .level false, [.unwritten, .unwritten, .unwritten,
      .unwritten, .unwritten, .unwritten, .unwritten, .level true]⟩⟩] := by decide +kernel
  refine ⟨by decide, by decide +kernel, ?_, ?_, ?_, by decide +kernel⟩ <;> rw [h]
  · decide
  · trivial
  · decide

/-- The reset state, and a pending CGRAM address at its boundary. -/
theorem witness_StepKeepsTheShadowInRange :
    half.shadowInRange
      ∧ State.shadowInRange { halfRunning with pending := [⟨.wait 0, [.address .cgram 63]⟩], shadow := ⟨.ddram, .known 127, .unknown, .unknown⟩ }
      ∧ ∃ t, step { halfRunning with pending := [⟨.wait 0, [.address .cgram 63]⟩], shadow := ⟨.ddram, .known 127, .unknown, .unknown⟩ } = .next t := by
  refine ⟨⟨trivial, fun a ha => absurd ha List.not_mem_nil⟩, ⟨by show 127 < 128; decide, ?_⟩, ⟨_, rfl⟩⟩
  intro a ha u hu
  obtain rfl : a = ⟨.wait 0, [.address .cgram 63]⟩ := by simpa using ha
  obtain rfl : u = .address .cgram 63 := by simpa using hu
  show 63 < 64
  decide

theorem witness_StepKeepsTheRowsShaped :
    State.rowsShaped { full with queue := [.setLine 1 (List.replicate 20 0x48#8)] }
      ∧ ∃ t, step { full with queue := [.setLine 1 (List.replicate 20 0x48#8)] } = .next t :=
  ⟨⟨rfl, by decide⟩, exists_next (by decide +kernel)⟩

theorem witness_StepOnlyExtendsTheTrace : (∃ t, step inInit = .next t) ∧ State.clockOrdered { half with trace := [(.wait 1, 0)] } :=
  ⟨exists_next (by decide +kernel), by simp, by simp⟩

/-- A call of `INIT`, and its last pending event. -/
theorem witness_OnlyInitEntersRunning :
    (half.mode = .initializing ∧ passes (step { half with queue := [.call .init] }) (fun t => t.mode == .running) = true)
      ∧ passes (step { half with pending := [⟨.wait 0, [.enterRunning]⟩] }) (fun t => t.mode == .running) = true
      ∧ halfRunning.mode = .running ∧ ∃ t, step halfRunning = .next t :=
  ⟨⟨rfl, by decide +kernel⟩, by decide, rfl, ⟨_, rfl⟩⟩

theorem witness_NothingReadsTheShadow :
    (∃ t, step { fullRunning with queue := [.call (.setcg 63)] } = .next t)
      ∧ step { full with queue := [.call .clear] } = .refused .beforeInit := ⟨exists_next (by decide +kernel), rfl⟩

theorem witness_CommandsMakeTheirPulses :
    (fullRunning.pending = [] ∧ fullRunning.quiet ∧ fullRunning.explained) ∧ (∃ t, exec (.write 0) fullRunning = .next t)
      ∧ (half.pending = [] ∧ half.quiet ∧ half.explained) ∧ ∃ t, exec .init half = .next t :=
  ⟨by decide +kernel, exists_next (by decide +kernel), by decide +kernel, exists_next (by decide +kernel)⟩

theorem completionKept_of {s : State} (h1 : (watch s.cfg.raw s.trace).hazard = false) (h2 : (watch s.cfg.raw s.trace).clearFall = none)
    (h3 : s.mode = .running) (h4 : s.cfg.raw.busWidth = .half → (pulsesOf s.cfg.raw s.trace).length % 2 = 1) : s.completionKept := by
  refine ⟨h1, ?_, ?_, fun _ => h4⟩
  · rw [h2]; intro f hf; cases hf
  · rw [h3]; intro h; cases h

theorem witness_NamedCommandsKeepTheCompletionBound :
    (halfPaired.pending = [] ∧ halfPaired.quiet ∧ halfPaired.explained) ∧ halfPaired.completionKept
      ∧ ¬ isRawClear (.sendInstruction 3) ∧ (∃ t, exec (.sendInstruction 3) halfPaired = .next t)
      ∧ ¬ isRawClear .clear ∧ ∃ t, exec .clear halfPaired = .next t := by
  refine ⟨by decide +kernel, completionKept_of (by decide +kernel) (by decide +kernel) rfl (fun _ => by decide +kernel),
    ?_, exists_next (by decide +kernel), id, exists_next (by decide +kernel)⟩
  show ¬ (3 % 256 = 1 ∨ 3 % 256 = 2)
  decide

/-- A raw clear from `s`, a host that waits and toggles pin 11 if there is one, and then command `j`. -/
theorem exists_raw {s : State} {n : Nat} {j : Instr} {evs : List Event}
    (h : passes (exec (.sendInstruction n) s) (fun t =>
      decide (t.after evs).ready && passes (exec j (t.after evs)) fun _ => true) = true)
    (hn : ∀ e ∈ evs, ∀ p l, e = .wr p l → ¬ isBusPin s.cfg.raw p) :
    ∃ t v u new, exec (.sendInstruction n) s = .next t ∧ v.ready ∧ v.cfg = t.cfg ∧ v.trace = t.trace ++ new
      ∧ (∀ x ∈ new, ∀ p l, x.1 = .wr p l → ¬ isBusPin s.cfg.raw p) ∧ t.now ≤ v.now ∧ exec j v = .next u := by
  cases hr : exec (.sendInstruction n) s with
  | next t =>
    rw [hr] at h
    obtain ⟨h1, h2⟩ := Bool.and_eq_true_iff.1 h
    obtain ⟨u, hu⟩ := exists_next h2
    refine ⟨t, t.after evs, u, _, rfl, of_decide_eq_true h1, rfl, rfl, fun x hx p l e => ?_, le_endTime _ _ _, hu⟩
    exact hn x.1 (by simpa using List.mem_map_of_mem (f := (·.1)) hx) p l e
  | fault f => cases f
  | refused q => rw [hr] at h; cases h

theorem witness_RawClearIsFlaggedWhenTooEarly :
    (halfPaired.ready ∧ halfPaired.quiet ∧ halfPaired.explained) ∧ halfPaired.completionKept ∧ isRawClear (.sendInstruction 1)
      ∧ (∃ t v u new, exec (.sendInstruction 1) halfPaired = .next t ∧ v.ready ∧ v.cfg = t.cfg ∧ v.trace = t.trace ++ new
        ∧ (∀ x ∈ new, ∀ p l, x.1 = .wr p l → ¬ isBusPin halfPaired.cfg.raw p) ∧ t.now ≤ v.now ∧ exec .clear v = .next u)
      ∧ (fullRunning.ready ∧ fullRunning.quiet ∧ fullRunning.explained) ∧ fullRunning.completionKept ∧ isRawClear (.sendInstruction 258)
      ∧ ∃ t v u new, exec (.sendInstruction 258) fullRunning = .next t ∧ v.ready ∧ v.cfg = t.cfg ∧ v.trace = t.trace ++ new
        ∧ (∀ x ∈ new, ∀ p l, x.1 = .wr p l → ¬ isBusPin fullRunning.cfg.raw p) ∧ t.now ≤ v.now
        ∧ exec (.write 0x41) v = .next u :=
  ⟨by decide +kernel, completionKept_of (by decide +kernel) (by decide +kernel) rfl (fun _ => by decide +kernel), .inl rfl,
    exists_raw (evs := []) (by decide +kernel) (by simp), by decide +kernel,
    completionKept_of (by decide +kernel) (by decide +kernel) rfl (fun h => by cases h), .inr rfl,
    exists_raw (evs := [.wait 2000, .wr 11 true]) (by decide +kernel) (by
      intro e he p l hp
      obtain rfl | rfl : e = .wait 2000 ∨ e = .wr 11 true := by simpa using he
      · cases hp
      · cases hp
        show ¬ (11 = 8 ∨ 11 = 10 ∨ 11 ∈ [0, 1, 2, 3, 4, 5, 6, 7])
        decide)⟩

theorem witness_SetLineStoresTheText :
    full.pending = [] ∧ full.rows.length = full.cfg.raw.rowCount ∧ full.cfg.raw.rowCount = 2
      ∧ ({ full with queue := [.setLine 1 [0x48#8]] } : State).queue = .setLine 1 [0x48#8] :: []
      ∧ ((2 : Int) < 0 ∨ (full.cfg.raw.rowCount : Int) ≤ 2) ∧ 1 < full.cfg.raw.rowCount := by decide

theorem witness_DisplayLineSendsTheRow :
    State.ready { fullRunning with queue := [.displayLine 1] }
      ∧ ({ fullRunning with queue := [.displayLine 1] } : State).queue = .displayLine 1 :: []
      ∧ fullRunning.cfg.raw.rowAddr[1]? = some 0x40#7 ∧ (∃ row, fullRunning.rows[1]? = some row)
      ∧ ((-1 : Int) < 0 ∨ (fullRunning.cfg.raw.rowCount : Int) ≤ -1) := ⟨by decide, by decide, by decide, ⟨_, rfl⟩, by decide⟩

theorem witness_PeriodAsksInOrder :
    fullRunning.pending = [] ∧ fullRunning.mode = .running ∧ full.mode = .initializing
      ∧ ({ full with queue := [.period [(0, [])]] } : State).queue = .period [(0, [])] :: [] := by decide

theorem witness_DebugToggleInverts :
    (half.pending = [] ∧ half.cfg.raw.pinDbg = none)
      ∧ full.pending = [] ∧ full.cfg.raw.pinDbg = some 11 ∧ full.dirOf 11 = .output ∧ full.latchOf 11 = .level false
      ∧ ({ full with queue := [.toggleDebug] } : State).queue = .toggleDebug :: [] := by decide

theorem witness_DeadlinesDoNotDrift :
    ({ full with now := 0, wake := 0 } : State).now = ({ full with now := 0, wake := 0 } : State).wake
      ∧ ∀ w ∈ [120, 850, 3, 999], w < full.cfg.raw.period := by decide

theorem witness_BusyWaitLasts :
    full.pending = [] ∧ ({ full with queue := [.busyWait 2000] } : State).queue = .busyWait 2000 :: [] := by decide

end Sys2Proof.Tests
end

section
/-!
PROOFS. The check of the configuration and the bits of its options (00_scope.md R9).
-/

namespace Sys2Proof

/-! ## `cfg_ok` -/

/-- The number of data lines, as the table of R6 gives it. -/
theorem BusWidth.lineCount_eq (w : BusWidth) :
    w.lineCount = (match w with | .half => 4 | .full => 8) := by
  cases w <;> rfl

/-- The bus width has no third value: the first condition of R9 holds by the type. -/
theorem BusWidth.half_or_full (w : BusWidth) : w = .half ∨ w = .full := by
  cases w
  case half => exact .inl rfl
  case full => exact .inr rfl

theorem RawCfg.cfgOk_iff (c : RawCfg) :
    c.cfgOk = true ↔
      c.pinD.length = c.busWidth.lineCount ∧ (c.lines = 1 ∨ c.lines = 2)
        ∧ c.pinIds.Nodup ∧ c.initRow < c.rowCount := by
  simp only [RawCfg.cfgOk, Bool.and_eq_true, Bool.or_eq_true, beq_iff_eq, decide_eq_true_eq, and_assoc]

/-- A checked configuration carries the proof of its check, so a record that fails it is the record of none. -/
theorem RawCfg.not_exists_cfg_of_cfgOk_false {c : RawCfg} (h : c.cfgOk = false) : ¬ ∃ b : Cfg, b.raw = c := by
  rintro ⟨b, rfl⟩
  exact Bool.false_ne_true (h.symm.trans b.ok.1)

end Sys2Proof

namespace Sys2Proof.Machine

/-! ## The option table -/

/-- Full is `DL = 1`. -/
theorem dlBit_eq (c : RawCfg) : dlBit c = (match c.busWidth with | .half => 0 | .full => 1) := by
  unfold dlBit
  cases c.busWidth <;> rfl

theorem nBit_of_lines_one {c : RawCfg} (h : c.lines = 1) : nBit c = 0 := by simp [nBit, h]

theorem nBit_of_lines_two {c : RawCfg} (h : c.lines = 2) : nBit c = 1 := by simp [nBit, h]

/-- Font B is `F = 1`. -/
theorem fBit_eq (c : RawCfg) : fBit c = (match c.font with | .a => 0 | .b => 1) := by
  unfold fBit
  cases c.font <;> rfl

/-- Entry to the right is `ID = 1`. -/
theorem idBit_eq (c : RawCfg) : idBit c = (match c.entryDir with | .right => 1 | .left => 0) := by
  unfold idBit
  cases c.entryDir <;> rfl

/-- Settles O7. `cfgOk` is the conjunction of its conditions (`RawCfg.cfgOk_iff`), the condition on the bus width holding by
its type; the bits `D`, `C`, `B` and `S` are `onBit` of their option by definition, the others have a lemma each. -/
theorem configurationCheckAndOptionBits : Obligations.ConfigurationCheckAndOptionBits := by
  intro c
  refine ⟨?check, RawCfg.not_exists_cfg_of_cfgOk_false, dlBit_eq c, nBit_of_lines_one, nBit_of_lines_two, fBit_eq c,
    rfl, rfl, rfl, idBit_eq c, rfl⟩
  case check =>
    rw [RawCfg.cfgOk_iff, BusWidth.lineCount_eq]
    exact (and_iff_right c.busWidth.half_or_full).symm

end Sys2Proof.Machine
end

section
/-!
PROOFS. The pins: what one event does to them (10_state.md R21, R22, R27, R28), what the events of a command leave on them (R23,
R36), and the two pin invariants of every step.
-/

namespace Sys2Proof.Machine

open Sys2Proof.Claims

/-! ## The effect of one event -/

@[simp] theorem afterEvent_trace (s : State) (e : Event) :
    (s.afterEvent e).trace = s.trace ++ [(e, (s.afterEvent e).now)] := rfl

/-- An event lasts at least its least time (R28). -/
theorem add_minTime_le_afterEvent_now (s : State) (e : Event) : s.now + e.minTime ≤ (s.afterEvent e).now :=
  Nat.le_add_right _ _

theorem le_afterEvent_now (s : State) (e : Event) : s.now ≤ (s.afterEvent e).now :=
  Nat.le_trans (Nat.le_add_right _ _) (add_minTime_le_afterEvent_now s e)

/-- A write configures no pin (R22). -/
theorem afterEvent_wr_dirOf (s : State) (p q : PinId) (v : Level) : (s.afterEvent (.wr p v)).dirOf q = s.dirOf q := by
  simp only [State.dirOf, State.afterEvent, record_pins, Event.onPins, findPin_setLatch_dir]

theorem afterEvent_wr_latchOf_self {s : State} {p : PinId} (h : s.dirOf p = .output) (v : Level) :
    (s.afterEvent (.wr p v)).latchOf p = .level v :=
  (latchIn_setLatch p p v s.pins).trans (if_pos ⟨rfl, mem_ids_of_output h⟩)

theorem afterEvent_wr_latchOf_ne (s : State) {p q : PinId} (h : q ≠ p) (v : Level) :
    (s.afterEvent (.wr p v)).latchOf q = s.latchOf q :=
  (latchIn_setLatch q p v s.pins).trans (if_neg fun hq => h hq.1)

/-- Settles O8. An admitted event is performed (`emit_of_admits`); what it leaves is read from the laws of the pin file. -/
theorem eventsDoWhatTheySay : Obligations.EventsDoWhatTheySay := by
  intro s p
  refine ⟨⟨s.afterEvent (.cfg p), rfl, fun hp => ?own, fun q hq => ?others, fun q => latchIn_setOutput q p s.pins,
    le_afterEvent_now s _, rfl⟩, fun v hd => by simp [emit, hd], fun v hd => ?write, fun d => ?wait⟩
  case own => exact (dirOf_setOutput s p p).trans (if_pos ⟨rfl, hp⟩)
  case others => exact (dirOf_setOutput s q p).trans (if_neg fun h => hq h.1)
  case write =>
    refine ⟨s.afterEvent (.wr p v), emit_of_admits ?_, afterEvent_wr_latchOf_self hd v,
      fun q hq => afterEvent_wr_latchOf_ne s hq v, fun q => afterEvent_wr_dirOf s p q v, le_afterEvent_now s _, rfl⟩
    rintro q w ⟨⟩
    exact hd
  case wait => exact ⟨s.afterEvent (.wait d), rfl, rfl, add_minTime_le_afterEvent_now s (.wait d), rfl⟩

/-! ## The events of a command -/

/-- A command leaves every pin but RS, E and the data lines as it was (R23). -/
theorem latchIn_eventsOf_of_not_busPin {c : RawCfg} {q : PinId} (h : ¬ isBusPin c q) (i : Instr) (cs : List PinCell) :
    latchIn q ((eventsOf c i).foldl (fun cs e => e.onPins cs) cs) = latchIn q cs :=
  latchIn_foldl_of_not_written _ _ _ fun _ hw => h (wr_mem_eventsOf hw)

theorem latchIn_pinE_send (c : Cfg) (rs : Level) (b : Byte) {cs : List PinCell} (hids : ∀ p ∈ c.raw.pinIds, p ∈ idsOf cs) :
    latchIn c.raw.pinE ((send c.raw rs b).foldl (fun cs e => e.onPins cs) cs) = .level false := by
  obtain ⟨-, hE, -⟩ := latchIn_sendPins c rs b cs hids
  rw [send_onPins, hE]

theorem latchIn_pinE_issueByte (c : Cfg) (b : Byte) (post : Option Nat) {cs : List PinCell}
    (hids : ∀ p ∈ c.raw.pinIds, p ∈ idsOf cs) :
    latchIn c.raw.pinE ((issueByte c.raw b post).foldl (fun cs e => e.onPins cs) cs) = .level false := by
  rw [issueByte, List.foldl_append, latchIn_foldl_of_not_written _ _ _ (by simp)]
  exact latchIn_pinE_send c false b hids

/-- A command leaves E low (R36). -/
theorem latchIn_pinE_eventsOf (c : Cfg) (i : Instr) {cs : List PinCell} (hids : ∀ p ∈ c.raw.pinIds, p ∈ idsOf cs)
    (hE : latchIn c.raw.pinE cs = .level false) :
    latchIn c.raw.pinE ((eventsOf c.raw i).foldl (fun cs e => e.onPins cs) cs) = .level false := by
  cases i with
  | init => exact hE
  | initNibble =>
    obtain ⟨hlow, -⟩ := latchIn_pulsePins c (hi (encFuncset 0 (nBit c.raw) (fBit c.raw)))
      (setLatch c.raw.pinRS false cs) fun p hp => by rw [setLatch_ids]; exact hids p hp
    rw [eventsOf, List.foldl_cons, pulse_onPins]
    exact hlow
  | sendInstruction b => exact latchIn_pinE_send c false _ hids
  | write b => exact latchIn_pinE_send c true _ hids
  | _ => exact latchIn_pinE_issueByte c _ _ hids

theorem pinRW_not_busPin (c : Cfg) : ¬ isBusPin c.raw c.raw.pinRW := by
  obtain ⟨hRS, -, hE, -, hD, -⟩ := Cfg.distinct c
  rintro (h | h | h)
  · exact hRS h.symm
  · exact hE h
  · exact hD h

/-! ## Quiet states (R36) -/

theorem mem_ids_of_pinsReady {s : State} (h : s.pinsReady) : ∀ p ∈ s.cfg.raw.pinIds, p ∈ idsOf s.pins :=
  fun p hp => mem_ids_of_output (h p hp)

/-- Events that write neither E nor RW leave a quiet state quiet. -/
theorem quiet_after_of_not_written {s : State} (h : s.quiet) {evs : List Event}
    (hE : ∀ v, Event.wr s.cfg.raw.pinE v ∉ evs) (hRW : ∀ v, Event.wr s.cfg.raw.pinRW v ∉ evs) : (s.after evs).quiet := by
  obtain ⟨hlow, hwrite, hready⟩ := h
  exact ⟨(latchIn_foldl_of_not_written _ _ _ hE).trans hlow, (latchIn_foldl_of_not_written _ _ _ hRW).trans hwrite,
    after_pinsReady hready evs⟩

/-- The events of a command leave a quiet state quiet. -/
theorem quiet_after_eventsOf {s : State} (h : s.quiet) (i : Instr) : (s.after (eventsOf s.cfg.raw i)).quiet := by
  obtain ⟨hE, hRW, hready⟩ := h
  exact ⟨latchIn_pinE_eventsOf s.cfg i (mem_ids_of_pinsReady hready) hE,
    (latchIn_eventsOf_of_not_busPin (pinRW_not_busPin s.cfg) i s.pins).trans hRW, after_pinsReady hready _⟩

theorem quiet_applyUpdate {s : State} (h : s.quiet) (u : Update) : (applyUpdate s u).quiet := by
  simpa only [State.quiet, State.pinsReady, applyUpdate_cfg, applyUpdate_latchOf, applyUpdate_dirOf] using h

theorem quiet_deadlineWait {s : State} (h : s.quiet) : (deadlineWait s).quiet := by
  simpa only [State.quiet, State.pinsReady, State.latchOf, State.dirOf, deadlineWait_cfg, deadlineWait_pins] using h

/-- Every command, and everything the host does by itself, leaves a quiet state quiet. -/
theorem quiet_commandClosed : CommandClosed State.quiet where
  ready _ h := h.2.2
  pend _ _ h := h
  queue _ _ h := h
  rows _ _ h := h
  dl _ h := quiet_deadlineWait h
  upd _ u h := quiet_applyUpdate h u
  evs _ i h := quiet_after_eventsOf h i
  wait _ _ h := quiet_after_of_not_written h (by simp) (by simp)
  dbg s p v h hp := by
    obtain ⟨-, -, -, -, -, -, -, hdbg⟩ := Cfg.distinct s.cfg
    obtain ⟨-, hRW, hE, -⟩ := hdbg p hp
    exact quiet_after_of_not_written h (by simp [hE.symm]) (by simp [hRW.symm])

/-- Settles O39. Quietness is closed under commands, so it holds again whenever the command in flight has ended. -/
theorem stepKeepsTheBlockSettling : Obligations.StepKeepsTheBlockSettling :=
  fun _ _ hs ht => quiet_commandClosed.step hs ht

/-! ## Pins explained by the trace (R21, R27) -/

theorem watch_snoc (c : RawCfg) (tr : List (Event × Nat)) (x : Event × Nat) :
    watch c (tr ++ [x]) = (watch c tr).see c x := by
  rw [watch, List.foldl_append]
  rfl

/-- Two pin files that agree on a pin agree on it after an event, if a pin that is written is in both. -/
theorem latchIn_onPins_congr {e : Event} {cs ds : List PinCell} {q : PinId} (h : latchIn q cs = latchIn q ds)
    (hw : ∀ v, e = .wr q v → q ∈ idsOf cs ∧ q ∈ idsOf ds) : latchIn q (e.onPins cs) = latchIn q (e.onPins ds) := by
  cases e with
  | cfg p => simpa only [Event.onPins, latchIn_setOutput] using h
  | wait d => exact h
  | wr p v =>
    simp only [Event.onPins, latchIn_setLatch]
    by_cases hq : q = p
    · subst hq
      obtain ⟨hcs, hds⟩ := hw v rfl
      rw [if_pos ⟨rfl, hcs⟩, if_pos ⟨rfl, hds⟩]
    · rw [if_neg fun hh => hq hh.1, if_neg fun hh => hq hh.1, h]

/-- An admitted event writes the same level on the block's pin and on the observer's. -/
theorem explained_afterEvent {s : State} {e : Event} (h : s.explained) (ha : s.admitsEvent e) :
    (s.afterEvent e).explained := by
  intro p hp
  obtain ⟨cs, hcs, hsee⟩ := see_pins s.cfg.raw (watch s.cfg.raw s.trace) e (s.afterEvent e).now
  have hpins : latchIn p (e.onPins s.pins) = latchIn p (e.onPins (watch s.cfg.raw s.trace).pins) := by
    refine latchIn_onPins_congr (h p hp) fun v he => ⟨mem_ids_of_output (ha p v he), ?_⟩
    rw [watch_ids]
    exact hp
  calc (s.afterEvent e).latchOf p
    _ = latchIn p (e.onPins (watch s.cfg.raw s.trace).pins) := hpins
    _ = latchIn p ((watch s.cfg.raw s.trace).see s.cfg.raw (e, (s.afterEvent e).now)).pins := by rw [hcs, hsee]
    _ = latchIn p (watch s.cfg.raw (s.afterEvent e).trace).pins := by rw [afterEvent_trace, watch_snoc]

theorem explained_stepClosed : StepClosed State.explained where
  pend _ _ h := h
  queue _ _ h := h
  rows _ _ h := h
  dl _ h := by
    simpa only [State.explained, State.latchOf, deadlineWait_cfg, deadlineWait_pins, deadlineWait_trace] using h
  upd _ _ h := by simpa only [State.explained, applyUpdate_cfg, applyUpdate_latchOf, applyUpdate_trace] using h
  ev _ _ h ha := explained_afterEvent h ha

/-- Settles O41. Only an event changes a latch, and it is recorded when it does. -/
theorem stepKeepsPinsExplainedByTheTrace : Obligations.StepKeepsPinsExplainedByTheTrace :=
  fun _ _ hs ht => explained_stepClosed.step hs ht

end Sys2Proof.Machine
end

section
/-!
PROOFS. What a step does not read: two runs from related states stay related, and are refused for the same reason
(10_state.md R28, R32).
-/

namespace Sys2Proof.Machine

/-! ## Two runs in lockstep -/

/-- Two outcomes agree up to `R`: related next states, or the same refusal. -/
inductive Result.Agree (R : State → State → Prop) : Result → Result → Prop
  | next {s t : State} : R s t → Result.Agree R (.next s) (.next t)
  | refused (q : Refusal) : Result.Agree R (.refused q) (.refused q)

theorem Result.Agree.andThen {R : State → State → Prop} {r r' : Result} {k k' : State → Result} (h : Result.Agree R r r')
    (hk : ∀ s t, R s t → Result.Agree R (k s) (k' t)) : Result.Agree R (Result.andThen r k) (Result.andThen r' k') := by
  cases h with
  | next hst => exact hk _ _ hst
  | refused q => exact .refused q

theorem Result.Agree.next_of_next {R : State → State → Prop} {r r' : Result} {t : State} (h : Result.Agree R r r')
    (ht : r = .next t) : ∃ t', r' = .next t' ∧ R t t' := by
  subst ht
  cases h with
  | next hst => exact ⟨_, rfl, hst⟩

theorem Result.Agree.refused_of_refused {R : State → State → Prop} {r r' : Result} {q : Refusal} (h : Result.Agree R r r')
    (hq : r = .refused q) : r' = .refused q := by
  subst hq
  cases h with
  | refused q => rfl

/-- What a relation of states must satisfy for a command not to tell related states apart: they have all that a command
reads in common, and each operation of a command keeps them related. -/
structure Indistinct (R : State → State → Prop) : Prop where
  cfg : ∀ {s t}, R s t → t.cfg = s.cfg
  pins : ∀ {s t}, R s t → t.pins = s.pins
  mode : ∀ {s t}, R s t → t.mode = s.mode
  pending : ∀ {s t}, R s t → t.pending = s.pending
  pend : ∀ {s t} (l), R s t → R { s with pending := l } { t with pending := l }
  ev : ∀ {s t} (e), R s t → R (s.afterEvent e) (t.afterEvent e)
  upd : ∀ {s t} (u), R s t → R (applyUpdate s u) (applyUpdate t u)

section
variable {R : State → State → Prop} (hR : Indistinct R) {s t : State}
include hR

theorem Indistinct.emit (e : Event) (h : R s t) : Result.Agree R (emit e s) (emit e t) := by
  cases e with
  | cfg p => exact .next (hR.ev (.cfg p) h)
  | wait d => exact .next (hR.ev (.wait d) h)
  | wr p v =>
    have hdir : t.dirOf p = s.dirOf p := by rw [State.dirOf, State.dirOf, hR.pins h]
    simp only [Machine.emit, hdir]
    split
    · exact .next (hR.ev (.wr p v) h)
    · exact .refused _

theorem Indistinct.updates (us : List Update) (h : R s t) : R (us.foldl applyUpdate s) (us.foldl applyUpdate t) := by
  induction us generalizing s t with
  | nil => exact h
  | cons u us ih => exact ih (hR.upd u h)

theorem Indistinct.perform (a : Act) (h : R s t) : Result.Agree R (perform a s) (perform a t) :=
  (hR.emit a.event h).andThen fun _ _ hu => .next (hR.updates a.updates hu)

theorem Indistinct.runActs (as : List Act) (h : R s t) : Result.Agree R (runActs as s) (runActs as t) := by
  induction as generalizing s t with
  | nil => exact .next h
  | cons a as ih => exact (hR.perform a h).andThen fun _ _ hu => ih hu

theorem Indistinct.runCommand (i : Instr) (acts : List Act) (h : R s t) :
    Result.Agree R (runCommand i acts s) (runCommand i acts t) := by
  have hby : t.issuedByInit i = s.issuedByInit i := by
    rw [State.issuedByInit, State.issuedByInit, hR.cfg h, hR.pending h]
  have hmode : modeRefusal t.mode i = modeRefusal s.mode i := by rw [hR.mode h]
  rw [Machine.runCommand, Machine.runCommand, hby, hmode, hR.pending h]
  by_cases idle : s.pending = []
  · rw [if_pos idle, if_pos idle]
    cases modeRefusal s.mode i with
    | none => exact hR.runActs acts h
    | some q => exact .refused q
  · rw [if_neg idle, if_neg idle]
    split
    · exact hR.runActs _ (hR.pend _ h)
    · exact .refused _

theorem Indistinct.exec (i : Instr) (h : R s t) : Result.Agree R (exec i s) (exec i t) := by
  rw [exec_eq, exec_eq, hR.cfg h]
  exact hR.runCommand i _ h

theorem Indistinct.issue (i : Instr) (h : R s t) : Result.Agree R (issue i s) (issue i t) := by
  have hacts : actsOfInstr t.cfg.raw i = actsOfInstr s.cfg.raw i := by rw [hR.cfg h]
  have hmode : modeRefusal t.mode i = modeRefusal s.mode i := by rw [hR.mode h]
  rw [Machine.issue, Machine.issue, hacts, hmode, hR.pending h]
  by_cases idle : s.pending = []
  · rw [if_pos idle, if_pos idle]
    cases modeRefusal s.mode i with
    | none => exact .next (hR.pend _ h)
    | some q => exact .refused q
  · rw [if_neg idle, if_neg idle]
    exact .refused _

end

/-! ## The shadow (R32) -/

/-- The states differ in the shadow alone. -/
def SameButShadow (s t : State) : Prop := ∃ sh, t = { s with shadow := sh }

theorem sameButShadow_indistinct : Indistinct SameButShadow where
  cfg h := by obtain ⟨sh, rfl⟩ := h; rfl
  pins h := by obtain ⟨sh, rfl⟩ := h; rfl
  mode h := by obtain ⟨sh, rfl⟩ := h; rfl
  pending h := by obtain ⟨sh, rfl⟩ := h; rfl
  pend l h := by obtain ⟨sh, rfl⟩ := h; exact ⟨sh, rfl⟩
  ev e h := by obtain ⟨sh, rfl⟩ := h; exact ⟨sh, rfl⟩
  upd u h := by obtain ⟨sh, rfl⟩ := h; cases u <;> exact ⟨_, rfl⟩

theorem setLine_with_shadow (index : Int) (text : List Byte) (s : State) (sh : Shadow) :
    setLine index text { s with shadow := sh } = { setLine index text s with shadow := sh } := by
  simp only [setLine]
  split <;> rfl

theorem deadlineWait_with_shadow (s : State) (sh : Shadow) :
    deadlineWait { s with shadow := sh } = { deadlineWait s with shadow := sh } := by
  simp only [deadlineWait]
  split <;> rfl

/-- Serving a request does not read the shadow. -/
theorem serve_with_shadow (r : Request) (s : State) (sh : Shadow) :
    Result.Agree SameButShadow (serve r s) (serve r { s with shadow := sh }) := by
  have h : SameButShadow s { s with shadow := sh } := ⟨sh, rfl⟩
  cases r with
  | call i => exact sameButShadow_indistinct.exec i h
  | word nbits w =>
    simp only [serve]
    split
    · exact sameButShadow_indistinct.exec _ h
    · exact .refused _
  | issue i => exact sameButShadow_indistinct.issue i h
  | setLine index text => exact .next ⟨sh, setLine_with_shadow index text s sh⟩
  | displayLine index => exact .next ⟨sh, rfl⟩
  | period content =>
    simp only [serve, period]
    split
    · exact .next ⟨sh, rfl⟩
    · exact .refused _
  | toggleDebug =>
    simp only [serve, toggleDebug]
    split
    · exact .next h
    · exact sameButShadow_indistinct.emit _ h
  | deadlineWait => exact .next ⟨sh, deadlineWait_with_shadow s sh⟩
  | busyWait d => exact sameButShadow_indistinct.emit (.wait d) h

/-- A step does not read the shadow. -/
theorem step_with_shadow (s : State) (sh : Shadow) :
    Result.Agree SameButShadow (step s) (step { s with shadow := sh }) := by
  have h : SameButShadow s { s with shadow := sh } := ⟨sh, rfl⟩
  simp only [step, advance]
  split
  case h_1 a rest hp =>
    simp only [tick, hp]
    exact sameButShadow_indistinct.perform a (sameButShadow_indistinct.pend rest h)
  case h_2 =>
    split
    case h_1 => exact .next h
    case h_2 r rest _ => exact serve_with_shadow r { s with queue := rest } sh

/-- Settles O48. The steps from the two states agree up to the shadow. -/
theorem nothingReadsTheShadow : Obligations.NothingReadsTheShadow := by
  intro s sh
  refine ⟨fun t ht => ?_, fun r hr => (step_with_shadow s sh).refused_of_refused hr⟩
  obtain ⟨t', ht', sh', rfl⟩ := (step_with_shadow s sh).next_of_next ht
  exact ⟨sh', ht'⟩

/-! ## The clock, the trace and the draws (R27, R28) -/

/-- The states differ in clock, trace, draws and the host's data at most, and have emitted the same events since the one had
emitted `old` and the other `old'`. -/
structure SameButTime (old old' : List Event) (s t : State) : Prop where
  cfg : t.cfg = s.cfg
  pins : t.pins = s.pins
  mode : t.mode = s.mode
  pending : t.pending = s.pending
  shadow : t.shadow = s.shadow
  events : ∃ evs, s.events = old ++ evs ∧ t.events = old' ++ evs

@[simp] theorem afterEvent_events (s : State) (e : Event) : (s.afterEvent e).events = s.events ++ [e] := by
  simp [State.events]

@[simp] theorem applyUpdate_events (s : State) (u : Update) : (applyUpdate s u).events = s.events := by
  rw [State.events, applyUpdate_trace, State.events]

theorem SameButTime.afterEvent {old old' : List Event} {s t : State} (h : SameButTime old old' s t) (e : Event) :
    SameButTime old old' (s.afterEvent e) (t.afterEvent e) where
  cfg := h.cfg
  pins := congrArg e.onPins h.pins
  mode := h.mode
  pending := h.pending
  shadow := h.shadow
  events := by
    obtain ⟨evs, hs, ht⟩ := h.events
    exact ⟨evs ++ [e], by rw [afterEvent_events, hs, List.append_assoc], by rw [afterEvent_events, ht, List.append_assoc]⟩

theorem SameButTime.applyUpdate {old old' : List Event} {s t : State} (h : SameButTime old old' s t) (u : Update) :
    SameButTime old old' (applyUpdate s u) (applyUpdate t u) where
  cfg := by rw [applyUpdate_cfg, applyUpdate_cfg, h.cfg]
  pins := by rw [applyUpdate_pins, applyUpdate_pins, h.pins]
  mode := by cases u <;> simp [h.mode]
  pending := by rw [applyUpdate_pending, applyUpdate_pending, h.pending]
  shadow := by cases u <;> simp [h.shadow]
  events := by simpa only [applyUpdate_events] using h.events

theorem sameButTime_indistinct (old old' : List Event) : Indistinct (SameButTime old old') where
  cfg h := h.cfg
  pins h := h.pins
  mode h := h.mode
  pending h := h.pending
  pend _ h := ⟨h.cfg, h.pins, h.mode, rfl, h.shadow, h.events⟩
  ev e h := h.afterEvent e
  upd u h := h.applyUpdate u

/-- Settles O49. A command does not tell states apart that differ in clock, trace and draws. -/
theorem commandsIgnoreTheClock : Obligations.CommandsIgnoreTheClock := by
  intro i s t now draws trace ht
  have h : SameButTime s.events (trace.map (·.1)) s { s with now := now, draws := draws, trace := trace } :=
    ⟨rfl, rfl, rfl, rfl, rfl, [], (List.append_nil _).symm, (List.append_nil _).symm⟩
  obtain ⟨t', ht', hsame⟩ := ((sameButTime_indistinct _ _).exec i h).next_of_next ht
  obtain ⟨evs, hs, he⟩ := hsame.events
  exact ⟨t', evs, ht', hs, he, hsame.pins, hsame.mode, hsame.shadow, hsame.pending⟩

end Sys2Proof.Machine
end

section
/-!
PROOFS. Admission (10_state.md R22, R24, R25): what the modes and a command in flight turn away, and which command a step runs.
-/

namespace Sys2Proof.Machine

/-! ## The modes -/

theorem modeRefusal_initializing {i : Instr} (h : i ≠ .init) : modeRefusal .initializing i = some .beforeInit := by
  cases i with
  | init => exact absurd rfl h
  | _ => rfl

/-- In Initializing only `INIT` is admitted (R24). -/
theorem eq_init_of_admitted {i : Instr} (h : modeRefusal .initializing i = none) : i = .init := by
  by_contra hi
  rw [modeRefusal_initializing hi] at h
  cases h

theorem exec_of_modeRefusal {i : Instr} {s : State} {r : Refusal} (hp : s.pending = [])
    (hm : modeRefusal s.mode i = some r) : exec i s = .refused r := by
  rw [exec_eq, runCommand_of_refused hp hm]

theorem exec_of_admitted {i : Instr} {s : State} (hp : s.pending = []) (hm : modeRefusal s.mode i = none) :
    exec i s = runActs (actsOfInstr s.cfg.raw i) s := by
  rw [exec_eq, runCommand_of_admitted hp hm]

/-- Settles O30. Both refusals are those of `modeRefusal`. -/
theorem modesTurnCommandsAway : Obligations.ModesTurnCommandsAway := by
  intro s hp
  refine ⟨fun hm i hi => exec_of_modeRefusal hp ?_, fun hm => exec_of_modeRefusal hp ?_⟩
  · rw [hm, modeRefusal_initializing hi]
  · rw [hm]
    rfl

/-! ## An unconfigured pin (R22) -/

theorem actsOfInstr_of_ne_init {i : Instr} (h : i ≠ .init) (c : RawCfg) : actsOfInstr c i = actsBasic c i := by
  cases i with
  | init => exact absurd rfl h
  | _ => rfl

/-- Every command but `INIT` writes RS first (R111, R130). -/
theorem exists_eventsOf_eq_cons (c : RawCfg) {i : Instr} (h : i ≠ .init) :
    ∃ rs es, eventsOf c i = .wr c.pinRS rs :: es := by
  cases i with
  | init => exact absurd rfl h
  | _ => exact ⟨_, _, rfl⟩

/-- The first act of a command performs its first event. -/
theorem exists_actsOf_eq_cons (us : List Update) (e : Event) (es : List Event) :
    ∃ us' rest, actsOf us (e :: es) = ⟨e, us'⟩ :: rest := by
  cases es with
  | nil => exact ⟨_, _, rfl⟩
  | cons f fs => exact ⟨_, _, rfl⟩

/-- Acts whose first event writes an unconfigured pin are refused by that name. -/
theorem runActs_actsOf_wr_of_unconfigured {s : State} {p : PinId} (h : s.dirOf p = .unconfigured) (us : List Update)
    (v : Level) (es : List Event) : runActs (actsOf us (.wr p v :: es)) s = .refused (.pinNotConfigured p) := by
  obtain ⟨us', rest, hacts⟩ := exists_actsOf_eq_cons us (.wr p v) es
  have hperform : perform ⟨.wr p v, us'⟩ s = .refused (.pinNotConfigured p) := by simp [perform, emit, h]
  rw [hacts, runActs, hperform, andThen_refused]

/-- Settles O32. The command is admitted, and the first event it performs is the write of RS. -/
theorem unconfiguredPinStopsACommand : Obligations.UnconfiguredPinStopsACommand := by
  intro s i hp hm hi hn hd
  obtain ⟨rs, es, he⟩ := exists_eventsOf_eq_cons s.cfg.raw hi
  rw [exec_of_admitted hp (by rw [hm, modeRefusal_running hi hn]), actsOfInstr_of_ne_init hi, actsBasic_eq, he]
  exact runActs_actsOf_wr_of_unconfigured hd _ _ _

/-! ## A command in flight (R25) -/

@[simp] theorem afterAct_events (s : State) (a : Act) : (s.afterAct a).events = s.events ++ [a.event] := by
  simp [State.events]

theorem step_of_pending {s : State} {a : Act} {rest : List Act} (h : s.pending = a :: rest) :
    step s = perform a { s with pending := rest } := by
  simp [step, advance, tick, h]

theorem step_of_queue {s : State} {r : Request} {q : List Request} (hp : s.pending = []) (hq : s.queue = r :: q) :
    step s = serve r { s with queue := q } := by
  simp [step, advance, hp, hq]

/-- Settles O31. Neither `exec` nor `issue` admits a command; the step is the first pending act. -/
theorem nothingInterruptsACommand : Obligations.NothingInterruptsACommand := by
  refine ⟨fun s i hp hi => by simp [exec_eq, runCommand, hp, hi], fun s i hp => by simp [issue, hp],
    fun s a rest hp => ⟨step_of_pending hp, fun t ht => ?_⟩⟩
  rw [step_of_pending hp] at ht
  obtain ⟨-, rfl⟩ := perform_eq_next.1 ht
  exact ⟨afterAct_pending _ a, afterAct_queue _ a, afterAct_events _ a⟩

/-! ## The next request (R15, R25, R86) -/

/-- Settles O35. Each clause is the case of `serve` for its request. -/
theorem stepRunsTheDecodedCommand : Obligations.StepRunsTheDecodedCommand := by
  intro s q hp
  refine ⟨fun i hq => step_of_queue hp hq, fun nbits w i hq hw => ?_, fun nbits w hq hw => ?_,
    fun i hq => step_of_queue hp hq, fun hq => by simp [step, advance, hp, hq]⟩
  · simp only [step_of_queue hp hq, serve, hw]
  · simp only [step_of_queue hp hq, serve, hw]

/-- The step that issues a command makes its acts pending. -/
theorem step_of_issue {s : State} {i : Instr} {q : List Request} (hp : s.pending = []) (hm : modeRefusal s.mode i = none)
    (hq : s.queue = .issue i :: q) :
    step s = .next { s with queue := q, pending := actsOfInstr s.cfg.raw i } := by
  simp [step_of_queue hp hq, serve, issue, hp, hm]

/-- Settles O36. One step issues the command, as many ticks as it has acts run it (`ticks_eq_runActs`), and that is the big
step of an admitted command. -/
theorem smallStepsMatchTheBigStep : Obligations.SmallStepsMatchTheBigStep := by
  intro s i q hp hm hq
  have hissue := step_of_issue hp hm hq
  refine ⟨?_, _, hissue, rfl⟩
  have hidle : ({ s with queue := q, pending := [] } : State) = { s with queue := q } := by rw [← hp]
  calc steps ((actsOfInstr s.cfg.raw i).length + 1) s
    _ = steps (actsOfInstr s.cfg.raw i).length { s with queue := q, pending := actsOfInstr s.cfg.raw i } :=
      steps_of_step hissue
    _ = ticks (actsOfInstr s.cfg.raw i).length { s with queue := q, pending := actsOfInstr s.cfg.raw i } :=
      steps_eq_ticks _ _ (Nat.le_refl _)
    _ = runActs (actsOfInstr s.cfg.raw i) { s with queue := q, pending := [] } :=
      ticks_eq_runActs (actsOfInstr s.cfg.raw i) { s with queue := q }
    _ = runActs (actsOfInstr s.cfg.raw i) { s with queue := q } := by rw [hidle]
    _ = exec i { s with queue := q } := (exec_of_admitted (s := { s with queue := q }) hp hm).symm

end Sys2Proof.Machine
end

section
/-!
PROOFS. Frames and step invariants: what a command leaves unchanged (10_state.md R23, R24, R29, R31), and what every step keeps
of the clock, the trace, the mode and the shadow (R24, R27, R28, R30).
-/

namespace Sys2Proof.Machine

open Sys2Proof.Claims

/-! ## What every act of a command leaves alone (R23, R29, R31) -/

/-- What is pending of `INIT` anywhere in its sequence is made of acts of `INIT`. -/
theorem mem_actsInit_of_mem_initRest {c : RawCfg} {done l : List Instr} {i : Instr} {a : Act}
    (hl : initCommands c = done ++ i :: l) (ha : a ∈ initRest c (i :: l)) : a ∈ actsOfInstr c .init := by
  have hi : i ≠ .init := ne_init_of_mem_initCommands c i (by simp [hl])
  have hne : (i :: l).flatMap (actsBasic c) ≠ [] := by simp [actsBasic_ne_nil c hi]
  have hrest : initRest c (initCommands c) = done.flatMap (actsBasic c) ++ initRest c (i :: l) := by
    rw [initRest, hl, List.flatMap_append, endWith_append _ _ _ hne, initRest]
  rw [actsOfInstr, actsInit, hrest]
  exact List.mem_cons_of_mem _ (List.mem_append_right _ ha)

/-- A command that answers a next state has run acts of some command, and nothing else has changed but what is pending. -/
theorem exec_eq_runActs {i : Instr} {s t : State} (h : exec i s = .next t) :
    ∃ as rest, runActs as { s with pending := rest } = .next t ∧ ∀ a ∈ as, ∃ j, a ∈ actsOfInstr s.cfg.raw j := by
  rw [exec_eq] at h
  rcases runCommand_eq_next h with ⟨-, -, hr⟩ | ⟨-, hby, hr⟩
  · exact ⟨_, s.pending, hr, fun a ha => ⟨i, ha⟩⟩
  · obtain ⟨l, hpend, done, hl⟩ := (issuedByInit_iff s i).1 hby
    refine ⟨_, _, hr, fun a ha => ⟨.init, mem_actsInit_of_mem_initRest hl ?_⟩⟩
    rw [← hpend]
    exact List.mem_of_mem_take ha

/-- `t` is `s` but for what a command may change: bus pins' latches, mode, pending acts, shadow, clock, draws and a longer
trace. -/
structure SameButCommand (s t : State) : Prop where
  cfg : t.cfg = s.cfg
  queue : t.queue = s.queue
  rows : t.rows = s.rows
  wake : t.wake = s.wake
  dirOf : ∀ p, t.dirOf p = s.dirOf p
  latchOf : ∀ p, ¬ isBusPin s.cfg.raw p → t.latchOf p = s.latchOf p
  events : ∃ evs, t.events = s.events ++ evs

/-- An event that is no `Cfg` changes no direction (R22). -/
theorem dirOf_afterAct {a : Act} (h : ∀ p, a.event ≠ .cfg p) (s : State) (q : PinId) :
    (s.afterAct a).dirOf q = s.dirOf q := by
  rw [State.dirOf, afterAct_pins, State.dirOf]
  cases he : a.event with
  | cfg p => exact absurd he (h p)
  | wr p v => rw [Event.onPins, findPin_setLatch_dir]
  | wait d => rfl

/-- A pin that the event does not write keeps its latch (R21). -/
theorem latchOf_afterAct {a : Act} {q : PinId} (h : ∀ v, a.event ≠ .wr q v) (s : State) :
    (s.afterAct a).latchOf q = s.latchOf q := by
  rw [State.latchOf, afterAct_pins]
  exact latchIn_foldl_of_not_written [a.event] s.pins q fun v hv => h v (List.mem_singleton.1 hv).symm

/-- An act of a command changes no more than a command may. -/
theorem SameButCommand.afterAct {s t : State} (h : SameButCommand s t) {a : Act} {j : Instr}
    (ha : a ∈ actsOfInstr s.cfg.raw j) : SameButCommand s (t.afterAct a) := by
  obtain ⟨hwr, hcfg, -⟩ := mem_actsOfInstr ha
  obtain ⟨evs, hevs⟩ := h.events
  exact {
    cfg := (afterAct_cfg t a).trans h.cfg
    queue := (afterAct_queue t a).trans h.queue
    rows := (afterAct_rows t a).trans h.rows
    wake := (afterAct_wake t a).trans h.wake
    dirOf := fun p => (dirOf_afterAct hcfg t p).trans (h.dirOf p)
    latchOf := fun p hp => (latchOf_afterAct (fun v hv => hp (hwr p v hv)) t).trans (h.latchOf p hp)
    events := ⟨evs ++ [a.event], by rw [afterAct_events, hevs, List.append_assoc]⟩ }

theorem SameButCommand.of_exec {i : Instr} {s t : State} (h : exec i s = .next t) : SameButCommand s t := by
  obtain ⟨as, rest, hr, has⟩ := exec_eq_runActs h
  refine runActs_induct (P := SameButCommand s) (s := { s with pending := rest }) (fun u a ha hu _ => ?_)
    ⟨rfl, rfl, rfl, rfl, fun _ => rfl, fun _ _ => rfl, [], (List.append_nil _).symm⟩ hr
  obtain ⟨j, hj⟩ := has a ha
  exact hu.afterAct hj

/-- Settles O33. Whatever acts a command runs, they are acts of a command, and each of them leaves all this alone. -/
theorem commandsLeaveOtherStateAlone : Obligations.CommandsLeaveOtherStateAlone := by
  intro i s t h
  have hs := SameButCommand.of_exec h
  exact ⟨hs.cfg, hs.queue, hs.rows, hs.wake, hs.dirOf, hs.latchOf, hs.events⟩

/-! ## The mode and the shadow (R24, R31) -/

/-- With nothing in flight a command other than `INIT` that answers a next state answers its effect. -/
theorem eq_effect_of_exec {i : Instr} {s t : State} (hi : i ≠ .init) (hp : s.pending = []) (h : exec i s = .next t) :
    t = effect i s := by
  obtain ⟨-, hr⟩ := exec_eq_next hp h
  rw [actsOfInstr_of_ne_init hi, actsBasic_eq] at hr
  rw [runActs_eq_next hr, foldl_actsOf _ _ (eventsOf_ne_nil _ hi), effect]

/-- No command but `INIT` changes the mode (R24). -/
theorem effect_mode (i : Instr) (s : State) : (effect i s).mode = s.mode := by cases i <;> rfl

/-- Running acts leaves what is pending behind them. -/
theorem pending_of_runActs {as : List Act} {s t : State} (h : runActs as s = .next t) : t.pending = s.pending := by
  obtain ⟨-, hpend, -⟩ := foldl_afterAct_frame as s
  rw [runActs_eq_next h, hpend]

/-- Settles O34. But for `INIT`, the next state is the command's effect, whose mode and shadow are those of `updatesOf`. -/
theorem commandsChangeTheirOwnShadowFields : Obligations.CommandsChangeTheirOwnShadowFields := by
  intro i s t hp h
  obtain ⟨-, hr⟩ := exec_eq_next hp h
  refine ⟨(pending_of_runActs hr).trans hp, fun hi => by rw [eq_effect_of_exec hi hp h, effect_mode], ?_⟩
  cases i with
  | init => trivial
  | entry id sh => rw [eq_effect_of_exec (by simp) hp h]; exact ⟨rfl, rfl⟩
  | setcg a => rw [eq_effect_of_exec (by simp) hp h]; exact ⟨rfl, rfl⟩
  | setdd a => rw [eq_effect_of_exec (by simp) hp h]; exact ⟨rfl, rfl⟩
  | _ => rw [eq_effect_of_exec (by simp) hp h]; rfl

/-! ## The clock and the trace (R27, R28, R29) -/

/-- `t` comes after `s`: same configuration, no earlier clock, a longer trace, and the times of the trace still in order. -/
structure State.Before (s t : State) : Prop where
  cfg : t.cfg = s.cfg
  now : s.now ≤ t.now
  trace : ∃ new, t.trace = s.trace ++ new
  ordered : s.clockOrdered → t.clockOrdered

theorem State.Before.refl (s : State) : s.Before s := ⟨rfl, Nat.le_refl _, ⟨[], (List.append_nil _).symm⟩, id⟩

/-- Later still, with nothing added to the trace. -/
theorem State.Before.of_trace_eq {s t u : State} (h : s.Before t) (hc : u.cfg = t.cfg) (hn : t.now ≤ u.now)
    (ht : u.trace = t.trace) : s.Before u where
  cfg := hc.trans h.cfg
  now := Nat.le_trans h.now hn
  trace := by rw [ht]; exact h.trace
  ordered hs := by
    obtain ⟨hpair, hle⟩ := h.ordered hs
    rw [State.clockOrdered, ht]
    exact ⟨hpair, fun x hx => Nat.le_trans (hle x hx) hn⟩

/-- An event is stamped with the clock at its end, which is no earlier than any stamp before it. -/
theorem clockOrdered_afterEvent {s : State} (h : s.clockOrdered) (e : Event) : (s.afterEvent e).clockOrdered := by
  obtain ⟨hpair, hle⟩ := h
  have hnow := le_afterEvent_now s e
  constructor
  · rw [afterEvent_trace, List.map_append, List.pairwise_append]
    refine ⟨hpair, List.pairwise_singleton _ _, fun n hn m hm => ?_⟩
    obtain ⟨x, hx, rfl⟩ := List.mem_map.1 hn
    obtain rfl := List.mem_singleton.1 hm
    exact Nat.le_trans (hle x hx) hnow
  · intro x hx
    rcases List.mem_append.1 hx with hx | hx
    · exact Nat.le_trans (hle x hx) hnow
    · obtain rfl := List.mem_singleton.1 hx
      exact Nat.le_refl _

theorem le_deadlineWait_now (s : State) : s.now ≤ (deadlineWait s).now := by
  simp only [deadlineWait]
  split
  case isTrue h => exact h
  case isFalse => exact Nat.le_max_left _ _

theorem before_stepClosed (s : State) : StepClosed s.Before where
  pend _ _ h := h.of_trace_eq rfl (Nat.le_refl _) rfl
  queue _ _ h := h.of_trace_eq rfl (Nat.le_refl _) rfl
  rows _ _ h := h.of_trace_eq rfl (Nat.le_refl _) rfl
  dl t h := h.of_trace_eq (deadlineWait_cfg t) (le_deadlineWait_now t) (deadlineWait_trace t)
  upd t u h := h.of_trace_eq (applyUpdate_cfg t u) (applyUpdate_now t u).ge (applyUpdate_trace t u)
  ev t e h _ := by
    obtain ⟨new, hnew⟩ := h.trace
    exact {
      cfg := h.cfg
      now := Nat.le_trans h.now (le_afterEvent_now t e)
      trace := ⟨new ++ [(e, (t.afterEvent e).now)], by rw [afterEvent_trace, hnew, List.append_assoc]⟩
      ordered := fun hs => clockOrdered_afterEvent (h.ordered hs) e }

/-- Settles O45. Every operation of a step goes on from the state before it. -/
theorem stepOnlyExtendsTheTrace : Obligations.StepOnlyExtendsTheTrace := by
  intro s t h
  have hb := (before_stepClosed s).step (State.Before.refl s) h
  exact ⟨hb.cfg, hb.now, hb.trace, hb.ordered⟩

/-! ## Entering Running (R24) -/

/-- The request calls the command, by its name or by its word. -/
def Request.calls (r : Request) (i : Instr) : Prop :=
  r = .call i ∨ ∃ nbits w, r = .word nbits w ∧ decodeTableWord nbits w = some i

/-- What a step does to the command in flight, the mode and the shadow: it performs a pending act, runs a command or issues
one; anything else leaves them alone. -/
theorem step_command_cases {s t : State} (h : step s = .next t) :
    (∃ a rest, s.pending = a :: rest ∧ t = ({ s with pending := rest } : State).afterAct a)
      ∨ (∃ r rest i, s.pending = [] ∧ s.queue = r :: rest ∧ r.calls i ∧ modeRefusal s.mode i = none
          ∧ runActs (actsOfInstr s.cfg.raw i) { s with queue := rest } = .next t)
      ∨ (∃ i rest, s.pending = [] ∧ t = { s with queue := rest, pending := actsOfInstr s.cfg.raw i })
      ∨ (t.pending = s.pending ∧ t.mode = s.mode ∧ t.shadow = s.shadow) := by
  rcases step_eq_next h with ⟨a, rest, hp, -, rfl⟩ | ⟨-, -, rfl⟩ | ⟨r, rest, hp, hq, hr⟩
  · exact .inl ⟨a, rest, hp, rfl⟩
  · exact .inr (.inr (.inr ⟨rfl, rfl, rfl⟩))
  · rcases serve_eq_next (s := { s with queue := rest }) hp hr with ⟨i, hi, hm, hx⟩ | ⟨i, -, -, rfl⟩ |
      ⟨index, text, -, rfl⟩ | ⟨index, -, rfl⟩ | ⟨content, -, -, rfl⟩ | ⟨-, -, rfl⟩ | ⟨p, -, -, -, rfl⟩ | ⟨-, rfl⟩ |
      ⟨d, -, rfl⟩
    · exact .inr (.inl ⟨r, rest, i, hp, hq, hi, hm, hx⟩)
    · exact .inr (.inr (.inl ⟨i, rest, hp, rfl⟩))
    · exact .inr (.inr (.inr ⟨setLine_pending .., setLine_mode .., setLine_shadow ..⟩))
    · exact .inr (.inr (.inr ⟨rfl, rfl, rfl⟩))
    · exact .inr (.inr (.inr ⟨rfl, rfl, rfl⟩))
    · exact .inr (.inr (.inr ⟨rfl, rfl, rfl⟩))
    · exact .inr (.inr (.inr ⟨rfl, rfl, rfl⟩))
    · exact .inr (.inr (.inr ⟨deadlineWait_pending _, deadlineWait_mode _, deadlineWait_shadow _⟩))
    · exact .inr (.inr (.inr ⟨rfl, rfl, rfl⟩))

theorem running_stepClosed : StepClosed (·.mode = .running) where
  pend _ _ h := h
  queue _ _ h := h
  rows _ _ h := h
  dl s h := (deadlineWait_mode s).trans h
  upd s u h := by
    cases u with
    | enterRunning => rfl
    | _ => exact h
  ev _ _ h _ := h

/-- Assignments without `enterRunning` leave the mode. -/
theorem foldl_applyUpdate_mode {us : List Update} (h : .enterRunning ∉ us) (s : State) :
    (us.foldl applyUpdate s).mode = s.mode := by
  induction us generalizing s with
  | nil => rfl
  | cons u us ih =>
    obtain ⟨hu, hus⟩ := not_or.1 (mt List.mem_cons.2 h)
    rw [List.foldl_cons, ih hus]
    cases u with
    | enterRunning => exact absurd rfl hu
    | _ => rfl

/-- `INIT` has no word (R83). -/
theorem decode_ne_init (w : BusWord) : decode w ≠ some .init := by
  cases w with
  | bus9 w => simp only [decode, decodeBus9]; split_ifs <;> simp
  | nib5 w => simp only [decode, decodeNib5]; split_ifs <;> simp

/-- A word never calls `INIT`, so only a call by name does. -/
theorem Request.eq_call_of_calls_init {r : Request} (h : r.calls .init) : r = .call .init := by
  rcases h with h | ⟨nbits, w, -, hw⟩
  · exact h
  · obtain ⟨b, -, hb⟩ := Option.bind_eq_some_iff.1 hw
    exact absurd hb (decode_ne_init b)

/-- Settles O46. Of the cases of a step, a pending act changes the mode by its assignments only, and a command admitted in
Initializing is `INIT`. -/
theorem onlyInitEntersRunning : Obligations.OnlyInitEntersRunning := by
  intro s t h
  refine ⟨fun hs => running_stepClosed.step hs h, fun hs ht => ?_⟩
  have hne : t.mode ≠ s.mode := by rw [hs, ht]; simp
  rcases step_command_cases h with ⟨a, rest, hp, rfl⟩ | ⟨r, rest, i, hp, hq, hi, hm, -⟩ | ⟨i, rest, -, rfl⟩ | ⟨-, hmode, -⟩
  · refine .inr ⟨a, rest, hp, ?_⟩
    by_contra hu
    exact hne (foldl_applyUpdate_mode hu _)
  · rw [hs] at hm
    obtain rfl := eq_init_of_admitted hm
    rw [hq, Request.eq_call_of_calls_init hi]
    exact .inl ⟨hp, rfl⟩
  · exact absurd rfl hne
  · exact absurd hmode hne

/-! ## The shadow in range (R30) -/

theorem inRange_of_mem_updatesOf {i : Instr} {u : Update} (h : u ∈ updatesOf i) : u.inRange := by
  cases i with
  | entry id s => rw [List.mem_singleton.1 h]; trivial
  | setcg a => rw [List.mem_singleton.1 h]; exact Nat.mod_lt a (by decide)
  | setdd a => rw [List.mem_singleton.1 h]; exact Nat.mod_lt a (by decide)
  | _ => exact absurd h List.not_mem_nil

/-- Every assignment of a command is in range (R31). -/
theorem inRange_of_mem_actsOfInstr {c : RawCfg} {i : Instr} {a : Act} (ha : a ∈ actsOfInstr c i) :
    ∀ u ∈ a.updates, u.inRange := by
  intro u hu
  obtain ⟨-, -, hupd⟩ := mem_actsOfInstr ha
  rcases hupd u hu with ⟨rfl, -⟩ | ⟨j, hj⟩
  · trivial
  · exact inRange_of_mem_updatesOf hj

theorem applyUpdate_shadow_inRange {s : State} {u : Update} (hs : s.shadow.inRange) (hu : u.inRange) :
    (applyUpdate s u).shadow.inRange := by
  cases u with
  | enterRunning => exact hs
  | entry id sh => exact hs
  | address ram a =>
    cases ram with
    | unknown => exact hu.elim
    | ddram => exact hu
    | cgram => exact hu

theorem afterAct_shadow_inRange {s : State} {a : Act} (hs : s.shadow.inRange) (ha : ∀ u ∈ a.updates, u.inRange) :
    (s.afterAct a).shadow.inRange :=
  List.foldlRecOn a.updates applyUpdate (motive := fun t : State => t.shadow.inRange) hs
    fun _ ht u hu => applyUpdate_shadow_inRange ht (ha u hu)

/-- Settles O43. Every assignment of a command is in range, whether it is made at once or becomes pending. -/
theorem stepKeepsTheShadowInRange : Obligations.StepKeepsTheShadowInRange := by
  rintro s t ⟨hsh, hpend⟩ h
  rcases step_command_cases h with ⟨a, rest, hp, rfl⟩ | ⟨r, rest, i, hp, -, -, -, hr⟩ | ⟨i, rest, -, rfl⟩ | ⟨hpt, -, hsht⟩
  · rw [hp] at hpend
    refine ⟨afterAct_shadow_inRange hsh (hpend a List.mem_cons_self), fun b hb => ?_⟩
    rw [afterAct_pending] at hb
    exact hpend b (List.mem_cons_of_mem _ hb)
  · have hsht : t.shadow.inRange := runActs_induct (P := fun u => u.shadow.inRange) (s := { s with queue := rest })
      (fun _ _ ha hu _ => afterAct_shadow_inRange hu (inRange_of_mem_actsOfInstr ha)) hsh hr
    have hpt : t.pending = [] := (pending_of_runActs hr).trans hp
    exact ⟨hsht, by simp [hpt]⟩
  · exact ⟨hsh, fun a ha => inRange_of_mem_actsOfInstr ha⟩
  · rw [State.shadowInRange, hpt, hsht]
    exact ⟨hsh, hpend⟩

end Sys2Proof.Machine
end

section
/-!
PROOFS. Power-up and reset (10_state.md R35, 70_reset_and_hazards.md R185): performing what is pending at power-up ends in the
reset state, whose fields are those of the table and which has every invariant of the steps.
-/

namespace Sys2Proof.Machine

open Sys2Proof.Claims

/-! ## A pin file built from a list of pins -/

theorem findPin_map_mk (p : PinId) (f : PinId → PinCell) (hf : ∀ q, (f q).id = q) (ps : List PinId) :
    findPin p (ps.map f) = if p ∈ ps then some (f p) else none := by
  induction ps with
  | nil => rfl
  | cons q qs ih =>
    by_cases hq : q = p
    · simp [findPin, hf, hq]
    · simp [findPin, hf, hq, ih, Ne.symm hq]

theorem latchIn_unwritten (p : PinId) (d : Dir) (ps : List PinId) :
    latchIn p (ps.map fun q => ⟨q, d, .unwritten⟩) = .unwritten := by
  rw [latchIn, findPin_map_mk p (fun q => ⟨q, d, .unwritten⟩) fun _ => rfl]
  split <;> rfl

/-- Configuring pins makes outputs of their cells. -/
theorem foldl_cfg_onPins (ps : List PinId) (cs : List PinCell) :
    (ps.map Event.cfg).foldl (fun cs e => e.onPins cs) cs
      = cs.map fun c => if c.id ∈ ps then { c with dir := .output } else c := by
  induction ps generalizing cs with
  | nil => simp
  | cons p ps ih =>
    rw [List.map_cons, List.foldl_cons, ih, Event.onPins, setOutput, List.map_map]
    refine List.map_congr_left fun c _ => ?_
    by_cases hp : c.id = p <;> by_cases hps : c.id ∈ ps <;> simp [hp, hps]

/-- Writing pins low does so in their cells. -/
theorem foldl_wr_onPins (ps : List PinId) (cs : List PinCell) :
    (ps.map (Event.wr · false)).foldl (fun cs e => e.onPins cs) cs
      = cs.map fun c => if c.id ∈ ps then { c with latch := .level false } else c := by
  induction ps generalizing cs with
  | nil => simp
  | cons p ps ih =>
    rw [List.map_cons, List.foldl_cons, ih, Event.onPins, setLatch, List.map_map]
    refine List.map_congr_left fun c _ => ?_
    by_cases hp : c.id = p <;> by_cases hps : c.id ∈ ps <;> simp [hp, hps]

/-! ## The reset sequence (R185) -/

/-- The pins that the reset sequence writes low (R185). -/
def lowPins (c : RawCfg) : List PinId := [c.pinE, c.pinRW] ++ c.pinDbg.toList

theorem mem_lowPins {c : RawCfg} {p : PinId} : p ∈ lowPins c ↔ p = c.pinE ∨ p = c.pinRW ∨ c.pinDbg = some p := by
  simp [lowPins]

/-- The reset sequence configures every pin and then writes the low ones. -/
theorem resetEvents_eq (c : RawCfg) : resetEvents c = c.pinIds.map .cfg ++ (lowPins c).map (.wr · false) := by
  simp [resetEvents, lowPins]

theorem mem_pinIds_of_mem_lowPins {c : RawCfg} {p : PinId} (h : p ∈ lowPins c) : p ∈ c.pinIds := by
  rw [mem_lowPins] at h
  rcases h with rfl | rfl | h <;> simp [RawCfg.pinIds, *]

theorem resetLatch_of_mem {c : RawCfg} {p : PinId} (h : p ∈ lowPins c) : resetLatch c p = .level false :=
  if_pos (mem_lowPins.1 h)

theorem resetLatch_of_not_mem {c : RawCfg} {p : PinId} (h : p ∉ lowPins c) : resetLatch c p = .unwritten :=
  if_neg (mt mem_lowPins.2 h)

/-- RS and the data lines are not written by the reset sequence (R35). -/
theorem not_mem_lowPins (c : Cfg) : c.raw.pinRS ∉ lowPins c.raw ∧ ∀ p ∈ c.raw.pinD, p ∉ lowPins c.raw := by
  obtain ⟨hRSRW, hRSE, -, -, hRWD, hED, -, hdbg⟩ := Cfg.distinct c
  simp only [mem_lowPins, not_or]
  refine ⟨⟨hRSE, hRSRW, fun h => ?_⟩, fun p hp => ⟨fun h => hED (h ▸ hp), fun h => hRWD (h ▸ hp), fun h => ?_⟩⟩
  · obtain ⟨hRS, -⟩ := hdbg _ h
    exact hRS rfl
  · obtain ⟨-, -, -, hD⟩ := hdbg _ h
    exact hD hp

/-- Acts that assign nothing leave what their events leave. -/
theorem runActs_events {es : List Event} {s : State} (h : ∀ p v, Event.wr p v ∈ es → s.dirOf p = .output) :
    runActs (es.map fun e => ⟨e, []⟩) s = .next (s.after es) := by
  have hfold : (es.map fun e => (⟨e, []⟩ : Act)).foldl State.afterAct s = s.after es := by
    clear h
    induction es generalizing s with
    | nil => exact (after_nil s).symm
    | cons e es ih => rw [after_cons, ← ih]; rfl
  rw [runActs_of_admits, hfold]
  rintro a ha p v hw
  obtain ⟨e, he, rfl⟩ := List.mem_map.1 ha
  exact h p v (hw ▸ he)

/-- The state in the middle of the reset sequence: every pin an output, none written. -/
theorem powerUp_after_cfg_pins (c : Cfg) :
    ((State.powerUp c).after (c.raw.pinIds.map .cfg)).pins = c.raw.pinIds.map fun p => ⟨p, .output, .unwritten⟩ := by
  rw [after_pins, foldl_cfg_onPins, State.powerUp, List.map_map]
  exact List.map_congr_left fun p hp => if_pos hp

/-- What the whole reset sequence leaves of the pin file (R35). -/
theorem powerUp_after_resetEvents_pins (c : Cfg) : ((State.powerUp c).after (resetEvents c.raw)).pins = (State.resetFor c).pins := by
  rw [resetEvents_eq, after_append, after_pins, powerUp_after_cfg_pins, foldl_wr_onPins, List.map_map, State.resetFor]
  refine List.map_congr_left fun p _ => ?_
  by_cases hp : p ∈ lowPins c.raw
  · simp [hp, resetLatch_of_mem hp]
  · simp [hp, resetLatch_of_not_mem hp]

/-- There every low pin can be written (R22). -/
theorem powerUp_after_cfg_dirOf {c : Cfg} {p : PinId} (h : p ∈ lowPins c.raw) :
    ((State.powerUp c).after (c.raw.pinIds.map .cfg)).dirOf p = .output := by
  rw [State.dirOf, powerUp_after_cfg_pins, findPin_map_mk p (fun q => ⟨q, .output, .unwritten⟩) (fun _ => rfl),
    if_pos (mem_pinIds_of_mem_lowPins h)]
  rfl

/-- The events of the reset sequence turn the state at power-up into the reset state. -/
theorem powerUp_after_resetEvents (c : Cfg) :
    ({ State.powerUp c with pending := [] } : State).after (resetEvents c.raw) = State.resetFor c := by
  have hpins := powerUp_after_resetEvents_pins c
  rw [after_pins] at hpins
  simp only [State.after]
  rw [hpins]
  simp [State.powerUp, State.resetFor]

/-- Performing what is pending at power-up ends in the reset state (R185). -/
theorem powerUp_drained (c : Cfg) : (State.powerUp c).drained = .next (State.resetFor c) := by
  have hcfg : ∀ p v, Event.wr p v ∈ c.raw.pinIds.map .cfg →
      ({ State.powerUp c with pending := [] } : State).dirOf p = .output := by simp
  have hlow : ∀ p v, Event.wr p v ∈ (lowPins c.raw).map (Event.wr · false) →
      (({ State.powerUp c with pending := [] } : State).after (c.raw.pinIds.map .cfg)).dirOf p = .output := by
    intro p v hm
    obtain ⟨q, hq, ⟨⟩⟩ := List.mem_map.1 hm
    exact powerUp_after_cfg_dirOf hq
  have hp : (State.powerUp c).pending = (resetEvents c.raw).map fun e => ⟨e, []⟩ := rfl
  rw [State.drained, hp, resetEvents_eq, List.map_append, runActs_append, runActs_events hcfg, andThen_next,
    runActs_events hlow, ← after_append, ← resetEvents_eq, powerUp_after_resetEvents]

/-! ## The fields of the reset state (R35) -/

@[simp] theorem resetFor_cfg (c : Cfg) : (State.resetFor c).cfg = c := rfl

theorem resetFor_dirOf {c : Cfg} {p : PinId} (h : p ∈ c.raw.pinIds) : (State.resetFor c).dirOf p = .output := by
  rw [State.dirOf, State.resetFor, findPin_map_mk p (fun q => ⟨q, .output, resetLatch c.raw q⟩) (fun _ => rfl), if_pos h]
  rfl

theorem resetFor_latchOf {c : Cfg} {p : PinId} (h : p ∈ c.raw.pinIds) :
    (State.resetFor c).latchOf p = resetLatch c.raw p := by
  rw [State.latchOf, latchIn, State.resetFor, findPin_map_mk p (fun q => ⟨q, .output, resetLatch c.raw q⟩) (fun _ => rfl),
    if_pos h]
  rfl

theorem resetFor_latchOf_low {c : Cfg} {p : PinId} (h : p ∈ lowPins c.raw) :
    (State.resetFor c).latchOf p = .level false := by
  rw [resetFor_latchOf (mem_pinIds_of_mem_lowPins h), resetLatch_of_mem h]

theorem resetFor_events (c : Cfg) : (State.resetFor c).events = resetEvents c.raw := stamps_events 0 0 _

theorem minTime_of_mem_resetEvents {c : RawCfg} {e : Event} (h : e ∈ resetEvents c) : e.minTime = 0 := by
  rw [resetEvents_eq, List.mem_append] at h
  rcases h with h | h <;> obtain ⟨p, -, rfl⟩ := List.mem_map.1 h <;> rfl

theorem drawSum_succ (k : Nat) : drawSum (k + 1) = drawSum k + Config.draw k := by
  simp [drawSum, List.range_succ]

/-- Events without a least time complete at the sums of their draws (R28, log 5). -/
theorem stamps_times {es : List Event} (h : ∀ e ∈ es, e.minTime = 0) (k : Nat) :
    (stamps k (drawSum k) es).map (·.2) = (List.range' (k + 1) es.length).map drawSum
      ∧ endTime k (drawSum k) es = drawSum (k + es.length) := by
  induction es generalizing k with
  | nil => exact ⟨rfl, rfl⟩
  | cons e es ih =>
    have hk : drawSum k + e.minTime + Config.draw k = drawSum (k + 1) := by
      rw [h e List.mem_cons_self, Nat.add_zero, drawSum_succ]
    obtain ⟨hstamps, hend⟩ := ih (fun e' he => h e' (List.mem_cons_of_mem _ he)) (k + 1)
    constructor
    · rw [stamps, hk, List.map_cons, hstamps, List.length_cons, List.range'_succ, List.map_cons]
    · rw [endTime, hk, hend, List.length_cons, Nat.add_assoc, Nat.add_comm 1]

theorem resetFor_times (c : Cfg) :
    (State.resetFor c).trace.map (·.2) = (List.range (State.resetFor c).draws).map (fun k => drawSum (k + 1))
      ∧ (State.resetFor c).now = drawSum (State.resetFor c).draws := by
  obtain ⟨hstamps, hend⟩ := stamps_times (fun e he => minTime_of_mem_resetEvents (c := c.raw) he) 0
  refine ⟨hstamps.trans ?_, hend.trans (congrArg drawSum (Nat.zero_add _))⟩
  rw [List.range'_eq_map_range, List.map_map]
  exact List.map_congr_left fun k _ => congrArg drawSum (show 0 + 1 + k = k + 1 by omega)

/-- The rows at reset hold terminators only, and there is room for one (R141, log 14). -/
theorem head?_of_mem_emptyRows {c : Cfg} {row : List Byte} (h : row ∈ emptyRows c.raw) :
    row = List.replicate c.raw.rowCapacity 0x00#8 ∧ row.head? = some 0x00#8 := by
  obtain rfl : row = List.replicate c.raw.rowCapacity 0x00#8 := List.eq_of_mem_replicate h
  obtain ⟨n, hn⟩ := Nat.exists_eq_succ_of_ne_zero (Nat.ne_of_gt (Cfg.rowCapacity_pos c))
  exact ⟨rfl, by rw [hn]; rfl⟩

/-- Settles O38. The pins and the stamps have their lemmas above; the other fields are those of the definition. -/
theorem resetLeavesTheTable : Obligations.ResetLeavesTheTable := by
  intro c
  obtain ⟨hRS, hD⟩ := not_mem_lowPins c
  obtain ⟨htimes, hnow⟩ := resetFor_times c
  obtain ⟨hrows, -⟩ := emptyRows_shaped c
  refine ⟨rfl, fun p hp => resetFor_dirOf hp, resetFor_latchOf_low (by simp [mem_lowPins]),
    resetFor_latchOf_low (by simp [mem_lowPins]), ?rs, fun p hp => ?data,
    fun p hp => resetFor_latchOf_low (by simp [mem_lowPins, hp]), rfl, rfl, rfl,
    fun row hr => (head?_of_mem_emptyRows hr).2, hrows, fun row hr => (head?_of_mem_emptyRows hr).1, ?ids,
    resetFor_events c, (stamps_length 0 0 _).symm, htimes, hnow, rfl, rfl, rfl⟩
  case rs => rw [resetFor_latchOf (busPin_mem (.inl rfl)), resetLatch_of_not_mem hRS]
  case data => rw [resetFor_latchOf (busPin_mem (.inr (.inr hp))), resetLatch_of_not_mem (hD p hp)]
  case ids => simp [State.resetFor, Function.comp_def]

/-! ## The invariants at reset -/

/-- What the operations of a step keep holds at reset if it holds at power-up. -/
theorem StepClosed.resetFor {P : State → Prop} (h : StepClosed P) {c : Cfg}
    (hP : P { State.powerUp c with pending := [] }) : P (State.resetFor c) :=
  runActs_induct (fun _ a _ hs ha => h.afterAct a hs ha) hP (powerUp_drained c)

theorem resetFor_quiet (c : Cfg) : (State.resetFor c).quiet :=
  ⟨resetFor_latchOf_low (by simp [mem_lowPins]),
    resetFor_latchOf_low (by simp [mem_lowPins]), fun _ hp => resetFor_dirOf hp⟩

theorem resetFor_explained (c : Cfg) : (State.resetFor c).explained := by
  refine explained_stepClosed.resetFor fun p _ => ?_
  exact (latchIn_unwritten p .unconfigured _).trans (latchIn_unwritten p .output _).symm

theorem resetFor_clockOrdered (c : Cfg) : (State.resetFor c).clockOrdered := by
  have hstart : ({ State.powerUp c with pending := [] } : State).clockOrdered :=
    ⟨List.Pairwise.nil, fun _ hx => absurd hx List.not_mem_nil⟩
  exact ((before_stepClosed _).resetFor (State.Before.refl { State.powerUp c with pending := [] })).ordered hstart

/-- The observer has seen levels of pins and nothing else, and E is not high. -/
def Watch.still (c : RawCfg) (w : Watch) : Prop :=
  w = { Watch.start c with pins := w.pins } ∧ latchIn c.pinE w.pins ≠ .level true

theorem still_start (c : RawCfg) : (Watch.start c).still c := by
  refine ⟨rfl, ?_⟩
  rw [Watch.start, latchIn_unwritten]
  simp

/-- An event that writes no pin, or writes one other than RS and the data lines low, shows the observer a level at most. -/
theorem still_see {c : RawCfg} {w : Watch} (h : w.still c) {e : Event}
    (he : ∀ p v, e = .wr p v → v = false ∧ p ≠ c.pinRS ∧ p ∉ c.pinD) (t : Nat) : (w.see c (e, t)).still c := by
  cases e with
  | cfg p => exact h
  | wait d => exact h
  | wr p v =>
    obtain ⟨rfl, hRS, hD⟩ := he p v rfl
    obtain ⟨hw, hE⟩ := h
    have hsee : w.see c (.wr p false, t) = { w with pins := setLatch p false w.pins } := by
      by_cases hp : p = c.pinE <;> simp [Watch.see, hp, hRS, hD, hE]
    rw [hsee]
    refine ⟨by rw [hw], ?_⟩
    rw [latchIn_setLatch]
    split
    · simp
    · exact hE

theorem still_foldl_see {c : RawCfg} {tr : List (Event × Nat)} {w : Watch} (h : w.still c)
    (htr : ∀ x ∈ tr, ∀ p v, x.1 = .wr p v → v = false ∧ p ≠ c.pinRS ∧ p ∉ c.pinD) : (tr.foldl (Watch.see c) w).still c :=
  List.foldlRecOn tr (Watch.see c) (motive := Watch.still c) h fun _ hw x hx => still_see hw (htr x hx) x.2

/-- The reset sequence shows the observer no edge and no data (R35, D15). -/
theorem watch_resetFor_still (c : Cfg) : (watch c.raw (State.resetFor c).trace).still c.raw := by
  refine still_foldl_see (still_start c.raw) fun x hx p v he => ?_
  have hm : Event.wr p v ∈ resetEvents c.raw := by
    rw [← resetFor_events c, ← he]
    exact List.mem_map_of_mem hx
  simp only [resetEvents_eq, List.mem_append, List.mem_map, reduceCtorEq, and_false, exists_false, false_or] at hm
  obtain ⟨q, hq, ⟨⟩⟩ := hm
  obtain ⟨hRS, hD⟩ := not_mem_lowPins c
  exact ⟨rfl, fun h => hRS (h ▸ hq), fun h => hD _ h hq⟩

theorem resetFor_pulsesOf (c : Cfg) : pulsesOf c.raw (State.resetFor c).trace = [] := by
  obtain ⟨hw, -⟩ := watch_resetFor_still c
  rw [pulsesOf, hw]
  rfl

theorem resetFor_timed (c : Cfg) : (State.resetFor c).timed := by
  obtain ⟨hw, hE⟩ := watch_resetFor_still c
  rw [State.timed, resetFor_cfg, resetFor_pulsesOf, hw]
  exact ⟨hE, by simp, trivial, by simp, rfl⟩

theorem resetFor_completionKept (c : Cfg) : (State.resetFor c).completionKept := by
  obtain ⟨hw, -⟩ := watch_resetFor_still c
  rw [State.completionKept, resetFor_cfg, clearHazard, resetFor_pulsesOf, hw]
  refine ⟨rfl, ?_, fun _ => rfl, ?_⟩
  · rintro f ⟨⟩
  · rintro ⟨⟩

/-- With nothing in flight the end of the command in flight is the state itself. -/
theorem satisfies_drained_of_idle {s : State} {P : State → Prop} (hp : s.pending = []) (h : P s) :
    Result.satisfies s.drained P := by
  have hs : ({ s with pending := [] } : State) = s := by rw [← hp]
  rw [State.drained, hp, hs, runActs_nil]
  exact h

/-- Settles O47. Each invariant holds at reset, and what is pending at power-up leads there. -/
theorem resetHasTheInvariants : Obligations.ResetHasTheInvariants := by
  intro c
  obtain ⟨-, hRW, -⟩ := resetFor_quiet c
  refine ⟨satisfies_drained_of_idle rfl (resetFor_quiet c), ⟨hRW, fun _ ha => absurd ha List.not_mem_nil⟩, resetFor_explained c,
    satisfies_drained_of_idle rfl ⟨resetFor_quiet c, resetFor_timed c⟩, ⟨trivial, fun _ ha => absurd ha List.not_mem_nil⟩,
    resetFor_clockOrdered c, resetFor_completionKept c, emptyRows_shaped c, ?_, emptyRows_shaped c⟩
  rw [State.settlesQuiet, powerUp_drained]
  exact resetFor_quiet c

end Sys2Proof.Machine
end

section
/-!
PROOFS. The encoder functions as numbers (30_encoding.md R71, R73): the fixed bits of a format and every operand at its
field.
-/

namespace Sys2Proof.Machine

/-- A masked operand fits its field of the byte (R71). -/
theorem maskW_mul_lt (w lo x : Nat) : maskW w x * 2 ^ lo < 2 ^ (lo + w) := by
  rw [Nat.add_comm, Nat.pow_add]
  exact Nat.mul_lt_mul_of_pos_right (Nat.mod_lt x (Nat.two_pow_pos w)) (Nat.two_pow_pos lo)

/-- A field is its masked operand times the weight of its position (R73). -/
theorem field_toNat {w lo : Nat} (h : lo + w ≤ 8) (x : Nat) : (field w lo x).toNat = maskW w x * 2 ^ lo := by
  have hx : maskW w x * 2 ^ lo < 2 ^ 8 := Nat.lt_of_lt_of_le (maskW_mul_lt w lo x) (Nat.pow_le_pow_right (by decide) h)
  have hm : maskW w x < 2 ^ 8 := Nat.lt_of_le_of_lt (Nat.le_mul_of_pos_right _ (Nat.two_pow_pos lo)) hx
  rw [field, BitVec.toNat_shiftLeft, BitVec.toNat_ofNat, Nat.mod_eq_of_lt hm, Nat.shiftLeft_eq, Nat.mod_eq_of_lt hx]

/-- A field OR-ed onto bits that all lie above it is added to them (R73). -/
theorem or_field_toNat {b : Byte} {w lo : Nat} (h : lo + w ≤ 8) (hb : b.toNat % 2 ^ (lo + w) = 0) (x : Nat) :
    (b ||| field w lo x).toNat = b.toNat + maskW w x * 2 ^ lo := by
  obtain ⟨k, hk⟩ := Nat.dvd_of_mod_eq_zero hb
  rw [BitVec.toNat_or, field_toNat h, hk, Nat.two_pow_add_eq_or_of_lt (maskW_mul_lt w lo x)]

/-! ## The eight functions (R92 to R99) -/

theorem encEntry_toNat (x y : Nat) : (encEntry x y).toNat = 0x04 + 2 * (x % 2) + y % 2 := by
  have hid : (0x04#8 ||| field 1 1 x).toNat = 0x04 + x % 2 * 2 := or_field_toNat (by decide) (by decide) x
  rw [encEntry, or_field_toNat (by decide) (by omega), hid, maskW]
  omega

theorem encDispctl_toNat (x y z : Nat) : (encDispctl x y z).toNat = 0x08 + 4 * (x % 2) + 2 * (y % 2) + z % 2 := by
  have hd : (0x08#8 ||| field 1 2 x).toNat = 0x08 + x % 2 * 4 := or_field_toNat (by decide) (by decide) x
  have hc : (0x08#8 ||| field 1 2 x ||| field 1 1 y).toNat = (0x08#8 ||| field 1 2 x).toNat + y % 2 * 2 :=
    or_field_toNat (by decide) (by omega) y
  rw [encDispctl, or_field_toNat (by decide) (by omega), hc, hd, maskW]
  omega

theorem encShift_toNat (x y : Nat) : (encShift x y).toNat = 0x10 + 8 * (x % 2) + 4 * (y % 2) := by
  have hsc : (0x10#8 ||| field 1 3 x).toNat = 0x10 + x % 2 * 8 := or_field_toNat (by decide) (by decide) x
  rw [encShift, or_field_toNat (by decide) (by omega), hsc, maskW]
  omega

theorem encFuncset_toNat (x y z : Nat) :
    (encFuncset x y z).toNat = 0x20 + 16 * (x % 2) + 8 * (y % 2) + 4 * (z % 2) := by
  have hdl : (0x20#8 ||| field 1 4 x).toNat = 0x20 + x % 2 * 16 := or_field_toNat (by decide) (by decide) x
  have hn : (0x20#8 ||| field 1 4 x ||| field 1 3 y).toNat = (0x20#8 ||| field 1 4 x).toNat + y % 2 * 8 :=
    or_field_toNat (by decide) (by omega) y
  rw [encFuncset, or_field_toNat (by decide) (by omega), hn, hdl, maskW]
  omega

theorem encSetcg_toNat (x : Nat) : (encSetcg x).toNat = 0x40 + x % 64 := by
  rw [encSetcg, or_field_toNat (by decide) (by decide), maskW, Nat.pow_zero, Nat.mul_one]
  rfl

theorem encSetdd_toNat (x : Nat) : (encSetdd x).toNat = 0x80 + x % 128 := by
  rw [encSetdd, or_field_toNat (by decide) (by decide), maskW, Nat.pow_zero, Nat.mul_one]
  rfl

@[simp] theorem byteOperand_toNat (x : Nat) : (byteOperand x).toNat = x % 256 := by
  simp [byteOperand, maskW]

@[simp] theorem byteOperand_of_toNat (b : Byte) : byteOperand b.toNat = b :=
  BitVec.eq_of_toNat_eq ((byteOperand_toNat _).trans (Nat.mod_eq_of_lt b.isLt))

/-- Settles O4. A field OR-ed below what is already there is added (`or_field_toNat`), one field after the other. -/
theorem encoderPacksMaskedFields : Obligations.EncoderPacksMaskedFields :=
  fun x y z => ⟨rfl, rfl, encEntry_toNat x y, encDispctl_toNat x y z, encShift_toNat x y, encFuncset_toNat x y z,
    encSetcg_toNat x, encSetdd_toNat x⟩

end Sys2Proof.Machine
end

section
/-!
PROOFS. The rows of the opcode table as conditions on the number of a word (30_encoding.md R71, R72, R86).
-/

namespace Sys2Proof

/-! ## The bits a row fixes -/

/-- Clearing the `k` lowest bits of a word. -/
theorem and_highMask_toNat (w : BitVec 9) (k : Nat) :
    (w &&& BitVec.allOnes 9 <<< k).toNat = 2 ^ k * (w.toNat / 2 ^ k) := by
  have hand : w &&& BitVec.allOnes 9 <<< k = w >>> k <<< k := by
    ext i hi
    by_cases hik : i < k
    · simp [hik]
    · simp only [BitVec.getElem_and, BitVec.getElem_shiftLeft, BitVec.getElem_allOnes, BitVec.getElem_ushiftRight]
      simp [hik, Nat.add_sub_cancel' (Nat.le_of_not_lt hik), hi]
  have hlt : 2 ^ k * (w.toNat / 2 ^ k) < 2 ^ 9 := Nat.lt_of_le_of_lt (Nat.mul_div_le _ _) w.isLt
  rw [hand, BitVec.toNat_shiftLeft, BitVec.toNat_ushiftRight, Nat.shiftRight_eq_div_pow, Nat.shiftLeft_eq, Nat.mul_comm,
    Nat.mod_eq_of_lt hlt]

/-- Keeping the `j` lowest bits of a word. -/
theorem and_lowMask_toNat (w : BitVec 9) {j : Nat} (hj : j ≤ 9) :
    (w &&& BitVec.ofNat 9 (2 ^ j - 1)).toNat = w.toNat % 2 ^ j := by
  have hlt : 2 ^ j - 1 < 2 ^ 9 :=
    Nat.lt_of_lt_of_le (Nat.sub_one_lt (Nat.two_pow_pos j).ne') (Nat.pow_le_pow_right (by decide) hj)
  rw [BitVec.toNat_and, BitVec.toNat_ofNat, Nat.mod_eq_of_lt hlt, Nat.and_two_pow_sub_one_eq_mod]

/-- A row that fixes the bits from bit `k` up to those of `p`, and the `j` lowest to 0 (R71, R74, R86). -/
theorem Row.hit_iff {r : Row} {j k p : Nat} (hjk : j ≤ k) (hj : j ≤ 9)
    (hmask : r.mask = BitVec.allOnes 9 <<< k ||| BitVec.ofNat 9 (2 ^ j - 1)) (hpattern : r.pattern.toNat = 2 ^ k * p)
    (w : BitVec 9) : r.hit w = true ↔ w.toNat / 2 ^ k = p ∧ w.toNat % 2 ^ j = 0 := by
  have hlow : w.toNat % 2 ^ j < 2 ^ k :=
    Nat.lt_of_lt_of_le (Nat.mod_lt _ (Nat.two_pow_pos j)) (Nat.pow_le_pow_right (by decide) hjk)
  have hand : (w &&& r.mask).toNat = 2 ^ k * (w.toNat / 2 ^ k) + w.toNat % 2 ^ j := by
    rw [hmask, BitVec.and_or_distrib_left, BitVec.toNat_or, and_highMask_toNat, and_lowMask_toNat w hj,
      Nat.two_pow_add_eq_or_of_lt hlow]
  rw [Row.hit, beq_iff_eq, ← BitVec.toNat_inj, hand, hpattern]
  constructor
  · intro h
    have hdiv : w.toNat / 2 ^ k = p := by
      have hd := congrArg (· / 2 ^ k) h
      simpa only [Nat.mul_add_div (Nat.two_pow_pos k), Nat.div_eq_of_lt hlow, Nat.add_zero,
        Nat.mul_div_cancel_left _ (Nat.two_pow_pos k)] using hd
    exact ⟨hdiv, by rw [hdiv] at h; omega⟩
  · rintro ⟨rfl, h⟩
    rw [h, Nat.add_zero]

/-- A row that fixes only the bits from bit `k` up. -/
theorem Row.hit_iff_div {r : Row} {k p : Nat} (hmask : r.mask = BitVec.allOnes 9 <<< k)
    (hpattern : r.pattern.toNat = 2 ^ k * p) (w : BitVec 9) : r.hit w = true ↔ w.toNat / 2 ^ k = p := by
  rw [Row.hit_iff (j := 0) (Nat.zero_le k) (by decide) (by rw [hmask]; simp) hpattern, Nat.pow_zero, Nat.mod_one]
  exact and_iff_left rfl

section
variable (w : BitVec 9)

theorem rowClear_hit : rowClear.hit w = true ↔ w.toNat = 1 := by
  rw [Row.hit_iff_div (k := 0) (p := 1) (by decide) (by decide), Nat.pow_zero, Nat.div_one]

theorem rowHome_hit : rowHome.hit w = true ↔ w.toNat = 2 := by
  rw [Row.hit_iff_div (k := 0) (p := 2) (by decide) (by decide), Nat.pow_zero, Nat.div_one]

theorem rowEntry_hit : rowEntry.hit w = true ↔ w.toNat / 4 = 1 :=
  Row.hit_iff_div (k := 2) (by decide) (by decide) w

theorem rowDispctl_hit : rowDispctl.hit w = true ↔ w.toNat / 8 = 1 :=
  Row.hit_iff_div (k := 3) (by decide) (by decide) w

theorem rowShift_hit : rowShift.hit w = true ↔ w.toNat / 16 = 1 ∧ w.toNat % 4 = 0 :=
  Row.hit_iff (j := 2) (k := 4) (by decide) (by decide) (by decide) (by decide) w

theorem rowFuncset_hit : rowFuncset.hit w = true ↔ w.toNat / 32 = 1 ∧ w.toNat % 4 = 0 :=
  Row.hit_iff (j := 2) (k := 5) (by decide) (by decide) (by decide) (by decide) w

theorem rowSetcg_hit : rowSetcg.hit w = true ↔ w.toNat / 64 = 1 :=
  Row.hit_iff_div (k := 6) (by decide) (by decide) w

theorem rowSetdd_hit : rowSetdd.hit w = true ↔ w.toNat / 128 = 1 :=
  Row.hit_iff_div (k := 7) (by decide) (by decide) w

theorem rowWrite_hit : rowWrite.hit w = true ↔ w.toNat / 256 = 1 :=
  Row.hit_iff_div (k := 8) (by decide) (by decide) w

end

/-! ## The most significant 1 bit (R72) -/

/-- The `k`-th specific row holds words whose most significant 1 bit is bit `k`. -/
theorem hit_msb {r : Row} {k : Nat} (hr : (r, k) ∈ specificRows.zipIdx) {w : BitVec 9} (h : r.hit w = true) :
    2 ^ k ≤ w.toNat ∧ w.toNat < 2 ^ (k + 1) := by
  simp only [specificRows, List.zipIdx_cons, List.zipIdx_nil, List.mem_cons, Prod.mk.injEq, List.not_mem_nil, or_false] at hr
  rcases hr with ⟨rfl, rfl⟩ | ⟨rfl, rfl⟩ | ⟨rfl, rfl⟩ | ⟨rfl, rfl⟩ | ⟨rfl, rfl⟩ | ⟨rfl, rfl⟩ | ⟨rfl, rfl⟩ | ⟨rfl, rfl⟩ |
    ⟨rfl, rfl⟩
  · rw [rowClear_hit] at h; omega
  · rw [rowHome_hit] at h; omega
  · rw [rowEntry_hit] at h; omega
  · rw [rowDispctl_hit] at h; omega
  · rw [rowShift_hit] at h; omega
  · rw [rowFuncset_hit] at h; omega
  · rw [rowSetcg_hit] at h; omega
  · rw [rowSetdd_hit] at h; omega
  · rw [rowWrite_hit] at h; omega

/-- The place of a word's specific row in the table is the place of the word's most significant 1 bit. -/
theorem log2_eq_of_hit {r : Row} {k : Nat} (hr : specificRows[k]? = some r) {w : BitVec 9} (h : r.hit w = true) :
    w.toNat.log2 = k := by
  have hmsb := hit_msb (List.mem_zipIdx_iff_getElem?.2 hr) h
  exact (Nat.log2_eq_iff (Nat.ne_of_gt (Nat.lt_of_lt_of_le (Nat.two_pow_pos k) hmsb.1))).2 hmsb

/-- Settles O1. The bit that tells a word's row is the place of the row in the table, so one word has one row. -/
theorem specificRowsAreDisjoint : Obligations.SpecificRowsAreDisjoint := by
  refine ⟨fun w x hx h => hit_msb (r := x.1) (k := x.2) ?_ h, fun w r hr q hq hrw hqw => ?_⟩
  · exact List.mem_append_left [(rowWrite, 8)] hx
  · obtain ⟨k, hk⟩ := List.mem_iff_getElem?.1 hr
    obtain ⟨l, hl⟩ := List.mem_iff_getElem?.1 hq
    have hkl : k = l := (log2_eq_of_hit hk hrw).symm.trans (log2_eq_of_hit hl hqw)
    rw [hkl, hl] at hk
    exact (Option.some.inj hk).symm

end Sys2Proof
end

section
/-!
PROOFS. Decoding undoes encoding and encoding undoes decoding (30_encoding.md R71, R79, R80, R83, R86), by way of the number
{RS, byte} of a word.
-/

namespace Sys2Proof

open Sys2Proof.Machine

/-! ## A command's word as a number -/

/-- The number of the word {RS, byte} of a command that has one (R70, R71, R83). -/
def Instr.wordNumber : Instr → Option Nat
  | .clear => some 0x01
  | .home => some 0x02
  | .entry id s => some (0x04 + 2 * (id % 2) + s % 2)
  | .dispctl d c b => some (0x08 + 4 * (d % 2) + 2 * (c % 2) + b % 2)
  | .shift sc rl => some (0x10 + 8 * (sc % 2) + 4 * (rl % 2))
  | .funcset dl n f => some (0x20 + 16 * (dl % 2) + 8 * (n % 2) + 4 * (f % 2))
  | .setcg a => some (0x40 + a % 64)
  | .setdd a => some (0x80 + a % 128)
  | .sendInstruction b => some (b % 256)
  | .write b => some (0x100 + b % 256)
  | .initNibble => none
  | .init => none

theorem transferOf_number (i : Instr) :
    (transferOf i).map (fun t => 0x100 * t.1.toNat + t.2.toNat) = i.wordNumber := by
  cases i <;> simp [transferOf, Instr.wordNumber, encClear, encHome, encEntry_toNat, encDispctl_toNat, encShift_toNat,
    encFuncset_toNat, encSetcg_toNat, encSetdd_toNat]

theorem bus9_eq_iff (rs : Bool) (b : Byte) (w : BitVec 9) : bus9 rs b = .bus9 w ↔ 0x100 * rs.toNat + b.toNat = w.toNat := by
  rw [bus9, BusWord.bus9.injEq, ← BitVec.toNat_inj, BitVec.toNat_append, BitVec.toNat_ofBool, Nat.shiftLeft_eq,
    Nat.mul_comm, Nat.two_pow_add_eq_or_of_lt b.isLt]

/-- The `BUS9` word of a command is the one with its number. -/
theorem encodeWord_eq_bus9_iff (i : Instr) (w : BitVec 9) : encodeWord i = some (.bus9 w) ↔ i.wordNumber = some w.toNat := by
  rw [← transferOf_number]
  cases i <;> simp [encodeWord, transferOf, bus9_eq_iff]

theorem exists_encodeWord {i : Instr} (hi : i ≠ .init) (hn : i ≠ .initNibble) : ∃ w, encodeWord i = some (.bus9 w) := by
  cases i with
  | init => exact absurd rfl hi
  | initNibble => exact absurd rfl hn
  | _ => exact ⟨_, rfl⟩

/-! ## Decoding as arithmetic -/

/-- The command of the `BUS9` word with number `n`. -/
def decodeNumber (n : Nat) : Instr :=
  if n / 256 = 1 then .write (n % 256)
  else if n = 1 then .clear
  else if n = 2 then .home
  else if n / 4 = 1 then .entry (n / 2 % 2) (n % 2)
  else if n / 8 = 1 then .dispctl (n / 4 % 2) (n / 2 % 2) (n % 2)
  else if n / 16 = 1 ∧ n % 4 = 0 then .shift (n / 8 % 2) (n / 4 % 2)
  else if n / 32 = 1 ∧ n % 4 = 0 then .funcset (n / 16 % 2) (n / 8 % 2) (n / 4 % 2)
  else if n / 64 = 1 then .setcg (n % 64)
  else if n / 128 = 1 then .setdd (n % 128)
  else .sendInstruction (n % 256)

theorem wordField_eq (w : BitVec 9) (lo len : Nat) : wordField w lo len = w.toNat / 2 ^ lo % 2 ^ len := by
  rw [wordField, BitVec.extractLsb'_toNat, Nat.shiftRight_eq_div_pow]

theorem decodeBus9_eq (w : BitVec 9) : decodeBus9 w = decodeNumber w.toNat := by
  simp only [decodeBus9, decodeNumber, rowClear_hit, rowHome_hit, rowEntry_hit, rowDispctl_hit, rowShift_hit, rowFuncset_hit,
    rowSetcg_hit, rowSetdd_hit, rowWrite_hit, wordField_eq, Nat.pow_zero, Nat.div_one, Nat.reducePow]

/-! ### One equation for each row: no other row has its words (R72) -/

section
variable {n : Nat}

theorem decodeNumber_write (h : n / 256 = 1) : decodeNumber n = .write (n % 256) := by
  rw [decodeNumber, if_pos h]

theorem decodeNumber_entry (h : n / 4 = 1) : decodeNumber n = .entry (n / 2 % 2) (n % 2) := by
  rw [decodeNumber, if_neg (by omega), if_neg (by omega), if_neg (by omega), if_pos h]

theorem decodeNumber_dispctl (h : n / 8 = 1) : decodeNumber n = .dispctl (n / 4 % 2) (n / 2 % 2) (n % 2) := by
  rw [decodeNumber, if_neg (by omega), if_neg (by omega), if_neg (by omega), if_neg (by omega), if_pos h]

theorem decodeNumber_shift (h : n / 16 = 1 ∧ n % 4 = 0) : decodeNumber n = .shift (n / 8 % 2) (n / 4 % 2) := by
  rw [decodeNumber, if_neg (by omega), if_neg (by omega), if_neg (by omega), if_neg (by omega), if_neg (by omega), if_pos h]

theorem decodeNumber_funcset (h : n / 32 = 1 ∧ n % 4 = 0) :
    decodeNumber n = .funcset (n / 16 % 2) (n / 8 % 2) (n / 4 % 2) := by
  rw [decodeNumber, if_neg (by omega), if_neg (by omega), if_neg (by omega), if_neg (by omega), if_neg (by omega),
    if_neg (by omega), if_pos h]

theorem decodeNumber_setcg (h : n / 64 = 1) : decodeNumber n = .setcg (n % 64) := by
  rw [decodeNumber, if_neg (by omega), if_neg (by omega), if_neg (by omega), if_neg (by omega), if_neg (by omega),
    if_neg (by omega), if_neg (by omega), if_pos h]

theorem decodeNumber_setdd (h : n / 128 = 1) : decodeNumber n = .setdd (n % 128) := by
  rw [decodeNumber, if_neg (by omega), if_neg (by omega), if_neg (by omega), if_neg (by omega), if_neg (by omega),
    if_neg (by omega), if_neg (by omega), if_neg (by omega), if_pos h]

/-- The 218 bytes are those of the rows of the eight encoder commands (R80). -/
theorem inEncoderImage_iff (n : Nat) :
    inEncoderImage n = true ↔ n = 1 ∨ n = 2 ∨ n / 4 = 1 ∨ n / 8 = 1 ∨ (n / 16 = 1 ∧ n % 4 = 0) ∨ (n / 32 = 1 ∧ n % 4 = 0)
      ∨ n / 64 = 1 ∨ n / 128 = 1 := by
  simp only [inEncoderImage, Bool.or_eq_true, Bool.and_eq_true, beq_iff_eq, decide_eq_true_eq]
  omega

/-- The generic row has the words that no specific row has (R86). -/
theorem decodeNumber_sendInstruction (h : n < 256) (hn : inEncoderImage n = false) :
    decodeNumber n = .sendInstruction (n % 256) := by
  have hrows := mt (inEncoderImage_iff n).2 (by rw [hn]; exact Bool.false_ne_true)
  simp only [not_or] at hrows
  obtain ⟨hclear, hhome, hentry, hdispctl, hshift, hfuncset, hsetcg, hsetdd⟩ := hrows
  rw [decodeNumber, if_neg (by omega), if_neg hclear, if_neg hhome, if_neg hentry, if_neg hdispctl, if_neg hshift,
    if_neg hfuncset, if_neg hsetcg, if_neg hsetdd]

end

/-! ## Both ways round -/

/-- The command read from a word has that word, and each operand in its field. -/
theorem decodeNumber_spec {n : Nat} (h : n < 512) :
    (decodeNumber n).wordNumber = some n ∧ (decodeNumber n).canonical = true := by
  by_cases himg : inEncoderImage n = true
  · rcases (inEncoderImage_iff n).1 himg with rfl | rfl | hn | hn | hn | hn | hn | hn
    · exact ⟨rfl, rfl⟩
    · exact ⟨rfl, rfl⟩
    · rw [decodeNumber_entry hn]; simp [Instr.wordNumber, Instr.canonical, Instr.wellFormed]; omega
    · rw [decodeNumber_dispctl hn]; simp [Instr.wordNumber, Instr.canonical, Instr.wellFormed]; omega
    · rw [decodeNumber_shift hn]; simp [Instr.wordNumber, Instr.canonical, Instr.wellFormed]; omega
    · rw [decodeNumber_funcset hn]; simp [Instr.wordNumber, Instr.canonical, Instr.wellFormed]; omega
    · rw [decodeNumber_setcg hn]; simp [Instr.wordNumber, Instr.canonical, Instr.wellFormed]; omega
    · rw [decodeNumber_setdd hn]; simp [Instr.wordNumber, Instr.canonical, Instr.wellFormed]; omega
  · rw [Bool.not_eq_true] at himg
    by_cases hn : n < 256
    · rw [decodeNumber_sendInstruction hn himg, Nat.mod_eq_of_lt hn]
      simp [Instr.wordNumber, Instr.canonical, Instr.wellFormed, hn, himg, Nat.mod_eq_of_lt hn]
    · rw [decodeNumber_write (by omega)]; simp [Instr.wordNumber, Instr.canonical, Instr.wellFormed]; omega

/-- A canonical command is what is read from its word. -/
theorem decodeNumber_of_wordNumber {i : Instr} (hi : i.canonical = true) {n : Nat} (hn : i.wordNumber = some n) :
    decodeNumber n = i := by
  cases i <;> simp only [Instr.wordNumber, Instr.canonical, Instr.wellFormed, Bool.and_eq_true, decide_eq_true_eq,
    Bool.not_eq_true', Option.some.injEq, reduceCtorEq] at hi hn
  case clear => subst hn; rfl
  case home => subst hn; rfl
  case entry => rw [decodeNumber_entry (by omega), Instr.entry.injEq]; omega
  case dispctl => rw [decodeNumber_dispctl (by omega), Instr.dispctl.injEq]; omega
  case shift => rw [decodeNumber_shift (by omega), Instr.shift.injEq]; omega
  case funcset => rw [decodeNumber_funcset (by omega), Instr.funcset.injEq]; omega
  case setcg => rw [decodeNumber_setcg (by omega), Instr.setcg.injEq]; omega
  case setdd => rw [decodeNumber_setdd (by omega), Instr.setdd.injEq]; omega
  case sendInstruction b =>
    obtain ⟨hb, himg⟩ := hi
    obtain rfl : b = n := by omega
    rw [decodeNumber_sendInstruction hb himg, Nat.mod_eq_of_lt hb]
  case write => rw [decodeNumber_write (by omega), Instr.write.injEq]; omega

theorem decodeNib5_eq_some_iff (w : BitVec 5) (i : Instr) : decodeNib5 w = some i ↔ w = 0b00010#5 ∧ i = .initNibble := by
  unfold decodeNib5
  split <;> simp [*, eq_comm]

/-- Decoding the word of a canonical command gives the command back. -/
theorem decode_encodeWord {i : Instr} (hi : i.canonical = true) : ∃ w, encodeWord i = some w ∧ decode w = some i := by
  by_cases hn : i = .initNibble
  · subst hn
    exact ⟨_, rfl, rfl⟩
  · obtain ⟨w, hw⟩ := exists_encodeWord (i := i) (by rintro rfl; cases hi) hn
    refine ⟨.bus9 w, hw, ?_⟩
    rw [decode, decodeBus9_eq, decodeNumber_of_wordNumber hi ((encodeWord_eq_bus9_iff i w).1 hw)]

/-- Encoding what a word decodes to gives the word back, and loses no operand. -/
theorem encodeWord_of_decode {w : BusWord} {i : Instr} (h : decode w = some i) :
    encodeWord i = some w ∧ i.canonical = true := by
  cases w with
  | bus9 w =>
    obtain rfl : decodeNumber w.toNat = i := by rw [← decodeBus9_eq]; exact Option.some.inj h
    obtain ⟨hnumber, hcanonical⟩ := decodeNumber_spec w.isLt
    exact ⟨(encodeWord_eq_bus9_iff _ w).2 hnumber, hcanonical⟩
  | nib5 w =>
    obtain ⟨rfl, rfl⟩ := (decodeNib5_eq_some_iff w i).1 h
    exact ⟨rfl, rfl⟩

theorem encode_of_ne_init (c : RawCfg) {i : Instr} (h : i ≠ .init) : encode c i = (encodeWord i).toList := by
  cases i with
  | init => exact absurd rfl h
  | _ => rfl

/-! ## The words of `INIT` (R131) -/

theorem onBit_le_one (b : Bool) : onBit b ≤ 1 := by cases b <;> decide

theorem dlBit_le_one (c : RawCfg) : dlBit c ≤ 1 := by unfold dlBit; split <;> decide

theorem fBit_le_one (c : RawCfg) : fBit c ≤ 1 := by unfold fBit; split <;> decide

theorem idBit_le_one (c : RawCfg) : idBit c ≤ 1 := by unfold idBit; split <;> decide

/-- A valid configuration has one line or two (R9). -/
theorem nBit_le_one (c : Cfg) : nBit c.raw ≤ 1 := by
  obtain ⟨-, hlines, -⟩ := (RawCfg.cfgOk_iff c.raw).1 c.ok.1
  rcases hlines with h | h
  · rw [nBit_of_lines_one h]; decide
  · rw [nBit_of_lines_two h]

/-- The options of a valid configuration fit their fields, so every command of `INIT` is canonical. -/
theorem canonical_of_mem_initCommands (c : Cfg) : ∀ i ∈ initCommands c.raw, i.canonical = true := by
  have haddr : c.raw.initAddr < 128 := BitVec.isLt _
  cases hw : c.raw.busWidth <;>
    simp [initCommands, hw, Instr.canonical, Instr.wellFormed, dBit, cBit, bBit, sBit, onBit_le_one, dlBit_le_one,
      nBit_le_one, fBit_le_one, idBit_le_one, haddr]

/-- The words of canonical commands decode to them, in order. -/
theorem map_decode_filterMap_encodeWord {l : List Instr} (h : ∀ i ∈ l, i.canonical = true) :
    (l.filterMap encodeWord).map decode = l.map some := by
  induction l with
  | nil => rfl
  | cons i l ih =>
    obtain ⟨w, hw, hi⟩ := decode_encodeWord (h i (by simp))
    rw [List.filterMap_cons_some hw, List.map_cons, List.map_cons, hi, ih fun j hj => h j (by simp [hj])]

/-- Settles O3. A word's number is read and written by the same arithmetic (`decodeNumber_spec`, `decodeNumber_of_wordNumber`);
the commands of `INIT` are canonical. -/
theorem decodeAndEncodeAgree : Obligations.DecodeAndEncodeAgree := by
  refine ⟨fun c i hi => ?canonical, fun w i h => encodeWord_of_decode h, fun w => ⟨_, rfl⟩,
    fun w => ⟨fun hw => if_pos hw, fun hw => if_neg hw⟩,
    fun c => map_decode_filterMap_encodeWord (canonical_of_mem_initCommands c)⟩
  case canonical =>
    obtain ⟨w, hw, hdecode⟩ := decode_encodeWord hi
    refine ⟨w, ?_, hdecode⟩
    rw [encode_of_ne_init c.raw (by rintro rfl; cases hi), hw]
    rfl

/-- Settles O2. Closed instances of the decoder, each evaluated. -/
theorem specWordsDecodeToTheirCommands : Obligations.SpecWordsDecodeToTheirCommands :=
  ⟨rfl, rfl, rfl, rfl, rfl, rfl, rfl, rfl, rfl, rfl, rfl, rfl⟩

end Sys2Proof
end

section
/-!
PROOFS. The raw form of an encoder command (30_encoding.md R80, R84): which bytes have one, and how it differs from the command.
-/

namespace Sys2Proof.Machine

open Sys2Proof.Claims

/-- A command has a raw form when it has a word with RS = 0 and is none itself. -/
theorem rawForm_eq_some_iff (i : Instr) (b : Byte) :
    rawForm i = some b ↔ i.wordNumber = some b.toNat ∧ ∀ k, i ≠ .sendInstruction k := by
  have hb := b.isLt
  cases i <;> simp [rawForm, transferOf, Instr.wordNumber, ← BitVec.toNat_inj, encClear, encHome, encEntry_toNat,
    encDispctl_toNat, encShift_toNat, encFuncset_toNat, encSetcg_toNat, encSetdd_toNat]
  omega

/-- Every byte of the encoder is listed. -/
theorem inEncoderImage_of_rawForm {i : Instr} {b : Byte} (h : rawForm i = some b) : inEncoderImage b.toNat = true := by
  obtain ⟨hnumber, hsend⟩ := (rawForm_eq_some_iff i b).1 h
  have hb := b.isLt
  rw [inEncoderImage_iff]
  cases i <;> simp only [Instr.wordNumber, Option.some.injEq, reduceCtorEq] at hnumber
  case sendInstruction k => exact absurd rfl (hsend k)
  all_goals omega

/-- A listed byte is a byte of the encoder: that of the command its word decodes to. -/
theorem exists_rawForm_of_inEncoderImage {b : Byte} (h : inEncoderImage b.toNat = true) : ∃ i, rawForm i = some b := by
  obtain ⟨hnumber, hcanonical⟩ := decodeNumber_spec (n := b.toNat) (by have := b.isLt; omega)
  refine ⟨decodeNumber b.toNat, (rawForm_eq_some_iff _ b).2 ⟨hnumber, fun k hk => ?_⟩⟩
  rw [hk] at hnumber hcanonical
  simp only [Instr.canonical, Instr.wellFormed, Instr.wordNumber, Bool.and_eq_true, decide_eq_true_eq, Bool.not_eq_true',
    Option.some.injEq] at hnumber hcanonical
  obtain ⟨hk, himg⟩ := hcanonical
  rw [Nat.mod_eq_of_lt hk] at hnumber
  rw [hnumber, h] at himg
  cases himg

/-- Settles O5. A listed byte is decoded to find its command; the 256 values are counted. -/
theorem encoderImageIsTheListedBytes : Obligations.EncoderImageIsTheListedBytes :=
  ⟨fun _ => ⟨exists_rawForm_of_inEncoderImage, fun ⟨_, h⟩ => inEncoderImage_of_rawForm h⟩, by rfl, by decide⟩

/-- In a ready state a command of Running runs to its end. -/
theorem exec_of_ready {s : State} (h : s.ready) {i : Instr} (hi : i ≠ .init) (hn : i ≠ .initNibble) :
    exec i s = .next (effect i s) := by
  obtain ⟨hpending, hmode, hpins⟩ := h
  rw [exec_of_admitted hpending (by rw [hmode]; exact modeRefusal_running hi hn), actsOfInstr_of_ne_init hi,
    runActs_actsBasic hpins hi, effect]

/-- A named command sends its byte and then makes its completion wait (R91). -/
theorem eventsOf_of_rawForm {i : Instr} {b : Byte} (h : rawForm i = some b) (c : RawCfg) :
    eventsOf c i = send c false b ++ completionWait c i := by
  cases i <;> cases h <;> rfl

/-- The assignments of a command change the shadow only (R31). -/
theorem foldl_updatesOf (i : Instr) (s : State) :
    (updatesOf i).foldl applyUpdate s = { s with shadow := shadowOf s.shadow i } := by
  cases i <;> rfl

/-- A command leaves what its events leave, with its shadow. -/
theorem effect_eq (i : Instr) (s : State) :
    effect i s = { s.after (eventsOf s.cfg.raw i) with shadow := shadowOf s.shadow i } :=
  foldl_updatesOf i _

/-- Settles O23. Both forms run to their effect (`exec_of_ready`); the events of the named one are those of the raw one and the
wait (`eventsOf_of_rawForm`), and its assignments are those of the shadow (`effect_eq`). -/
theorem namedAndRawFormsDifferInTwoWays : Obligations.NamedAndRawFormsDifferInTwoWays := by
  intro s i b hs h
  have hraw : effect (.sendInstruction b.toNat) s = s.after (send s.cfg.raw false b) := by
    rw [effect_eq, eventsOf, byteOperand_of_toNat]
    rfl
  refine ⟨_, _, exec_of_ready hs (by simp) (by simp), exec_of_ready hs ?_ ?_, by rw [hraw, after_shadow], ?_⟩
  · rintro rfl; cases h
  · rintro rfl; cases h
  · rw [hraw, effect_eq, eventsOf_of_rawForm h, after_append]

end Sys2Proof.Machine
end

section
/-!
PROOFS. What the eight encoder commands do in a ready state (40_encoder_commands.md R91 to R99): the transfer of R110 to R112, the
completion wait and the shadow.
-/

namespace Sys2Proof.Machine

open Sys2Proof.Claims

/-! ## The transfer as the rules write it out -/

/-- A pulse of a value whose bits are those of `b` from bit `k` up is the pulse of R110 and R117. -/
theorem pulse_eq_rulePulse {c : RawCfg} {v b : Byte} {k : Nat}
    (h : ∀ i < c.pinD.length, v.getLsbD i = b.getLsbD (k + i)) : pulse c v = rulePulse c b k := by
  have hlines : assertLines c v = lineWrites c b k := by
    rw [assertLines, assertFrom_eq, lineWrites]
    refine List.map_congr_left fun x hx => ?_
    rw [h x.2 (by simpa using List.snd_lt_of_mem_zipIdx hx)]
  rw [pulse, rulePulse, hlines]
  rfl

theorem pulse_eq_rulePulse_zero (c : RawCfg) (b : Byte) : pulse c b = rulePulse c b 0 :=
  pulse_eq_rulePulse fun i _ => by rw [Nat.zero_add]

/-- `SEND` is the transfer of R112. In a Half block the four lines get the bits of a nibble from bit 4 and from bit 0 (R114). -/
theorem send_eq_ruleSend (c : Cfg) (rs : Level) (b : Byte) : send c.raw rs b = ruleSend c.raw rs b := by
  have hlength := Cfg.pinD_length c
  cases hw : c.raw.busWidth with
  | full =>
    simp only [send, ruleSend, hw, pulse_eq_rulePulse_zero]
    rfl
  | half =>
    rw [hw, BusWidth.lineCount] at hlength
    have hhigh : pulse c.raw (hi b) = rulePulse c.raw b 4 :=
      pulse_eq_rulePulse fun i hlt => hi_getLsbD b i (hlength ▸ hlt)
    have hlow : pulse c.raw (lo b) = rulePulse c.raw b 0 :=
      pulse_eq_rulePulse fun i hlt => by rw [lo_getLsbD b i (hlength ▸ hlt), Nat.zero_add]
    simp only [send, ruleSend, hw, hhigh, hlow]
    rfl

/-! ## The commands -/

/-- The byte of an encoder command is the number of its word, whose RS is 0 (R70, R91). -/
theorem rawForm_of_wordNumber {i : Instr} {n : Nat} (h : i.wordNumber = some n) (hn : n < 256)
    (hraw : ∀ k, i ≠ .sendInstruction k) : rawForm i = some (BitVec.ofNat 8 n) := by
  rw [rawForm_eq_some_iff, BitVec.toNat_ofNat, Nat.mod_eq_of_lt hn]
  exact ⟨h, hraw⟩

/-- In a ready state an encoder command sends its byte with RS = 0, makes its completion wait and updates the shadow (R91, R31). -/
theorem exec_of_rawForm {s : State} (h : s.ready) {i : Instr} {b : Byte} (hb : rawForm i = some b) :
    exec i s = .next
      { s.after (ruleSend s.cfg.raw false b ++ completionWait s.cfg.raw i) with shadow := shadowOf s.shadow i } := by
  have hi : i ≠ .init := by rintro rfl; cases hb
  have hn : i ≠ .initNibble := by rintro rfl; cases hb
  rw [exec_of_ready h hi hn, effect_eq, eventsOf_of_rawForm hb, send_eq_ruleSend]

/-- The same for the commands other than CLEAR and HOME: they have no completion wait, and their word gives the byte. -/
theorem exec_of_wordNumber {s : State} (h : s.ready) {i : Instr} {n : Nat} (hword : i.wordNumber = some n) (hn : n < 256)
    (hraw : ∀ k, i ≠ .sendInstruction k) (hwait : completionWait s.cfg.raw i = []) :
    exec i s = .next
      { s.after (ruleSend s.cfg.raw false (BitVec.ofNat 8 n)) with shadow := shadowOf s.shadow i } := by
  rw [exec_of_rawForm h (rawForm_of_wordNumber hword hn hraw), hwait, List.append_nil]

/-- Settles O14. The two commands with a completion wait; neither assigns to the shadow. -/
theorem clearAndHomeRun : Obligations.ClearAndHomeRun :=
  fun _ h => ⟨exec_of_rawForm (i := .clear) h rfl, exec_of_rawForm (i := .home) h rfl⟩

/-- Settles O15. ENTRY has no completion wait, and `shadowOf` records its two flags. -/
theorem entryRuns : Obligations.EntryRuns :=
  fun _ id sh h => exec_of_wordNumber (i := .entry id sh) h rfl (by omega) nofun rfl

/-- Settles O16. DISPCTL has no completion wait and assigns nothing to the shadow. -/
theorem dispctlRuns : Obligations.DispctlRuns :=
  fun _ d c b h => exec_of_wordNumber (i := .dispctl d c b) h rfl (by omega) nofun rfl

/-- Settles O17. SHIFT has no completion wait and assigns nothing to the shadow. -/
theorem shiftRuns : Obligations.ShiftRuns :=
  fun _ sc rl h => exec_of_wordNumber (i := .shift sc rl) h rfl (by omega) nofun rfl

/-- Settles O18. FUNCSET has no completion wait and assigns nothing to the shadow; events keep the configuration. -/
theorem funcsetRuns : Obligations.FuncsetRuns :=
  fun _ dl n f h => exec_of_wordNumber (i := .funcset dl n f) h rfl (by omega) nofun rfl

/-- Settles O19. SETCG has no completion wait, and `shadowOf` records CGRAM and the address. -/
theorem setcgRuns : Obligations.SetcgRuns :=
  fun _ a h => exec_of_wordNumber (i := .setcg a) h rfl (by omega) nofun rfl

/-- Settles O20. SETDD has no completion wait, and `shadowOf` records DDRAM and the address. -/
theorem setddRuns : Obligations.SetddRuns :=
  fun _ a h => exec_of_wordNumber (i := .setdd a) h rfl (by omega) nofun rfl

end Sys2Proof.Machine
end

section
/-!
PROOFS. The timing bounds of a transfer (41_bus_transfer.md R122, 70_reset_and_hazards.md R190, R191, R197): the bounds as a
property of the observer and the clock, which every part of a command keeps, and with it every step.
-/

namespace Sys2Proof.Machine

open Sys2Proof.Claims

/-! ## The bounds as the observer has them -/

/-- Every bound of R122 holds of what the observer has seen, and at `now` the settling time of the last pulse is over. -/
def Watch.timedAt (c : RawCfg) (w : Watch) (now : Nat) : Prop :=
  latchIn c.pinE w.pins ≠ .level true
    ∧ (∀ p ∈ w.pulses, p.wideEnough c)
    ∧ pulsesApart c w.pulses
    ∧ (∀ p ∈ w.pulses.head?, p.fallAt + c.tSettle ≤ now)
    ∧ w.rsMoved = false

/-- The bounds of a state are those of the observer of its trace, at its clock. -/
theorem timed_iff_timedAt (s : State) : s.timed ↔ (watch s.cfg.raw s.trace).timedAt s.cfg.raw s.now := Iff.rfl

/-- Letting time pass keeps the bounds: they are lower bounds. -/
theorem Watch.timedAt.mono {c : RawCfg} {w : Watch} {now now' : Nat} (h : w.timedAt c now) (hle : now ≤ now') :
    w.timedAt c now' := by
  obtain ⟨hE, hwide, hapart, hsettled, hRS⟩ := h
  exact ⟨hE, hwide, hapart, fun p hp => Nat.le_trans (hsettled p hp) hle, hRS⟩

/-- The events `es` keep the bounds, whenever they start and whatever is drawn for them. -/
def KeepsTimed (c : RawCfg) (es : List Event) : Prop :=
  ∀ (w : Watch) (k now : Nat), idsOf w.pins = c.pinIds → w.timedAt c now → (w.over c k now es).timedAt c (endTime k now es)

theorem KeepsTimed.nil (c : RawCfg) : KeepsTimed c [] := fun _ _ _ _ h => h

theorem KeepsTimed.append {c : RawCfg} {es fs : List Event} (hes : KeepsTimed c es) (hfs : KeepsTimed c fs) :
    KeepsTimed c (es ++ fs) := by
  intro w k now hids h
  rw [Watch.over_append, endTime_append]
  exact hfs _ _ _ ((foldl_see_ids c _ w).trans hids) (hes w k now hids h)

theorem KeepsTimed.timed_after {s : State} {es : List Event} (hes : KeepsTimed s.cfg.raw es) (h : s.timed) :
    (s.after es).timed := by
  rw [timed_iff_timedAt, after_cfg, watch_after, after_now]
  exact hes _ _ _ (watch_ids _ _) h

/-! ## The parts of a command -/

theorem keepsTimed_wait (c : RawCfg) (d : Nat) : KeepsTimed c [.wait d] :=
  fun _ k now _ h => h.mono (le_endTime k now _)

/-- A write of a pin that is not on the bus moves nothing of the bounds. -/
theorem keepsTimed_wr_of_not_busPin {c : RawCfg} {p : PinId} (h : ¬ isBusPin c p) (v : Level) :
    KeepsTimed c [.wr p v] := by
  intro w k now _ ht
  obtain ⟨hRS, hE, hD⟩ : p ≠ c.pinRS ∧ p ≠ c.pinE ∧ p ∉ c.pinD := by simpa only [isBusPin, not_or] using h
  obtain ⟨hlow, hrest⟩ := ht.mono (le_endTime k now [.wr p v])
  rw [Watch.over_cons, Watch.over_nil]
  simp only [Watch.see, if_neg hE, if_neg hRS, if_neg hD]
  refine ⟨?_, hrest⟩
  rwa [latchIn_setLatch, if_neg fun hq => hE hq.1.symm]

/-- RS is written while E is low and the settling time of the last pulse is over (R111, R122). -/
theorem keepsTimed_select (c : Cfg) (rs : Level) : KeepsTimed c.raw [.wr c.raw.pinRS rs] := by
  intro w k now _ ht
  obtain ⟨-, hRSE, -⟩ := Cfg.distinct c
  obtain ⟨hE, hwide, hapart, hsettled, hRS⟩ := ht.mono (le_endTime k now [.wr c.raw.pinRS rs])
  rw [Watch.over_cons, Watch.over_nil, see_select hRSE]
  refine ⟨?low, hwide, hapart, hsettled, ?still⟩
  case low => exact (latchIn_setLatch _ _ rs w.pins).trans (if_neg fun hq => hRSE hq.1.symm) ▸ hE
  case still =>
    cases hp : w.pulses with
    | nil => simp [Watch.select, hE, hRS]
    | cons p ps =>
      have hover := hsettled p (by simp [hp])
      rw [endTime, endTime] at hover
      simp [Watch.select, hE, hRS, hover]

/-- A pulse is wide enough, starts after the settling time of the one before and ends after its own (R110). -/
theorem keepsTimed_pulse (c : Cfg) (v : Byte) : KeepsTimed c.raw (pulse c.raw v) := by
  rintro w k now hids ⟨hE, hwide, hapart, hsettled, hRS⟩
  obtain ⟨p, hrise, hhigh, hdata, hend, -, hover⟩ := over_pulse c v w k now hids hE
  have hlow : latchIn c.raw.pinE (pulsePins c.raw v w.pins) = .level false :=
    (latchIn_pulsePins c v w.pins fun q hq => hids ▸ hq).1
  have hapart' : pulsesApart c.raw (p :: w.pulses) := by
    cases hw : w.pulses with
    | nil => trivial
    | cons q qs =>
      have hq := hsettled q (by simp [hw])
      exact ⟨Nat.le_trans hq hrise, hw ▸ hapart⟩
  rw [hover]
  refine ⟨by simp [hlow], fun q hq => ?_, hapart', fun q hq => ?_, hRS⟩
  · rcases List.mem_cons.1 hq with rfl | hq
    · exact ⟨hhigh, hdata⟩
    · exact hwide q hq
  · obtain rfl : p = q := by simpa using hq
    exact hend

theorem keepsTimed_send (c : Cfg) (rs : Level) (b : Byte) : KeepsTimed c.raw (send c.raw rs b) := by
  cases hw : c.raw.busWidth with
  | full =>
    simp only [send, hw]
    exact (keepsTimed_select c rs).append (keepsTimed_pulse c b)
  | half =>
    simp only [send, hw]
    exact (keepsTimed_select c rs).append ((keepsTimed_pulse c (hi b)).append (keepsTimed_pulse c (lo b)))

theorem keepsTimed_issueByte (c : Cfg) (b : Byte) (post : Option Nat) : KeepsTimed c.raw (issueByte c.raw b post) := by
  refine (keepsTimed_send c false b).append ?_
  cases post with
  | none => exact .nil c.raw
  | some d => exact keepsTimed_wait c.raw d

/-- Every command keeps the bounds. -/
theorem keepsTimed_eventsOf (c : Cfg) (i : Instr) : KeepsTimed c.raw (eventsOf c.raw i) := by
  cases i with
  | init => exact .nil c.raw
  | initNibble => exact (keepsTimed_select c false).append (keepsTimed_pulse c _)
  | sendInstruction b => exact keepsTimed_send c false _
  | write b => exact keepsTimed_send c true _
  | _ => exact keepsTimed_issueByte c _ _

/-! ## Every step -/

theorem timed_deadlineWait {s : State} (h : s.timed) : (deadlineWait s).timed := by
  rw [timed_iff_timedAt, deadlineWait_cfg, deadlineWait_trace]
  exact Watch.timedAt.mono h (le_deadlineWait_now s)

theorem timed_applyUpdate {s : State} (h : s.timed) (u : Update) : (applyUpdate s u).timed := by
  rwa [timed_iff_timedAt, applyUpdate_cfg, applyUpdate_trace, applyUpdate_now]

/-- The debug pin is not on the bus (R9). -/
theorem pinDbg_not_busPin {c : Cfg} {p : PinId} (hp : c.raw.pinDbg = some p) : ¬ isBusPin c.raw p := by
  obtain ⟨-, -, -, -, -, -, -, hdbg⟩ := Cfg.distinct c
  obtain ⟨hRS, -, hE, hD⟩ := hdbg p hp
  simp only [isBusPin, not_or]
  exact ⟨hRS, hE, hD⟩

/-- Every command, and everything the host does by itself, keeps a state quiet and the bounds of its trace. -/
theorem quiet_timed_commandClosed : CommandClosed fun s => s.quiet ∧ s.timed where
  ready s := fun ⟨hquiet, _⟩ => quiet_commandClosed.ready s hquiet
  pend _ _ h := h
  queue _ _ h := h
  rows _ _ h := h
  dl s := fun ⟨hquiet, htimed⟩ => ⟨quiet_commandClosed.dl s hquiet, timed_deadlineWait htimed⟩
  upd s u := fun ⟨hquiet, htimed⟩ => ⟨quiet_commandClosed.upd s u hquiet, timed_applyUpdate htimed u⟩
  evs s i := fun ⟨hquiet, htimed⟩ =>
    ⟨quiet_commandClosed.evs s i hquiet, (keepsTimed_eventsOf s.cfg i).timed_after htimed⟩
  wait s d := fun ⟨hquiet, htimed⟩ =>
    ⟨quiet_commandClosed.wait s d hquiet, (keepsTimed_wait s.cfg.raw d).timed_after htimed⟩
  dbg s p v := fun ⟨hquiet, htimed⟩ hp =>
    ⟨quiet_commandClosed.dbg s p v hquiet hp, (keepsTimed_wr_of_not_busPin (pinDbg_not_busPin hp) v).timed_after htimed⟩

/-- Settles O42. The bounds and quietness are closed under commands, so they hold again whenever the command in flight has
ended. -/
theorem stepKeepsTheTimingBounds : Obligations.StepKeepsTheTimingBounds :=
  fun _ _ hs ht => quiet_timed_commandClosed.step hs ht

end Sys2Proof.Machine
end

section
/-!
PROOFS. The write line (41_bus_transfer.md R113): which latches a step can change, what it can make pending, and that RW is low in
every state.
-/

namespace Sys2Proof.Machine

open Sys2Proof.Claims

/-- What is pending after a step was pending before it, or belongs to a command that the step has issued (R25). -/
theorem mem_pending_of_step {s t : State} (h : step s = .next t) {a : Act} (ha : a ∈ t.pending) :
    a ∈ s.pending ∨ ∃ i, a ∈ actsOfInstr s.cfg.raw i := by
  rcases step_command_cases h with ⟨b, rest, hp, rfl⟩ | ⟨r, rest, i, -, -, -, -, hr⟩ | ⟨i, rest, -, rfl⟩ | ⟨hp, -, -⟩
  · rw [afterAct_pending] at ha
    exact .inl (hp ▸ List.mem_cons_of_mem b ha)
  · rw [pending_of_runActs hr] at ha
    exact .inl ha
  · exact .inr ⟨i, ha⟩
  · exact .inl (hp ▸ ha)

/-- A step changes the latches of bus pins, of the debug pin and of pins that something pending writes, and no other latch. -/
theorem latchOf_step {s t : State} (h : step s = .next t) {q : PinId} (hbus : ¬ isBusPin s.cfg.raw q)
    (hdbg : s.cfg.raw.pinDbg ≠ some q) (hpend : ∀ a ∈ s.pending, ∀ v, a.event ≠ .wr q v) : t.latchOf q = s.latchOf q := by
  rcases step_eq_next h with ⟨a, rest, hp, -, rfl⟩ | ⟨-, -, rfl⟩ | ⟨r, rest, hp, -, hr⟩
  · exact latchOf_afterAct (hpend a (by simp [hp])) _
  · rfl
  · rcases serve_eq_next (s := { s with queue := rest }) hp hr with ⟨i, -, hm, hx⟩ | ⟨i, -, -, rfl⟩ |
      ⟨index, text, -, rfl⟩ | ⟨index, -, rfl⟩ | ⟨content, -, -, rfl⟩ | ⟨-, -, rfl⟩ | ⟨p, -, hd, -, rfl⟩ | ⟨-, rfl⟩ |
      ⟨d, -, rfl⟩
    · rw [← exec_of_admitted (s := { s with queue := rest }) hp hm] at hx
      exact (SameButCommand.of_exec hx).latchOf q hbus
    · rfl
    · rw [State.latchOf, setLine_pins]; rfl
    · rfl
    · rfl
    · rfl
    · exact afterEvent_wr_latchOf_ne _ (by rintro rfl; exact hdbg hd) _
    · rw [State.latchOf, deadlineWait_pins]; rfl
    · rfl

/-- No command writes RW (R113). -/
theorem not_wr_pinRW_of_mem_actsOfInstr {c : Cfg} {i : Instr} {a : Act} (ha : a ∈ actsOfInstr c.raw i) (v : Level) :
    a.event ≠ .wr c.raw.pinRW v := by
  obtain ⟨hwr, -⟩ := mem_actsOfInstr ha
  exact fun he => pinRW_not_busPin c (hwr _ v he)

/-- Settles O40. RW is no bus pin and not the debug pin, and no command that a step makes pending writes it. -/
theorem stepKeepsRwLow : Obligations.StepKeepsRwLow := by
  rintro s t ⟨hlow, hpend⟩ h
  have hcfg := ((before_stepClosed s).step (State.Before.refl s) h).cfg
  have hdbg : s.cfg.raw.pinDbg ≠ some s.cfg.raw.pinRW := by
    obtain ⟨-, -, -, -, -, -, -, hroles⟩ := Cfg.distinct s.cfg
    intro hp
    obtain ⟨-, hRW, -⟩ := hroles _ hp
    exact hRW rfl
  rw [State.rwLow, hcfg]
  refine ⟨(latchOf_step h (pinRW_not_busPin s.cfg) hdbg hpend).trans hlow, fun a ha => ?_⟩
  rcases mem_pending_of_step h ha with ha | ⟨i, ha⟩
  · exact hpend a ha
  · exact not_wr_pinRW_of_mem_actsOfInstr ha

end Sys2Proof.Machine
end

section
/-!
PROOFS. One transfer (41_bus_transfer.md R110 to R121): its events, what it leaves on the pins, the words it commits and the byte
they rebuild, and the two commands that are a transfer and nothing else (R115, R116).
-/

namespace Sys2Proof.Machine

open Sys2Proof.Claims

/-! ## The nibbles of a byte (R114) -/

theorem hi_toNat (b : Byte) : (hi b).toNat = b.toNat / 16 := by
  have hb := b.isLt
  rw [hi, BitVec.toNat_and, BitVec.toNat_ushiftRight, Nat.shiftRight_eq_div_pow]
  exact (Nat.and_two_pow_sub_one_eq_mod _ 4).trans (Nat.mod_eq_of_lt (by omega))

theorem lo_toNat (b : Byte) : (lo b).toNat = b.toNat % 16 := by
  rw [lo, BitVec.toNat_and]
  exact Nat.and_two_pow_sub_one_eq_mod _ 4

/-- Settles O6. The two nibbles are the quotient and the remainder of the byte by 16, and OR-ing them is adding them. -/
theorem nibblesRebuildTheByte : Obligations.NibblesRebuildTheByte := by
  intro b
  have hb := b.isLt
  have hlow : b.toNat % 16 < 2 ^ 4 := Nat.mod_lt _ (by decide)
  refine ⟨hi_toNat b, lo_toNat b, by rw [hi_toNat]; omega, by rw [lo_toNat]; omega, BitVec.eq_of_toNat_eq ?_⟩
  rw [BitVec.toNat_or, BitVec.toNat_shiftLeft, hi_toNat, lo_toNat, Nat.shiftLeft_eq, Nat.mod_eq_of_lt (by omega), Nat.mul_comm,
    ← Nat.two_pow_add_eq_or_of_lt hlow]
  omega

/-! ## The events of a pulse and of a transfer -/

theorem assertFrom_length (v : Byte) (k : Nat) (ps : List PinId) : (assertFrom v k ps).length = ps.length := by
  rw [assertFrom_eq, List.length_map, List.length_zipIdx]

/-- A pulse is one write for each data line and four more events (R110). -/
theorem pulse_length (c : RawCfg) (v : Byte) : (pulse c v).length = c.pinD.length + 4 := by
  simp [pulse, assertLines, assertFrom_length]

/-- Settles O10. The events are those of `send_eq_ruleSend`; a pulse has four events more than there are data lines. -/
theorem transferIsOneOrTwoPulses : Obligations.TransferIsOneOrTwoPulses := by
  intro c rs b
  refine ⟨send_eq_ruleSend c rs b, fun hw => ?_, fun hw => ?_⟩
  all_goals simp [send, hw, pulse_length, Cfg.pinD_length, BusWidth.lineCount]

theorem runActs_pulse {s : State} (h : s.pinsReady) (v : Byte) :
    runActs (actsOf [] (pulse s.cfg.raw v)) s = .next (s.after (pulse s.cfg.raw v)) :=
  runActs_actsOf (by simp [pulse]) fun p _ hm => h p (busPin_mem (.inr (mem_pulse hm)))

theorem runActs_send {s : State} (h : s.pinsReady) (rs : Level) (b : Byte) :
    runActs (actsOf [] (send s.cfg.raw rs b)) s = .next (s.after (send s.cfg.raw rs b)) :=
  runActs_actsOf (send_ne_nil _ _ _) fun p _ hm => h p (busPin_mem (mem_send hm))

/-- Settles O9. The pulse is that of `pulse_eq_rulePulse_zero`, and its pins are those of `latchIn_pulsePins`. -/
theorem pulseHasItsFiveParts : Obligations.PulseHasItsFiveParts := by
  intro s v h
  obtain ⟨hE, hD, -⟩ := latchIn_pulsePins s.cfg v s.pins (mem_ids_of_pinsReady h)
  rw [← pulse_eq_rulePulse_zero]
  have hlatch : ∀ p, (s.after (pulse s.cfg.raw v)).latchOf p = latchIn p (pulsePins s.cfg.raw v s.pins) := fun p => by
    rw [State.latchOf, after_pins, pulse_onPins]
  exact ⟨runActs_pulse h v, (hlatch _).trans hE, fun i p hp => (hlatch p).trans (hD i p hp)⟩

/-- Settles O11. The pins after the transfer are those of `latchIn_sendPins`, and RW is none that it writes. -/
theorem transferLeavesItsLevels : Obligations.TransferLeavesItsLevels := by
  rintro s rs b ⟨-, hlow, hready⟩
  obtain ⟨hRS, hE, hD, hother⟩ := latchIn_sendPins s.cfg rs b s.pins (mem_ids_of_pinsReady hready)
  obtain ⟨hRSRW, -, hRWE, -, hRWD, -⟩ := Cfg.distinct s.cfg
  have hlatch : ∀ p, (s.after (send s.cfg.raw rs b)).latchOf p = latchIn p (sendPins s.cfg.raw rs b s.pins) := fun p => by
    rw [State.latchOf, after_pins, send_onPins]
  exact ⟨_, runActs_send hready rs b, (hlatch _).trans hRS, (hlatch _).trans hE,
    (hlatch _).trans ((hother _ hRSRW.symm hRWE hRWD).trans hlow), fun i p hp => (hlatch p).trans (hD i p hp)⟩

/-! ## The words a transfer commits (R120, R121) -/

/-- A quiet state explained by its trace looks quiet to the observer. -/
theorem watch_of_quiet_explained {s : State} (hq : s.quiet) (he : s.explained) :
    latchIn s.cfg.raw.pinE (watch s.cfg.raw s.trace).pins = .level false
      ∧ latchIn s.cfg.raw.pinRW (watch s.cfg.raw s.trace).pins = .level false := by
  obtain ⟨hE, hRW, -⟩ := hq
  exact ⟨(he _ (by simp [RawCfg.pinIds])).symm.trans hE, (he _ (by simp [RawCfg.pinIds])).symm.trans hRW⟩

/-- A transfer with RW low adds its words to those the observer has latched (R121). -/
theorem latched_after_send (s : State) (rs : Level) (b : Byte)
    (hE : latchIn s.cfg.raw.pinE (watch s.cfg.raw s.trace).pins ≠ .level true)
    (hRW : latchIn s.cfg.raw.pinRW (watch s.cfg.raw s.trace).pins = .level false) :
    latched s.cfg.raw (s.after (send s.cfg.raw rs b)).trace
      = latched s.cfg.raw s.trace ++ ruleLatched s.cfg.raw rs b := by
  simp only [latched, pulsesOf, watch_after, ruleLatched]
  cases hw : s.cfg.raw.busWidth with
  | full =>
    obtain ⟨p, w, hover, -, -, -, hword, -, hpulses, -⟩ := over_send_full s.cfg hw rs b _ s.draws s.now (watch_ids _ _) hE
    simp [hover, hpulses, hword, hRW, levels]
  | half =>
    obtain ⟨p, q, w, hover, -, -, -, -, -, hfirst, hsecond, -, hpulses, -⟩ :=
      over_send_half s.cfg hw rs b _ s.draws s.now (watch_ids _ _) hE
    simp [hover, hpulses, hfirst, hsecond, hRW, levels]

/-! ## The byte they rebuild (R114, R121) -/

/-- The `n` bits of `b` from bit `k` up, most significant first, are read as the number they are. -/
theorem latchValue_levels_append (b : Byte) (k n acc : Nat) (rest : List Latch) :
    latchValue (levels b k n ++ rest) acc = latchValue rest (acc * 2 ^ n + b.toNat / 2 ^ k % 2 ^ n) := by
  induction n generalizing acc with
  | zero => simp [levels, Nat.mod_one]
  | succ n ih =>
    have hsplit : levels b k (n + 1) = .level (b.getLsbD (k + n)) :: levels b k n := by simp [levels, List.range_succ]
    have hbit : (b.getLsbD (k + n)).toNat = b.toNat / 2 ^ k / 2 ^ n % 2 := by
      rw [BitVec.getLsbD, Nat.toNat_testBit, Nat.pow_add, Nat.div_div_eq_div_mul]
    rw [hsplit, List.cons_append, latchValue, ih, hbit, Nat.mod_pow_succ]
    congr 1
    ring

theorem latchValue_levels (b : Byte) (k n acc : Nat) :
    latchValue (levels b k n) acc = some (acc * 2 ^ n + b.toNat / 2 ^ k % 2 ^ n) := by
  rw [← List.append_nil (levels b k n), latchValue_levels_append, latchValue]

/-- The words of a transfer are read as its byte: one of eight bits, or two of four. -/
theorem ruleLatched_rebuilds (c : RawCfg) (rs : Level) (b : Byte) :
    (∀ x y, ruleLatched c rs b = [x, y] → pairByte x y = some (.level rs, b.toNat))
      ∧ ∀ x, ruleLatched c rs b = [x] → latchValue x.data 0 = some b.toNat := by
  have hb := b.isLt
  cases hw : c.busWidth with
  | full =>
    simp only [ruleLatched, hw]
    refine ⟨nofun, ?_⟩
    rintro x ⟨⟩
    rw [latchValue_levels]
    congr 1
    omega
  | half =>
    simp only [ruleLatched, hw]
    refine ⟨?_, nofun⟩
    rintro x y ⟨⟩
    rw [pairByte, if_pos rfl, latchValue_levels_append, latchValue_levels, Option.map_some]
    congr 2
    omega

/-- Settles O12. The observer sees the state quiet, adds the words of the transfer (`latched_after_send`), and they rebuild the
byte (`ruleLatched_rebuilds`). -/
theorem transferCommitsItsByte : Obligations.TransferCommitsItsByte := by
  intro s rs b hquiet hexplained
  obtain ⟨hE, hRW⟩ := watch_of_quiet_explained hquiet hexplained
  obtain ⟨-, -, hready⟩ := hquiet
  exact ⟨⟨_, runActs_send hready rs b, latched_after_send s rs b (by simp [hE]) hRW⟩, ruleLatched_rebuilds s.cfg.raw rs b⟩

/-! ## The commands that are one transfer (R115, R116) -/

/-- In Initializing every command but `INIT` is refused by name (R24). -/
theorem exec_of_initializing {s : State} {i : Instr} (hp : s.pending = []) (hm : s.mode = .initializing) (hi : i ≠ .init) :
    exec i s = .refused .beforeInit :=
  (modesTurnCommandsAway s hp).1 hm i hi

/-- Settles O21. The command's effect is its one transfer: it has no completion wait and assigns nothing. -/
theorem sendInstructionRuns : Obligations.SendInstructionRuns := by
  refine ⟨fun s b h => ?_, fun s b hp hm => exec_of_initializing hp hm nofun⟩
  rw [exec_of_ready h (by simp) (by simp), ← send_eq_ruleSend]
  rfl

/-- Settles O22. The command's effect is its one transfer: it has no completion wait and assigns nothing. -/
theorem writeRuns : Obligations.WriteRuns := by
  refine ⟨fun s b h => ?_, fun s b hp hm => exec_of_initializing hp hm nofun⟩
  rw [exec_of_ready h (by simp) (by simp), ← send_eq_ruleSend]
  rfl

end Sys2Proof.Machine
end

section
/-!
PROOFS. The phases of the timing controller (41_bus_transfer.md R124): leaving the five phases of a pulse emits it, and a transfer
is the pulses of R112.
-/

namespace Sys2Proof.Machine

open Sys2Proof.Claims

theorem Controller.run_succ (c : RawCfg) (n : Nat) (q : Controller) :
    q.run c (n + 1) = ((q.leave c).1 ++ ((q.leave c).2.run c n).1, ((q.leave c).2.run c n).2) := rfl

/-- Leaving some phases and then some more. -/
theorem Controller.run_add (c : RawCfg) (m n : Nat) (q : Controller) :
    q.run c (m + n) = ((q.run c m).1 ++ ((q.run c m).2.run c n).1, ((q.run c m).2.run c n).2) := by
  induction m generalizing q with
  | zero => rw [Nat.zero_add]; rfl
  | succ m ih => rw [Nat.succ_add, run_succ, run_succ, ih, List.append_assoc]

theorem Controller.leave_settle_full {c : RawCfg} (hw : c.busWidth = .full) (b : Byte) (k : Nat) :
    Controller.leave c ⟨.settle, b, k⟩ = ([.wait c.tSettle], ⟨.idle, b, k⟩) := by
  simp [Controller.leave, hw]

theorem Controller.leave_settle_half {c : RawCfg} (hw : c.busWidth = .half) (b : Byte) (k : Nat) :
    Controller.leave c ⟨.settle, b, k⟩ = ([.wait c.tSettle], if k = 1 then ⟨.eRise, b, 2⟩ else ⟨.idle, b, k⟩) := by
  simp only [Controller.leave, hw]
  split <;> rfl

/-- The five phases of one pulse emit it (R110, R124). -/
theorem Controller.run_pulse {c : RawCfg} {b : Byte} {k : Nat} {q : Controller}
    (h : Controller.leave c ⟨.settle, b, k⟩ = ([.wait c.tSettle], q)) :
    Controller.run c 5 ⟨.eRise, b, k⟩ = (pulse c (Controller.value c ⟨.data, b, k⟩), q) := by
  have hlast : Controller.run c 1 ⟨.settle, b, k⟩ = ([.wait c.tSettle], q) := by rw [run_succ, h]; rfl
  rw [run_add c 4 1]
  show (_ ++ (Controller.run c 1 ⟨.settle, b, k⟩).1, (Controller.run c 1 ⟨.settle, b, k⟩).2) = _
  rw [hlast]
  simp [Controller.run, Controller.leave, pulse]

/-- In a Full block the five phases of the one pulse end in `IDLE`. -/
theorem Controller.run_full {c : RawCfg} (hw : c.busWidth = .full) (b : Byte) :
    Controller.run c 5 ⟨.eRise, b, 1⟩ = (pulse c b, ⟨.idle, b, 1⟩) := by
  have hvalue : Controller.value c ⟨.data, b, 1⟩ = b := by simp [Controller.value, hw]
  rw [run_pulse (leave_settle_full hw b 1), hvalue]

/-- In a Half block the phases of the first pulse lead to those of the second. -/
theorem Controller.run_half_first {c : RawCfg} (hw : c.busWidth = .half) (b : Byte) :
    Controller.run c 5 ⟨.eRise, b, 1⟩ = (pulse c (hi b), ⟨.eRise, b, 2⟩) := by
  have hvalue : Controller.value c ⟨.data, b, 1⟩ = hi b := by simp [Controller.value, hw]
  rw [run_pulse (leave_settle_half hw b 1), hvalue, if_pos rfl]

/-- The phases of the second pulse of a Half block end in `IDLE`. -/
theorem Controller.run_half_second {c : RawCfg} (hw : c.busWidth = .half) (b : Byte) :
    Controller.run c 5 ⟨.eRise, b, 2⟩ = (pulse c (lo b), ⟨.idle, b, 2⟩) := by
  have hvalue : Controller.value c ⟨.data, b, 2⟩ = lo b := by simp [Controller.value, hw]
  rw [run_pulse (leave_settle_half hw b 2), hvalue, if_neg (by decide)]

/-- No phase inside a pulse is `IDLE`. -/
theorem Controller.run_inside_pulse (c : RawCfg) (b : Byte) (k : Nat) {n : Nat} (h : n < 5) :
    (Controller.run c n ⟨.eRise, b, k⟩).2.phase ≠ .idle := by
  match n, h with
  | 0, _ => nofun
  | 1, _ => nofun
  | 2, _ => nofun
  | 3, _ => nofun
  | 4, _ => nofun

/-- Settles O13. In a Full block the phases are those of one pulse; in a Half block those of the first lead to those of the
second, and only the second ends in `IDLE`. -/
theorem phasesEmitTheTransfer : Obligations.PhasesEmitTheTransfer := by
  intro c rs b
  dsimp only [Controller.accept]
  cases hw : c.raw.busWidth with
  | full =>
    have hcount : 5 * pulsesPerByte c.raw = 5 := by simp [pulsesPerByte, hw]
    rw [hcount, Controller.run_full hw]
    exact ⟨by simp [send, hw], rfl, fun n _ hn => Controller.run_inside_pulse c.raw b 1 hn⟩
  | half =>
    have hcount : 5 * pulsesPerByte c.raw = 5 + 5 := by simp [pulsesPerByte, hw]
    rw [hcount, Controller.run_add, Controller.run_half_first hw, Controller.run_half_second hw]
    refine ⟨by simp [send, hw], rfl, fun n _ hn => ?_⟩
    by_cases hlt : n < 5
    · exact Controller.run_inside_pulse c.raw b 1 hlt
    · obtain ⟨m, rfl⟩ := Nat.exists_eq_add_of_le (Nat.le_of_not_lt hlt)
      rw [Controller.run_add, Controller.run_half_first hw]
      exact Controller.run_inside_pulse c.raw b 2 (Nat.lt_of_add_lt_add_left hn)

end Sys2Proof.Machine
end

section
/-!
PROOFS. The words a command commits (41_bus_transfer.md R120, R121): those of its transfer, or the one nibble of INIT_NIBBLE; and
the bytes that the words of several transfers are read as.
-/

namespace Sys2Proof.Machine

open Sys2Proof.Claims

/-! ## Events of the commands -/

/-- What the operations of a step keep, events that write only outputs keep. -/
theorem StepClosed.after {P : State → Prop} (h : StepClosed P) {s : State} {es : List Event} (hs : P s)
    (hw : ∀ p v, Event.wr p v ∈ es → s.dirOf p = .output) : P (s.after es) :=
  runActs_induct (fun _ a _ hs ha => h.afterAct a hs ha) hs (runActs_events hw)

/-- The events of a command keep the pins explained by the trace. -/
theorem explained_after_eventsOf {s : State} (hready : s.pinsReady) (h : s.explained) (i : Instr) :
    (s.after (eventsOf s.cfg.raw i)).explained :=
  explained_stepClosed.after h fun p _ hm => hready p (busPin_mem (wr_mem_eventsOf hm))

/-- The events of several commands leave a quiet state quiet. -/
theorem quiet_after_commands (l : List Instr) {s : State} (h : s.quiet) :
    (s.after (l.flatMap (eventsOf s.cfg.raw))).quiet := by
  induction l generalizing s with
  | nil => rwa [List.flatMap_nil, after_nil]
  | cons i l ih =>
    rw [List.flatMap_cons, after_append]
    exact ih (quiet_after_eventsOf h i)

/-- A command that transfers a byte makes that transfer and its completion wait. -/
theorem eventsOf_of_transferOf {i : Instr} {rs : Bool} {b : Byte} (h : transferOf i = some (rs, b)) (c : RawCfg) :
    eventsOf c i = send c rs b ++ completionWait c i := by
  cases i <;> cases h <;> simp [eventsOf, completionWait, issueByte]

/-- The high nibble of a function-set byte with DL = 0 (R130). -/
theorem hi_encFuncset_zero (n f : Nat) : hi (encFuncset 0 n f) = 0x02#8 := by
  apply BitVec.eq_of_toNat_eq
  rw [hi_toNat, encFuncset_toNat, BitVec.toNat_ofNat]
  omega

theorem eventsOf_initNibble (c : RawCfg) : eventsOf c .initNibble = .wr c.pinRS false :: pulse c 0x02#8 := by
  rw [eventsOf, hi_encFuncset_zero]

/-! ## The words of one command -/

/-- The words a command other than `INIT` commits (R121, R130). -/
def commandWords (c : RawCfg) : Instr → List LatchedWord
  | .initNibble => [⟨.level false, .level false, levels 0x02#8 0 c.pinD.length⟩]
  | i => (transferOf i).elim [] fun t => ruleLatched c t.1 t.2

theorem commandWords_of_transferOf {i : Instr} {rs : Bool} {b : Byte} (h : transferOf i = some (rs, b)) (c : RawCfg) :
    commandWords c i = ruleLatched c rs b := by
  cases i <;> cases h <;> rfl

/-- Waiting commits nothing. -/
theorem latched_after_wait (s : State) (d : Nat) :
    latched s.cfg.raw (s.after [.wait d]).trace = latched s.cfg.raw s.trace := by
  rw [latched, latched, pulsesOf, pulsesOf, watch_after, Watch.over_cons, Watch.over_nil, see_wait]

theorem latched_after_completionWait (s : State) (i : Instr) :
    latched s.cfg.raw (s.after (completionWait s.cfg.raw i)).trace = latched s.cfg.raw s.trace := by
  cases i with
  | clear => exact latched_after_wait s _
  | home => exact latched_after_wait s _
  | _ => simp only [completionWait, after_nil]

/-- A lone pulse with RS = 0 and RW low adds the word on its lines. -/
theorem latched_after_pulse (s : State) (v : Byte)
    (hE : latchIn s.cfg.raw.pinE (watch s.cfg.raw s.trace).pins ≠ .level true)
    (hRW : latchIn s.cfg.raw.pinRW (watch s.cfg.raw s.trace).pins = .level false) :
    latched s.cfg.raw (s.after (.wr s.cfg.raw.pinRS false :: pulse s.cfg.raw v)).trace
      = latched s.cfg.raw s.trace ++ [⟨.level false, .level false, levels v 0 s.cfg.raw.pinD.length⟩] := by
  obtain ⟨w, hselect, hpins, hRS, hRW', hE', hpulses, -⟩ :=
    over_select s.cfg false (watch s.cfg.raw s.trace) s.draws s.now (watch_ids _ _)
  obtain ⟨p, -, -, -, -, hword, hover⟩ := over_pulse s.cfg v w (s.draws + 1)
    (endTime s.draws s.now [.wr s.cfg.raw.pinRS false]) (by rw [hpins, setLatch_ids, watch_ids]) (by rwa [hE'])
  have hwatch : watch s.cfg.raw (s.after (.wr s.cfg.raw.pinRS false :: pulse s.cfg.raw v)).trace
      = w.over s.cfg.raw (s.draws + 1) (endTime s.draws s.now [.wr s.cfg.raw.pinRS false]) (pulse s.cfg.raw v) := by
    rw [watch_after, ← List.singleton_append, Watch.over_append, hselect]
    rfl
  rw [latched, latched, pulsesOf, pulsesOf, hwatch, hover]
  simp [hword, pulseWord, hRS, hRW', hRW, hpulses, levels]

/-- A command adds its words to those the observer has latched (R121). -/
theorem latched_after_eventsOf {s : State} (hquiet : s.quiet) (hexplained : s.explained) (i : Instr) :
    latched s.cfg.raw (s.after (eventsOf s.cfg.raw i)).trace = latched s.cfg.raw s.trace ++ commandWords s.cfg.raw i := by
  obtain ⟨hE, hRW⟩ := watch_of_quiet_explained hquiet hexplained
  have hlow : latchIn s.cfg.raw.pinE (watch s.cfg.raw s.trace).pins ≠ .level true := by simp [hE]
  have htransfer : ∀ rs b, transferOf i = some (rs, b) →
      latched s.cfg.raw (s.after (eventsOf s.cfg.raw i)).trace
        = latched s.cfg.raw s.trace ++ commandWords s.cfg.raw i := fun rs b hi => by
    rw [eventsOf_of_transferOf hi, commandWords_of_transferOf hi, after_append, ← latched_after_send s rs b hlow hRW]
    exact latched_after_completionWait (s.after (send s.cfg.raw rs b)) i
  cases i with
  | init => simp [eventsOf, after_nil, commandWords, transferOf]
  | initNibble =>
    rw [eventsOf_initNibble]
    exact latched_after_pulse s _ hlow hRW
  | _ => exact htransfer _ _ rfl

/-- Several commands add their words one after the other. -/
theorem latched_after_commands (l : List Instr) {s : State} (hquiet : s.quiet) (hexplained : s.explained) :
    latched s.cfg.raw (s.after (l.flatMap (eventsOf s.cfg.raw))).trace
      = latched s.cfg.raw s.trace ++ l.flatMap (commandWords s.cfg.raw) := by
  induction l generalizing s with
  | nil => simp [after_nil]
  | cons i l ih =>
    have ⟨_, _, hready⟩ := hquiet
    have hrest := ih (quiet_after_eventsOf hquiet i) (explained_after_eventsOf hready hexplained i)
    rw [after_cfg, latched_after_eventsOf hquiet hexplained, List.append_assoc] at hrest
    rw [List.flatMap_cons, List.flatMap_cons, after_append, hrest]

/-- The words of commands that transfer the bytes `bs` are those of the transfers. -/
theorem flatMap_commandWords (c : RawCfg) {rs : Level} {l : List Instr} {bs : List Byte}
    (h : List.Forall₂ (fun i b => transferOf i = some (rs, b)) l bs) :
    l.flatMap (commandWords c) = bs.flatMap (ruleLatched c rs) := by
  induction h with
  | nil => rfl
  | cons hi _ ih => rw [List.flatMap_cons, List.flatMap_cons, commandWords_of_transferOf hi, ih]

/-! ## The bytes of several transfers -/

/-- In a Full block the words of transfers are read as their bytes, each by itself. -/
theorem committedBytes_full {c : RawCfg} (hw : c.busWidth = .full) (rs : Level) (bs : List Byte) :
    committedBytes c (bs.flatMap (ruleLatched c rs)) = bs.map fun b => some (.level rs, b.toNat) := by
  simp only [committedBytes, hw]
  induction bs with
  | nil => rfl
  | cons b bs ih =>
    obtain ⟨-, hvalue⟩ := ruleLatched_rebuilds c rs b
    have hwords : ruleLatched c rs b = [⟨.level rs, .level false, levels b 0 8⟩] := by simp only [ruleLatched, hw]
    rw [List.flatMap_cons, List.map_append, ih, hwords, List.map_singleton, hvalue _ hwords]
    rfl

/-- In a Half block the words of transfers are read as their bytes two by two, after a lone nibble. -/
theorem committedBytes_half {c : RawCfg} (hw : c.busWidth = .half) (w : LatchedWord) (rs : Level) (bs : List Byte) :
    committedBytes c (w :: bs.flatMap (ruleLatched c rs)) = bs.map fun b => some (.level rs, b.toNat) := by
  simp only [committedBytes, hw, List.tail_cons]
  induction bs with
  | nil => rfl
  | cons b bs ih =>
    obtain ⟨hpair, -⟩ := ruleLatched_rebuilds c rs b
    obtain ⟨x, y, hwords⟩ : ∃ x y, ruleLatched c rs b = [x, y] := by simp [ruleLatched, hw]
    rw [List.flatMap_cons, hwords, List.cons_append, List.cons_append, List.nil_append, pairBytes, hpair x y hwords, ih,
      List.map_cons]

end Sys2Proof.Machine
end

section
/-!
PROOFS. The initialization sequence (42_init_sequence.md R130 to R137): where INIT_NIBBLE runs, the events of `INIT`, what they
commit and leave, and `INIT` as its commands in order.
-/

namespace Sys2Proof.Machine

open Sys2Proof.Claims

/-! ## The commands of `INIT` (R131) -/

/-- The commands `INIT` issues in either bus width, each with a byte. -/
def initByteCommands (c : RawCfg) : List Instr :=
  [.funcset (dlBit c) (nBit c) (fBit c), .clear, .dispctl (dBit c) (cBit c) (bBit c), .entry (idBit c) (sBit c),
    .setdd c.initAddr]

theorem initCommands_full {c : RawCfg} (hw : c.busWidth = .full) : initCommands c = initByteCommands c := by
  simp only [initCommands, hw]
  rfl

theorem initCommands_half {c : RawCfg} (hw : c.busWidth = .half) : initCommands c = .initNibble :: initByteCommands c := by
  simp only [initCommands, hw]
  rfl

/-- `INIT` comes to INIT_NIBBLE in a Half block only, and the commands with a byte are still to come there (R130). -/
theorem half_of_initNibble_reached {c : RawCfg} {done l : List Instr} (h : initCommands c = done ++ .initNibble :: l) :
    c.busWidth = .half ∧ l = initByteCommands c := by
  have hbytes : .initNibble ∉ initByteCommands c := by simp [initByteCommands]
  cases hw : c.busWidth with
  | full =>
    rw [initCommands_full hw] at h
    exact absurd (h ▸ by simp) hbytes
  | half =>
    rw [initCommands_half hw] at h
    cases done with
    | nil => exact ⟨rfl, (List.cons.inj h).2.symm⟩
    | cons j done => exact absurd ((List.cons.inj h).2 ▸ by simp) hbytes

/-! ## The bytes of `INIT` (R9, R133) -/

theorem initAddr_lt (c : RawCfg) : c.initAddr < 128 := BitVec.isLt _

theorem functionSetByte_eq (c : Cfg) :
    0x20 + 16 * (dlBit c.raw % 2) + 8 * (nBit c.raw % 2) + 4 * (fBit c.raw % 2) = functionSetByte c.raw := by
  rcases Cfg.lines_eq c with hl | hl <;> cases hw : c.raw.busWidth <;> cases hf : c.raw.font <;>
    simp [functionSetByte, dlBit, nBit, fBit, hl, hw, hf]

theorem displayControlByte_eq (c : RawCfg) :
    0x08 + 4 * (dBit c % 2) + 2 * (cBit c % 2) + bBit c % 2 = displayControlByte c := by
  have honBit : ∀ b : Bool, onBit b % 2 = if b then 1 else 0 := by decide
  rw [displayControlByte, dBit, cBit, bBit, honBit, honBit, honBit]
  split_ifs <;> rfl

theorem entryModeByte_eq (c : RawCfg) : 0x04 + 2 * (idBit c % 2) + sBit c % 2 = entryModeByte c := by
  cases he : c.entryDir <;> cases ha : c.autoShift <;> simp [entryModeByte, idBit, sBit, onBit, he, ha]

theorem setDdramByte_eq (c : RawCfg) : 0x80 + c.initAddr % 128 = setDdramByte c := by
  rw [setDdramByte, Nat.mod_eq_of_lt (initAddr_lt c)]

theorem initBytes_lt (c : Cfg) : ∀ n ∈ initBytes c.raw, n < 256 := by
  simp only [initBytes, ← functionSetByte_eq, ← displayControlByte_eq, ← entryModeByte_eq, ← setDdramByte_eq,
    List.forall_mem_cons, List.not_mem_nil, false_imp_iff, implies_true, and_true]
  omega

/-- A command whose number fits a byte transfers that byte with RS = 0. -/
theorem transferOf_of_wordNumber {i : Instr} {n : Nat} (h : i.wordNumber = some n) (hn : n < 256) :
    transferOf i = some (false, BitVec.ofNat 8 n) := by
  rw [← transferOf_number] at h
  obtain ⟨⟨rs, b⟩, ht, rfl⟩ := Option.map_eq_some_iff.1 h
  cases rs with
  | false => simp [ht]
  | true => simp at hn

/-- The commands of `INIT` transfer its bytes with RS = 0. -/
theorem initByteCommands_transferOf (c : Cfg) :
    List.Forall₂ (fun i n => transferOf i = some (false, BitVec.ofNat 8 n)) (initByteCommands c.raw) (initBytes c.raw) := by
  obtain ⟨hfuncset, -, hdispctl, hentry, hsetdd, -⟩ := by simpa only [initBytes, List.forall_mem_cons] using initBytes_lt c
  exact .cons (transferOf_of_wordNumber (congrArg some (functionSetByte_eq c)) hfuncset)
    (.cons rfl (.cons (transferOf_of_wordNumber (congrArg some (displayControlByte_eq c.raw)) hdispctl)
    (.cons (transferOf_of_wordNumber (congrArg some (entryModeByte_eq c.raw)) hentry)
    (.cons (transferOf_of_wordNumber (congrArg some (setDdramByte_eq c.raw)) hsetdd) .nil))))

/-! ## The events of `INIT` (R131, R133, R134) -/

/-- The events of `INIT`: its wait and those of its commands. -/
def initEvents (c : RawCfg) : List Event := .wait c.tPowerOn :: (initCommands c).flatMap (eventsOf c)

/-- The events of the commands with a byte are those the rules write out. -/
theorem flatMap_eventsOf_initByteCommands (c : Cfg) :
    (initByteCommands c.raw).flatMap (eventsOf c.raw) = ruleInitTail c.raw := by
  obtain ⟨hfuncset, hclear, hdispctl, hentry, hsetdd, -⟩ := by
    simpa only [initByteCommands, initBytes, List.forall₂_cons] using initByteCommands_transferOf c
  simp [initByteCommands, ruleInitTail, eventsOf_of_transferOf hfuncset, eventsOf_of_transferOf hclear,
    eventsOf_of_transferOf hdispctl, eventsOf_of_transferOf hentry, eventsOf_of_transferOf hsetdd, completionWait,
    send_eq_ruleSend]

/-- The events of the lone nibble (R130). -/
theorem eventsOf_initNibble_eq_rule (c : RawCfg) :
    eventsOf c .initNibble = [.wr c.pinRS false] ++ rulePulse c 0x02#8 0 := by
  rw [eventsOf_initNibble, pulse_eq_rulePulse_zero, List.singleton_append]

theorem initEvents_full {c : Cfg} (hw : c.raw.busWidth = .full) :
    initEvents c.raw = [.wait c.raw.tPowerOn] ++ ruleInitTail c.raw := by
  rw [initEvents, initCommands_full hw, flatMap_eventsOf_initByteCommands, List.singleton_append]

theorem initEvents_half {c : Cfg} (hw : c.raw.busWidth = .half) :
    initEvents c.raw = [.wait c.raw.tPowerOn] ++ ([.wr c.raw.pinRS false] ++ rulePulse c.raw 0x02#8 0)
      ++ ruleInitTail c.raw := by
  rw [initEvents, initCommands_half hw, List.flatMap_cons, flatMap_eventsOf_initByteCommands,
    eventsOf_initNibble_eq_rule]
  rfl

/-- Five transfers and the wait of CLEAR. -/
theorem ruleInitTail_length (c : Cfg) {n : Nat} (h : ∀ b, (send c.raw false b).length = n) :
    (ruleInitTail c.raw).length = 5 * n + 1 := by
  simp only [ruleInitTail, ← send_eq_ruleSend, List.length_append, h, List.length_singleton]
  omega

/-! ## What `INIT` leaves (R131, R137) -/

/-- The assignments of the commands of `INIT` set all of the shadow (R31, R137). -/
theorem foldl_updatesOf_initCommands (c : RawCfg) (s : State) :
    ((initCommands c).flatMap updatesOf).foldl applyUpdate s = { s with shadow := initShadow c } := by
  have hupdates : (initCommands c).flatMap updatesOf
      = [.entry (bitOperand (idBit c)) (bitOperand (sBit c)), .address .ddram (maskW 7 c.initAddr)] := by
    cases hw : c.busWidth <;> simp [initCommands, hw, updatesOf]
  have hshadow : (⟨.ddram, .known (maskW 7 c.initAddr), .known (bitOperand (idBit c)), .known (bitOperand (sBit c))⟩ : Shadow)
      = initShadow c := by
    have haddr : maskW 7 c.initAddr = c.initAddr := Nat.mod_eq_of_lt (initAddr_lt c)
    rw [initShadow, haddr]
    cases he : c.entryDir <;> cases ha : c.autoShift <;> simp [idBit, sBit, onBit, he, ha, bitOperand, maskW]
  rw [hupdates, ← hshadow]
  rfl

/-- Where it is admitted and the pins are outputs, `INIT` performs its events, enters Running and sets the shadow. -/
theorem exec_init {s : State} (h : s.readyForInit) :
    exec .init s = .next { s.after (initEvents s.cfg.raw) with mode := .running, shadow := initShadow s.cfg.raw } := by
  obtain ⟨hpending, hmode, hready⟩ := h
  rw [exec_of_admitted hpending (by rw [hmode]; rfl), actsOfInstr, runActs_actsInit hready, foldl_effect, after_cfg,
    ← after_append, foldl_updatesOf_initCommands, List.singleton_append, initEvents]
  rfl

/-- Settles O25. `INIT` performs `initEvents` (`exec_init`), which in a Full block are those of the rule. -/
theorem initRunsInFullBlock : Obligations.InitRunsInFullBlock := by
  intro s h hw
  have hsend : ∀ b, (send s.cfg.raw false b).length = 13 := fun b => by
    obtain ⟨-, hfull, -⟩ := transferIsOneOrTwoPulses s.cfg false b
    exact hfull hw
  refine ⟨?_, ?_⟩
  · rw [exec_init h, initEvents_full hw]
  · rw [List.length_append, ruleInitTail_length s.cfg hsend]
    rfl

/-- Settles O26. `INIT` performs `initEvents` (`exec_init`), which in a Half block have the lone nibble second. -/
theorem initRunsInHalfBlock : Obligations.InitRunsInHalfBlock := by
  intro s h hw
  have hsend : ∀ b, (send s.cfg.raw false b).length = 17 := fun b => by
    obtain ⟨-, -, hhalf⟩ := transferIsOneOrTwoPulses s.cfg false b
    exact hhalf hw
  have hnibble : ([Event.wr s.cfg.raw.pinRS false] ++ rulePulse s.cfg.raw 0x02#8 0).length = 9 := by
    rw [← pulse_eq_rulePulse_zero, List.length_append, pulse_length, Cfg.pinD_length, hw]
    rfl
  dsimp only
  refine ⟨?_, ?_⟩
  · rw [exec_init h, initEvents_half hw]
  · rw [List.length_append, List.length_append, hnibble, ruleInitTail_length s.cfg hsend]
    rfl

/-! ## What `INIT` leaves on the pins (R137) -/

/-- The last event of `INIT` is the last one of its set-DDRAM transfer. -/
theorem exists_initEvents_eq_append_send (c : Cfg) :
    ∃ l : List Instr, initEvents c.raw = (.wait c.raw.tPowerOn :: l.flatMap (eventsOf c.raw))
      ++ send c.raw false (BitVec.ofNat 8 (setDdramByte c.raw)) := by
  obtain ⟨l, hl⟩ : ∃ l, initCommands c.raw = l ++ [.setdd c.raw.initAddr] :=
    ⟨(initCommands c.raw).dropLast, by cases hw : c.raw.busWidth <;> simp [initCommands, hw]⟩
  have hsetdd : transferOf (.setdd c.raw.initAddr) = some (false, BitVec.ofNat 8 (setDdramByte c.raw)) :=
    transferOf_of_wordNumber (congrArg some (setDdramByte_eq c.raw)) (initBytes_lt c _ (by simp [initBytes]))
  exact ⟨l, by simp [initEvents, hl, eventsOf_of_transferOf hsetdd, completionWait]⟩

/-- Settles O28. The mode and the shadow are those of `exec_init`; the last thing `INIT` does to the pins is its set-DDRAM
transfer, in a quiet state. -/
theorem initLeavesARunningBlock : Obligations.InitLeavesARunningBlock := by
  intro s h hquiet
  have ⟨hpending, _, _⟩ := h
  obtain ⟨l, hl⟩ := exists_initEvents_eq_append_send s.cfg
  have hbefore : (s.after (.wait s.cfg.raw.tPowerOn :: l.flatMap (eventsOf s.cfg.raw))).quiet := by
    rw [← List.singleton_append, after_append]
    exact quiet_after_commands l (quiet_commandClosed.wait s _ hquiet)
  obtain ⟨u, hu, hRS, hE, hRW, hD⟩ := transferLeavesItsLevels _ false (BitVec.ofNat 8 (setDdramByte s.cfg.raw)) hbefore
  obtain ⟨-, -, hready⟩ := hbefore
  rw [runActs_send hready] at hu
  obtain rfl := Host.Outcome.next.inj hu
  refine ⟨_, exec_init h, rfl, hpending, ?_⟩
  rw [hl, after_append]
  exact ⟨hE, hRW, hRS, hD, rfl⟩

/-! ## What `INIT` commits (R133, R134) -/

/-- The words of `INIT`, added to those the observer has latched. -/
theorem latched_after_initEvents {s : State} (hquiet : s.quiet) (hexplained : s.explained) :
    latched s.cfg.raw (s.after (initEvents s.cfg.raw)).trace
      = latched s.cfg.raw s.trace ++ (initCommands s.cfg.raw).flatMap (commandWords s.cfg.raw) := by
  have hcommands := latched_after_commands (initCommands s.cfg.raw)
    (quiet_commandClosed.wait s s.cfg.raw.tPowerOn hquiet) (explained_stepClosed.after hexplained (by simp))
  rwa [after_cfg, latched_after_wait, ← after_append] at hcommands

theorem initByteCommands_words (c : Cfg) :
    (initByteCommands c.raw).flatMap (commandWords c.raw)
      = ((initBytes c.raw).map (BitVec.ofNat 8)).flatMap (ruleLatched c.raw false) :=
  flatMap_commandWords c.raw (List.forall₂_map_right_iff.2 (initByteCommands_transferOf c))

/-- The bytes of `INIT` as numbers. -/
theorem initBytes_values (c : Cfg) :
    ((initBytes c.raw).map (BitVec.ofNat 8)).map (fun b => some (Latch.level false, b.toNat))
      = (initBytes c.raw).map fun n => some (.level false, n) := by
  rw [List.map_map]
  refine List.map_congr_left fun n hn => ?_
  rw [Function.comp, BitVec.toNat_ofNat, Nat.mod_eq_of_lt (initBytes_lt c n hn)]

/-- Settles O27. The words are those of the commands of `INIT` (`latched_after_initEvents`); in a Half block the first is the lone
nibble, and the others are read two by two. -/
theorem initCommitsItsBytes : Obligations.InitCommitsItsBytes := by
  intro s h hquiet hexplained hnone
  refine ⟨_, exec_init h, ?_⟩
  have hnew : latched s.cfg.raw s.trace = [] := by rw [latched, hnone, List.reverse_nil, List.map_nil]
  have hwords := latched_after_initEvents hquiet hexplained
  rw [hnew, List.nil_append] at hwords
  dsimp only
  cases hw : s.cfg.raw.busWidth with
  | full =>
    rw [initCommands_full hw, initByteCommands_words] at hwords
    refine ⟨?_, fun _ => ?_, nofun⟩
    · rw [hwords, committedBytes_full hw, initBytes_values]
    · rw [hwords]
      simp [initBytes, ruleLatched, hw]
  | half =>
    rw [initCommands_half hw, List.flatMap_cons, initByteCommands_words] at hwords
    refine ⟨?_, nofun, fun _ => ⟨?_, ?_⟩⟩
    · rw [hwords]
      exact (committedBytes_half hw _ false _).trans (initBytes_values s.cfg)
    · rw [hwords]
      simp [initBytes, commandWords, ruleLatched, hw]
    · rw [hwords, commandWords, Cfg.pinD_length, hw]
      rfl

/-! ## INIT_NIBBLE (R130, R132) -/

/-- Settles O24. Where `INIT` has come to it (`exec_insideInit`) more commands follow, its events are those of the rule, and it
assigns nothing; everywhere else it is refused, in a Full block because it is no command of `INIT`. -/
theorem initNibbleRunsInsideInit : Obligations.InitNibbleRunsInsideInit := by
  have hrunning : ∀ s : State, s.pending = [] → s.mode = .running → exec .initNibble s = .refused .onlyInsideInit :=
    fun s hp hm => exec_of_modeRefusal hp (by rw [hm]; rfl)
  have hinit : ∀ s : State, s.pending = [] → s.mode = .initializing → exec .initNibble s = .refused .beforeInit :=
    fun s hp hm => exec_of_initializing hp hm nofun
  have hflight : ∀ s : State, s.pending ≠ [] → (∀ l, ¬ s.initComesTo .initNibble l) →
      exec .initNibble s = .refused .commandInFlight := fun s hp hl => by
    obtain ⟨hrefused, -⟩ := nothingInterruptsACommand
    refine hrefused s _ hp (Bool.eq_false_iff.2 fun hby => ?_)
    obtain ⟨l, h⟩ := (issuedByInit_iff s _).1 hby
    exact hl l h
  refine ⟨fun s l h hready => ?inside, hrunning, hinit, hflight, fun s hw => ?full⟩
  case inside =>
    have ⟨_, done, hdone⟩ := h
    obtain ⟨-, hl⟩ := half_of_initNibble_reached hdone
    rw [exec_insideInit hready (by simp [hl, initByteCommands]) h, effect_eq, eventsOf_initNibble_eq_rule]
    rfl
  case full =>
    by_cases hp : s.pending = []
    · cases hm : s.mode with
      | running => exact ⟨_, hrunning s hp hm⟩
      | initializing => exact ⟨_, hinit s hp hm⟩
    · refine ⟨_, hflight s hp fun l h => ?_⟩
      obtain ⟨-, done, hdone⟩ := h
      obtain ⟨hhalf, -⟩ := half_of_initNibble_reached hdone
      rw [hw] at hhalf
      cases hhalf

/-! ## `INIT` as its commands in order (R131, R132) -/

/-- From where `INIT` has come to the first of `l`, executing `l` in order leaves the commands' effects and Running. -/
theorem foldl_exec_of_initRest (l : List Instr) (hne : l ≠ []) {s : State} (hready : s.pinsReady)
    (hpend : s.pending = initRest s.cfg.raw l) {done : List Instr} (hdone : initCommands s.cfg.raw = done ++ l) :
    l.foldl (fun r i => Result.andThen r (exec i)) (.next s)
      = .next (applyUpdate (l.foldl (fun s i => effect i s) { s with pending := [] }) .enterRunning) := by
  induction l generalizing s done with
  | nil => exact absurd rfl hne
  | cons i l ih =>
    rw [List.foldl_cons, List.foldl_cons, andThen_next, effect_with_pending]
    by_cases hl : l = []
    · subst hl
      exact exec_lastOfInit hready ⟨hpend, done, hdone⟩
    · have hcfg : (effect i s).cfg = s.cfg := effect_cfg i s
      rw [exec_insideInit hready hl ⟨hpend, done, hdone⟩]
      exact ih hl (effect_pinsReady hready i) (by simp only [hcfg]) (done := done ++ [i]) (by simp [hcfg, hdone])

/-- Settles O29. Both sides are the wait, the effects of the commands in order, and Running (`runActs_actsInit`,
`foldl_exec_of_initRest`). -/
theorem initIsItsCommandsInOrder : Obligations.InitIsItsCommandsInOrder := by
  rintro s ⟨hpending, hmode, hready⟩
  have hidle : s.after [.wait s.cfg.raw.tPowerOn] = { s.after [.wait s.cfg.raw.tPowerOn] with pending := [] } := by
    rw [← hpending]
    rfl
  have hcommands := foldl_exec_of_initRest (initCommands s.cfg.raw) (by simp [initCommands])
    (s := { s.after [.wait s.cfg.raw.tPowerOn] with pending := initRest s.cfg.raw (initCommands s.cfg.raw) })
    (after_pinsReady hready _) rfl (done := []) rfl
  rw [exec_of_admitted hpending (by rw [hmode]; rfl), actsOfInstr, runActs_actsInit hready, hidle]
  exact hcommands.symm

end Sys2Proof.Machine
end

section
/-!
PROOFS. The host's row buffer and renderer (43_host_line_renderer.md R141 to R145, R149): what `set_line` stores, that every step
keeps the shape of the buffer, and the transfers of `display_line`.
-/

namespace Sys2Proof.Machine

open Sys2Proof.Claims

/-! ## The bound on a row's index (R142, R143) -/

theorem rowInRange_of_outside {c : RawCfg} {index : Int} (h : index < 0 ∨ c.rowCount ≤ index) : rowInRange c index = false := by
  simp only [rowInRange, Bool.and_eq_false_iff, decide_eq_false_iff_not]
  omega

theorem rowInRange_of_lt {c : RawCfg} {k : Nat} (h : k < c.rowCount) : rowInRange c k = true := by
  simp [rowInRange, h]

/-! ## The shape of the buffer (R141) -/

/-- What a step does to the rows: serving a `set_line` stores its text, anything else leaves them alone. -/
theorem step_rows_cases {s t : State} (h : step s = .next t) :
    t.rows = s.rows ∨ ∃ index text rest, t = setLine index text { s with queue := rest } := by
  rcases step_eq_next h with ⟨a, rest, -, -, rfl⟩ | ⟨-, -, rfl⟩ | ⟨r, rest, hp, -, hr⟩
  · exact .inl (afterAct_rows _ a)
  · exact .inl rfl
  · rcases serve_eq_next (s := { s with queue := rest }) hp hr with ⟨i, -, -, hrun⟩ | ⟨i, -, -, rfl⟩ |
      ⟨index, text, -, rfl⟩ | ⟨index, -, rfl⟩ | ⟨content, -, -, rfl⟩ | ⟨-, -, rfl⟩ | ⟨p, -, -, -, rfl⟩ | ⟨-, rfl⟩ |
      ⟨d, -, rfl⟩
    · obtain ⟨-, -, -, hrows, -⟩ := foldl_afterAct_frame (actsOfInstr s.cfg.raw i) { s with queue := rest }
      rw [runActs_eq_next hrun]
      exact .inl hrows
    · exact .inl rfl
    · exact .inr ⟨index, text, rest, rfl⟩
    · exact .inl rfl
    · exact .inl rfl
    · exact .inl rfl
    · exact .inl rfl
    · exact .inl (deadlineWait_rows { s with queue := rest })
    · exact .inl rfl

/-- Settles O44. A stored text keeps the shape (`setLine_rowsShaped`), and a step changes the rows in no other way. -/
theorem stepKeepsTheRowsShaped : Obligations.StepKeepsTheRowsShaped := by
  intro s t hs h
  rcases step_rows_cases h with hrows | ⟨index, text, rest, rfl⟩
  · obtain ⟨hcfg, -⟩ := stepOnlyExtendsTheTrace s t h
    unfold State.rowsShaped
    rwa [hrows, hcfg]
  · exact setLine_rowsShaped index text (s := { s with queue := rest }) hs

/-! ## `set_line` (R142) -/

/-- How many characters of a text a row of capacity `cap` stores. -/
def storedLength (cap : Nat) (text : List Byte) : Nat := min (untilTerminator text).length (cap - 1)

theorem untilTerminator_isPrefix (text : List Byte) : untilTerminator text <+: text := List.takeWhile_prefix _

/-- The stored characters are the first ones of the text itself: what stands before its terminator is how it begins. -/
theorem take_untilTerminator (cap : Nat) (text : List Byte) :
    (untilTerminator text).take (cap - 1) = text.take (storedLength cap text) := by
  rw [List.prefix_iff_eq_take.1 (untilTerminator_isPrefix text), List.take_take, Nat.min_comm, storedLength]

theorem length_take_storedLength (cap : Nat) (text : List Byte) :
    (text.take (storedLength cap text)).length = storedLength cap text :=
  List.length_take_of_le (Nat.le_trans (Nat.min_le_left _ _) (untilTerminator_isPrefix text).length_le)

/-- A stored row: the characters, the terminator, and what the row held after that place. -/
theorem storeText_eq (cap : Nat) (text row : List Byte) :
    storeText cap text row = text.take (storedLength cap text) ++ 0x00#8 :: row.drop (storedLength cap text + 1) := by
  rw [storeText, take_untilTerminator, length_take_storedLength]

theorem take_storeText (cap : Nat) (text row : List Byte) :
    (storeText cap text row).take (storedLength cap text) = text.take (storedLength cap text) := by
  rw [storeText_eq, List.take_left' (length_take_storedLength cap text)]

theorem getElem?_storeText (cap : Nat) (text row : List Byte) :
    (storeText cap text row)[storedLength cap text]? = some 0x00#8 := by
  rw [storeText_eq, List.getElem?_append_right (length_take_storedLength cap text).le, length_take_storedLength, Nat.sub_self]
  rfl

theorem drop_storeText (cap : Nat) (text row : List Byte) :
    (storeText cap text row).drop (storedLength cap text + 1) = row.drop (storedLength cap text + 1) := by
  rw [storeText_eq, List.append_cons]
  exact List.drop_left' (by rw [List.length_append, length_take_storedLength]; rfl)

theorem setLine_of_outside {s : State} {index : Int} (h : index < 0 ∨ s.cfg.raw.rowCount ≤ index) (text : List Byte) :
    setLine index text s = s := by
  rw [setLine, rowInRange_of_outside h]
  rfl

theorem setLine_of_lt {s : State} {k : Nat} (h : k < s.cfg.raw.rowCount) (text : List Byte) :
    setLine k text s = { s with rows := s.rows.set k (storeText s.cfg.raw.rowCapacity text (s.rows.getD k [])) } := by
  rw [setLine, rowInRange_of_lt h]
  rfl

/-- Settles O54. The row stored is that of `storeText_eq`, whose three parts have a lemma each. -/
theorem setLineStoresTheText : Obligations.SetLineStoresTheText := by
  intro s index text q hp hq hrows
  refine ⟨setLine index text { s with queue := q }, step_of_queue hp hq,
    fun hout => setLine_of_outside (s := { s with queue := q }) hout text, ?_⟩
  rintro k rfl hk
  have hget : s.rows[k]? = some (s.rows.getD k []) := by
    simp [List.getD_eq_getElem?_getD, List.getElem?_eq_getElem (hrows ▸ hk)]
  exact ⟨_, _, hget, setLine_of_lt (s := { s with queue := q }) hk text, take_storeText _ text _,
    getElem?_storeText _ text _, drop_storeText _ text _⟩

/-! ## `display_line` (R143, R149) -/

/-- A command does not look at what is asked for behind it. -/
theorem effect_with_queue (i : Instr) (s : State) (q : List Request) :
    effect i { s with queue := q } = { effect i s with queue := q } := by
  rw [effect_eq, effect_eq]
  rfl

/-- A command leaves a ready state ready. -/
theorem effect_ready {s : State} (h : s.ready) (i : Instr) : (effect i s).ready := by
  obtain ⟨hpending, hmode, hpins⟩ := h
  exact ⟨by rw [effect_eq]; exact hpending, by rw [effect_mode, hmode], effect_pinsReady hpins i⟩

/-- In a ready state a step serves the call of a command of Running by its effect. -/
theorem step_of_call {s : State} (h : s.ready) {i : Instr} (hi : i ≠ .init) (hn : i ≠ .initNibble) {q : List Request}
    (hq : s.queue = .call i :: q) : step s = .next { effect i s with queue := q } := by
  rw [step_of_queue h.1 hq, ← effect_with_queue]
  exact exec_of_ready (s := { s with queue := q }) h hi hn

/-- In a ready state the calls of a list of commands of Running, first in the queue, run to their effects in order. -/
theorem steps_of_calls {l : List Instr} (hl : ∀ i ∈ l, i ≠ .init ∧ i ≠ .initNibble) {s : State} (h : s.ready)
    (q : List Request) :
    steps l.length { s with queue := l.map .call ++ q }
      = .next { l.foldl (fun s i => effect i s) s with queue := q } := by
  induction l generalizing s with
  | nil => rfl
  | cons i l ih =>
    obtain ⟨⟨hi, hn⟩, hl⟩ := List.forall_mem_cons.1 hl
    have hstep : step { s with queue := (i :: l).map .call ++ q } = .next { effect i s with queue := l.map .call ++ q } := by
      rw [step_of_call (s := { s with queue := (i :: l).map .call ++ q }) h hi hn rfl, effect_with_queue]
      rfl
    rw [List.length_cons, steps_of_step hstep, ih hl (effect_ready h i), List.foldl_cons]

theorem displayLine_of_outside {s : State} {index : Int} (h : index < 0 ∨ s.cfg.raw.rowCount ≤ index) :
    displayLine index s = s := by
  rw [displayLine, displayCommands, rowInRange_of_outside h]
  rfl

/-- The commands that show a row (R143): its address, then its characters. -/
def rowCommands (addr : BitVec 7) (row : List Byte) : List Instr :=
  .setdd addr.toNat :: (untilTerminator row).map fun ch => .write ch.toNat

theorem displayCommands_of_row {s : State} {k : Nat} {addr : BitVec 7} {row : List Byte}
    (haddr : s.cfg.raw.rowAddr[k]? = some addr) (hrow : s.rows[k]? = some row) :
    displayCommands s k = rowCommands addr row := by
  have hk : k < s.cfg.raw.rowCount := by
    rw [← Cfg.rowAddr_length]
    exact (List.getElem?_eq_some_iff.1 haddr).1
  simp [displayCommands, rowInRange_of_lt hk, rowCommands, List.getD_eq_getElem?_getD, haddr, hrow]

theorem ne_init_of_mem_rowCommands {addr : BitVec 7} {row : List Byte} {i : Instr} (h : i ∈ rowCommands addr row) :
    i ≠ .init ∧ i ≠ .initNibble := by
  rcases List.mem_cons.1 h with rfl | h
  · exact ⟨nofun, nofun⟩
  · obtain ⟨ch, -, rfl⟩ := List.mem_map.1 h
    exact ⟨nofun, nofun⟩

/-- The events of a row's commands: the transfer of its address byte with RS = 0, then one of each character with RS = 1. -/
theorem flatMap_eventsOf_rowCommands (c : Cfg) (addr : BitVec 7) (row : List Byte) :
    (rowCommands addr row).flatMap (eventsOf c.raw)
      = ruleSend c.raw false (BitVec.ofNat 8 (0x80 + addr.toNat))
          ++ (untilTerminator row).flatMap (ruleSend c.raw true) := by
  have haddr : encSetdd addr.toNat = BitVec.ofNat 8 (0x80 + addr.toNat) := by
    have hlt := addr.isLt
    apply BitVec.eq_of_toNat_eq
    rw [encSetdd_toNat, BitVec.toNat_ofNat]
    omega
  have haddress : eventsOf c.raw (.setdd addr.toNat) = ruleSend c.raw false (BitVec.ofNat 8 (0x80 + addr.toNat)) := by
    rw [eventsOf_of_rawForm rfl, send_eq_ruleSend, haddr]
    exact List.append_nil _
  have hchar (ch : Byte) : eventsOf c.raw (.write ch.toNat) = ruleSend c.raw true ch := by
    rw [eventsOf, byteOperand_of_toNat, send_eq_ruleSend]
  rw [rowCommands, List.flatMap_cons, List.flatMap_map, haddress]
  simp only [hchar]

/-- Of a row's commands only the first assigns, the address. -/
theorem flatMap_updatesOf_rowCommands (addr : BitVec 7) (row : List Byte) :
    (rowCommands addr row).flatMap updatesOf = [.address .ddram addr.toNat] := by
  simp [rowCommands, List.flatMap_map, updatesOf, maskW, Nat.mod_eq_of_lt addr.isLt]

/-- Settles O55. The expanding step queues the row's commands, which run to their effects (`steps_of_calls`): all their events and
then the one assignment (`foldl_effect`). -/
theorem displayLineSendsTheRow : Obligations.DisplayLineSendsTheRow := by
  intro s index q hready hq
  have hstep : step s = .next (displayLine index { s with queue := q }) := step_of_queue hready.1 hq
  refine ⟨fun hout => ?outside, ?inside⟩
  case outside => rw [hstep, displayLine_of_outside (s := { s with queue := q }) hout]
  case inside =>
    rintro k row addr rfl haddr hrow
    have hlength : (row.takeWhile (· != 0x00#8)).length + 1 = (rowCommands addr row).length := by
      simp [rowCommands, untilTerminator]
    rw [steps_of_step hstep, displayLine, displayCommands_of_row (s := { s with queue := q }) haddr hrow, hlength,
      steps_of_calls (fun i => ne_init_of_mem_rowCommands) hready, foldl_effect, flatMap_eventsOf_rowCommands,
      flatMap_updatesOf_rowCommands]
    rfl

end Sys2Proof.Machine
end

section
/-!
PROOFS. The host's Driver Task (43_host_line_renderer.md R146 to R148): one period of the Running loop, and its deadlines.
-/

namespace Sys2Proof.Machine

open Sys2Proof.Claims

/-- Settles O56. The step serves the period, and the mode decides what that is. -/
theorem periodAsksInOrder : Obligations.PeriodAsksInOrder := by
  intro s content q hp hq
  rw [step_of_queue hp hq]
  refine ⟨fun hm => ?running, fun hm => ?initializing⟩
  case running => simp only [serve, period, hm, periodRequests]
  case initializing => simp only [serve, period, hm]

/-- A task that has just woken and works for less than a period wakes one period later (R148). -/
theorem workThenWait_of_lt {s : State} {w : Nat} (hs : s.now = s.wake) (hw : w < s.cfg.raw.period) :
    workThenWait s w = { s with now := s.wake + s.cfg.raw.period, wake := s.wake + s.cfg.raw.period } :=
  if_pos (show s.now + w ≤ s.wake + s.cfg.raw.period by omega)

/-- Settles O58. Each iteration leaves a task that has just woken, one period later (`workThenWait_of_lt`). -/
theorem deadlinesDoNotDrift : Obligations.DeadlinesDoNotDrift := by
  intro s works
  induction works generalizing s with
  | nil => exact fun hs _ => ⟨by simp, hs, rfl⟩
  | cons w works ih =>
    intro hs hworks
    obtain ⟨hw, hrest⟩ := List.forall_mem_cons.1 hworks
    rw [List.foldl_cons, workThenWait_of_lt hs hw]
    obtain ⟨hwake, hnow, htrace⟩ :=
      ih { s with now := s.wake + s.cfg.raw.period, wake := s.wake + s.cfg.raw.period } rfl hrest
    exact ⟨by rw [hwake, List.length_cons]; ring, hnow, htrace⟩

end Sys2Proof.Machine
end

section
/-!
PROOFS. The Driver Task's own pin and wait (60_exceptions.md R173, R175): the toggle of the debug pin and the host's busy-wait, each
at most one event outside any command.
-/

namespace Sys2Proof.Machine

/-- An event performed while serving a request is one more event of the state, with the rest of the queue. -/
theorem afterEvent_with_queue (s : State) (q : List Request) (e : Event) :
    ({ s with queue := q } : State).afterEvent e = { s.after [e] with queue := q } := by
  rw [afterEvent_eq]
  rfl

theorem toggleDebug_of_none {s : State} (hdbg : s.cfg.raw.pinDbg = none) : toggleDebug s = .next s := by
  simp only [toggleDebug, hdbg]

/-- The toggle is one write of the debug pin, admitted because the pin is an output (R22). -/
theorem toggleDebug_of_level {s : State} {p : PinId} {v : Level} (hdbg : s.cfg.raw.pinDbg = some p)
    (hdir : s.dirOf p = .output) (hlatch : s.latchOf p = .level v) :
    toggleDebug s = .next (s.afterEvent (.wr p (!v))) := by
  have hadmits : s.admitsEvent (.wr p (!v)) := by
    rintro _ _ ⟨⟩
    exact hdir
  simp only [toggleDebug, hdbg, hlatch, levelOf, emit_of_admits hadmits]

/-- Settles O57. The step serves the toggle: without a debug pin that is nothing, with one it is the one write
(`toggleDebug_of_level`), which a read after it shows on that pin and on no other. -/
theorem debugToggleInverts : Obligations.DebugToggleInverts := by
  intro s q hp hq
  rw [step_of_queue hp hq]
  refine ⟨fun hdbg => ?none, fun p v hdbg hdir hlatch => ?some⟩
  case none => exact toggleDebug_of_none (s := { s with queue := q }) hdbg
  case some =>
    exact ⟨_, toggleDebug_of_level (s := { s with queue := q }) hdbg hdir hlatch, afterEvent_with_queue s q _,
      afterEvent_wr_latchOf_self (s := { s with queue := q }) hdir _, fun _ hr => afterEvent_wr_latchOf_ne _ hr _⟩

/-- Settles O59. A wait is always admitted; it moves the clock by at least its argument (R28) and has no part in the pins. -/
theorem busyWaitLasts : Obligations.BusyWaitLasts := by
  intro s d q hp hq
  have hstep : step s = .next (({ s with queue := q } : State).afterEvent (.wait d)) :=
    (step_of_queue hp hq).trans (emit_of_admits (e := .wait d) nofun)
  exact ⟨_, hstep, afterEvent_with_queue s q _, add_minTime_le_afterEvent_now { s with queue := q } (.wait d), rfl⟩

end Sys2Proof.Machine
end

section
/-!
PROOFS. The completion bound (70_reset_and_hazards.md R192, R197, R203): what the observer keeps of the transfer of one byte, when
that byte is a clear or home byte, and that every command but a raw send of one leaves no bound violated or owed.
-/

namespace Sys2Proof.Machine

open Sys2Proof.Claims

/-! ## The byte a transfer completes (R121) -/

/-- The levels of the lowest bits. -/
theorem levels_zero (b : Byte) (n : Nat) : ((List.range n).reverse.map fun i => Latch.level (b.getLsbD i)) = levels b 0 n := by
  simp [levels]

/-- The byte that two nibbles rebuild does not depend on RW. -/
theorem pairByte_levels (rs : Level) (rw : Latch) (b : Byte) :
    pairByte ⟨.level rs, rw, levels b 4 4⟩ ⟨.level rs, rw, levels b 0 4⟩ = some (.level rs, b.toNat) := by
  have hb := b.isLt
  rw [pairByte, if_pos rfl, latchValue_levels_append, latchValue_levels, Option.map_some]
  congr 2
  omega

/-- In a Full block every pulse completes its byte. -/
theorem completedByte_full {c : RawCfg} (hw : c.busWidth = .full) {rs : Level} {rw : Latch} {b : Byte} {p : Pulse}
    (hp : p.word = ⟨.level rs, rw, levels b 0 8⟩) (ps : List Pulse) :
    completedByte c (p :: ps) = some (.level rs, b.toNat) := by
  have hb := b.isLt
  simp only [completedByte, hw, hp, latchValue_levels, Option.map_some]
  congr 2
  omega

/-- In a Half block whose pulses pair up, the first pulse of a transfer completes nothing. -/
theorem completedByte_half_first {c : RawCfg} (hw : c.busWidth = .half) (p : Pulse) {ps : List Pulse}
    (hpaired : ps.length % 2 = 1) : completedByte c (p :: ps) = none := by
  cases ps with
  | nil => simp at hpaired
  | cons q ps =>
    rw [List.length_cons] at hpaired
    simp only [completedByte, hw]
    exact if_neg (by omega)

/-- There the second one completes the byte. -/
theorem completedByte_half_second {c : RawCfg} (hw : c.busWidth = .half) {rs : Level} {rw : Latch} {b : Byte} {p q : Pulse}
    (hp : p.word = ⟨.level rs, rw, levels b 4 4⟩) (hq : q.word = ⟨.level rs, rw, levels b 0 4⟩) {ps : List Pulse}
    (hpaired : ps.length % 2 = 1) : completedByte c (q :: p :: ps) = some (.level rs, b.toNat) := by
  simp only [completedByte, hw, if_pos hpaired, hp, hq, pairByte_levels]

/-! ## The observer over one transfer (R112, R192) -/

/-- Between `start` and `stop` the observer goes from `w` to `w'` over a transfer of `b` with pulses from `first` to `last`: it has
the pulses of one byte more, its mark is the last fall if `b` is a clear or home byte, and its flag was checked at the first rise. -/
structure Watch.Transferred (c : RawCfg) (rs : Level) (b : Byte) (w w' : Watch) (start stop : Nat) (first last : Pulse) :
    Prop where
  rise : start ≤ first.riseAt
  fall : last.fallAt ≤ stop
  count : w'.pulses.length = w.pulses.length + pulsesPerByte c
  newest : w'.pulses[0]? = some last
  oldest : w'.pulses[pulsesPerByte c - 1]? = some first
  older : ∀ j, w'.pulses[pulsesPerByte c + j]? = w.pulses[j]?
  mark : w'.clearFall = if isClearOrHome (some (.level rs, b.toNat)) then some last.fallAt else none
  flag : w'.hazard = w.flagAt c first.riseAt

/-- The pulses of a Half block pair up after the lone nibble (R57, R121). -/
def Watch.paired (c : RawCfg) (w : Watch) : Prop := c.busWidth = .half → w.pulses.length % 2 = 1

/-- The observer goes over every transfer in that way, whatever is on RW. -/
theorem transferred_over_send (c : Cfg) (rs : Level) (b : Byte) {w : Watch} (hids : idsOf w.pins = c.raw.pinIds)
    (hE : latchIn c.raw.pinE w.pins ≠ .level true) (hpaired : w.paired c.raw) (k now : Nat) :
    ∃ first last, Watch.Transferred c.raw rs b w (w.over c.raw k now (send c.raw rs b)) now
      (endTime k now (send c.raw rs b)) first last := by
  cases hw : c.raw.busWidth with
  | full =>
    obtain ⟨p, w', rfl, hrise, -, hfall, hword, -, hpulses, hmark, hflag⟩ := over_send_full c hw rs b w k now hids hE
    rw [levels_zero] at hword
    have hbyte := completedByte_full hw hword w.pulses
    have hcount : pulsesPerByte c.raw = 1 := by rw [pulsesPerByte, hw]
    rw [markAt, hbyte] at hmark
    exact ⟨p, p, hrise, hfall, by simp [hpulses, hcount], by simp [hpulses], by simp [hpulses, hcount],
      fun j => by simp [hpulses, hcount, Nat.add_comm 1 j], hmark, hflag⟩
  | half =>
    obtain ⟨p, q, w', rfl, hrise, -, -, -, hfall, hfirst, hsecond, -, hpulses, hmark, hflag⟩ :=
      over_send_half c hw rs b w k now hids hE
    rw [levels_zero] at hsecond
    have hnone := completedByte_half_first hw p (hpaired hw)
    have hbyte := completedByte_half_second hw hfirst hsecond (hpaired hw)
    have hcount : pulsesPerByte c.raw = 2 := by rw [pulsesPerByte, hw]
    rw [markAt, hbyte] at hmark
    rw [markAt, hnone] at hflag
    exact ⟨p, q, hrise, hfall, by simp [hpulses, hcount], by simp [hpulses], by simp [hpulses, hcount],
      fun j => by simp [hpulses, hcount, Nat.add_comm 2 j], hmark, by simpa [isClearOrHome] using hflag⟩

/-- A transfer of a byte keeps the pulses paired. -/
theorem Watch.Transferred.paired {c : RawCfg} {rs : Level} {b : Byte} {w w' : Watch} {start stop : Nat} {first last : Pulse}
    (h : Watch.Transferred c rs b w w' start stop first last) (hpaired : w.paired c) : w'.paired c := by
  intro hw
  have hcount : w'.pulses.length = w.pulses.length + 2 := by rw [h.count, pulsesPerByte, hw]
  have := hpaired hw
  omega

/-! ## What is owed (R192) -/

/-- At `now` the bound of the last clear or home byte is over. -/
def Watch.paidBy (c : RawCfg) (w : Watch) (now : Nat) : Prop := ∀ f ∈ w.clearFall, f + c.tClear ≤ now

/-- A rise after the bound is over raises no flag. -/
theorem flagAt_eq_false_of_paidBy {c : RawCfg} {w : Watch} {now t : Nat} (hflag : w.hazard = false) (hpaid : w.paidBy c now)
    (hle : now ≤ t) : w.flagAt c t = false := by
  rw [Watch.flagAt, hflag, Bool.false_or]
  cases hf : w.clearFall with
  | none => rfl
  | some f =>
    have := hpaid f hf
    exact decide_eq_false (by omega)

/-- The observer ignores the completion wait of CLEAR and HOME. -/
theorem over_completionWait (c : RawCfg) (w : Watch) (k now : Nat) (i : Instr) : w.over c k now (completionWait c i) = w := by
  cases i <;> rfl

/-- A command that sends a clear or home byte is CLEAR, HOME or a raw send of one. -/
theorem clear_or_home_of_transferOf {i : Instr} {rs : Bool} {b : Byte} (h : transferOf i = some (rs, b))
    (hbyte : isClearOrHome (some (.level rs, b.toNat)) = true) : i = .clear ∨ i = .home ∨ isRawClear i := by
  have hnumber : i.wordNumber = some (0x100 * rs.toNat + b.toNat) := by rw [← transferOf_number, h]; rfl
  obtain ⟨rfl, hb⟩ : rs = false ∧ (b.toNat = 1 ∨ b.toNat = 2) := by
    simpa [isClearOrHome, and_or_left] using hbyte
  cases i <;> simp [Instr.wordNumber, isRawClear] at hnumber ⊢ <;> omega

/-- A raw send of a clear or home byte sends one. -/
theorem isClearOrHome_byteOperand {n : Nat} (h : isRawClear (.sendInstruction n)) :
    isClearOrHome (some (.level false, (byteOperand n).toNat)) = true := by
  rcases h with h | h <;> simp [isClearOrHome, h]

/-! ## Commands leave nothing owed -/

/-- To the observer of a quiet state explained by its trace E is not high. -/
theorem watch_pinE_of_quiet_explained {s : State} (hq : s.quiet) (he : s.explained) :
    latchIn s.cfg.raw.pinE (watch s.cfg.raw s.trace).pins ≠ .level true := by
  obtain ⟨hE, -⟩ := watch_of_quiet_explained hq he
  rw [hE]
  nofun

/-- A quiet state explained by its trace in which no completion bound is violated or owed and the pulses pair up. -/
structure State.CompletionSafe (s : State) : Prop where
  quiet : s.quiet
  explained : s.explained
  unflagged : (watch s.cfg.raw s.trace).hazard = false
  paid : (watch s.cfg.raw s.trace).paidBy s.cfg.raw s.now
  paired : (watch s.cfg.raw s.trace).paired s.cfg.raw

/-- In Running, whatever the shadow, that is all `completionKept` asks for. -/
theorem State.CompletionSafe.completionKept {s : State} (h : s.CompletionSafe) {m : Mode} {sh : Shadow} (hm : m = .running) :
    ({ s with mode := m, shadow := sh } : State).completionKept := by
  subst hm
  exact ⟨h.unflagged, h.paid, nofun, fun _ => h.paired⟩

theorem completionSafe_of_running {s : State} (hquiet : s.quiet) (hexplained : s.explained) (hkept : s.completionKept)
    (hm : s.mode = .running) : s.CompletionSafe := by
  obtain ⟨hflag, hpaid, -, hpaired⟩ := hkept
  exact ⟨hquiet, hexplained, hflag, hpaid, hpaired hm⟩

/-- The observer over the events of a command that transfers a byte is the one over the transfer alone. -/
theorem watch_after_transfer {i : Instr} {rs : Bool} {b : Byte} (h : transferOf i = some (rs, b)) (s : State) :
    watch s.cfg.raw (s.after (eventsOf s.cfg.raw i)).trace
      = (watch s.cfg.raw s.trace).over s.cfg.raw s.draws s.now (send s.cfg.raw rs b) := by
  rw [watch_after, eventsOf_of_transferOf h, Watch.over_append, over_completionWait]

/-- A fall inside the transfer is over by the end of the command, by `T_CLEAR` if the command is CLEAR or HOME (R92, R93). -/
theorem fall_le_after_transfer {i : Instr} {rs : Bool} {b : Byte} (h : transferOf i = some (rs, b)) {s : State} {f : Nat}
    (hf : f ≤ endTime s.draws s.now (send s.cfg.raw rs b)) (hi : i = .clear ∨ i = .home) :
    f + s.cfg.raw.tClear ≤ (s.after (eventsOf s.cfg.raw i)).now := by
  have hwait : completionWait s.cfg.raw i = [.wait s.cfg.raw.tClear] := by rcases hi with rfl | rfl <;> rfl
  rw [after_now, eventsOf_of_transferOf h, endTime_append, hwait, endTime, endTime, Event.minTime]
  omega

/-- A command that transfers a byte keeps all this, unless it is a raw send of a clear or home byte (R192, R197). -/
theorem State.CompletionSafe.after_transfer {s : State} (h : s.CompletionSafe) {i : Instr} {rs : Bool} {b : Byte}
    (ht : transferOf i = some (rs, b)) (hraw : ¬ isRawClear i) : (s.after (eventsOf s.cfg.raw i)).CompletionSafe := by
  have hE := watch_pinE_of_quiet_explained h.quiet h.explained
  have ⟨_, _, hready⟩ := h.quiet
  obtain ⟨first, last, hsend⟩ := transferred_over_send s.cfg rs b (watch_ids _ s.trace) hE h.paired s.draws s.now
  rw [← watch_after_transfer ht] at hsend
  refine ⟨quiet_after_eventsOf h.quiet i, explained_after_eventsOf hready h.explained i,
    hsend.flag.trans (flagAt_eq_false_of_paidBy h.unflagged h.paid hsend.rise), fun f hf => ?paid, hsend.paired h.paired⟩
  case paid =>
    rw [after_cfg, hsend.mark, Option.mem_def, Option.ite_none_right_eq_some] at hf
    obtain ⟨hbyte, hlast⟩ := hf
    obtain rfl := Option.some.inj hlast
    refine fall_le_after_transfer ht hsend.fall ?_
    simpa [hraw] using clear_or_home_of_transferOf ht hbyte

/-- So do several of them. -/
theorem State.CompletionSafe.after_transfers (l : List Instr) (hl : ∀ i ∈ l, (transferOf i).isSome ∧ ¬ isRawClear i)
    {s : State} (h : s.CompletionSafe) : (s.after (l.flatMap (eventsOf s.cfg.raw))).CompletionSafe := by
  induction l generalizing s with
  | nil => rwa [List.flatMap_nil, after_nil]
  | cons i l ih =>
    obtain ⟨⟨hi, hraw⟩, hl⟩ := List.forall_mem_cons.1 hl
    obtain ⟨_, ht⟩ := Option.isSome_iff_exists.1 hi
    rw [List.flatMap_cons, after_append]
    exact ih hl (h.after_transfer ht hraw)

/-! ## `INIT` leaves nothing owed (R131) -/

theorem initByteCommands_transfer (c : RawCfg) : ∀ i ∈ initByteCommands c, (transferOf i).isSome ∧ ¬ isRawClear i := by
  simp [initByteCommands, transferOf, isRawClear]

/-- The lone nibble of a Half block, its first pulse, completes no byte and makes the later pulses pair up (R57, R130). -/
theorem completionSafe_after_initNibble {s : State} (hw : s.cfg.raw.busWidth = .half) (hquiet : s.quiet)
    (hexplained : s.explained) (hflag : (watch s.cfg.raw s.trace).hazard = false)
    (hpaid : (watch s.cfg.raw s.trace).paidBy s.cfg.raw s.now) (hnone : pulsesOf s.cfg.raw s.trace = []) :
    (s.after (eventsOf s.cfg.raw .initNibble)).CompletionSafe := by
  have hE := watch_pinE_of_quiet_explained hquiet hexplained
  have ⟨_, _, hready⟩ := hquiet
  obtain ⟨w, hselect, hpins, -, -, hE', hpulses, hmark, hflag'⟩ :=
    over_select s.cfg false (watch s.cfg.raw s.trace) s.draws s.now (watch_ids _ _)
  obtain ⟨p, hrise, -, -, -, -, hpulse⟩ := over_pulse s.cfg 0x02#8 w (s.draws + 1)
    (endTime s.draws s.now [.wr s.cfg.raw.pinRS false]) (by rw [hpins, setLatch_ids, watch_ids]) (by rwa [hE'])
  have hover : watch s.cfg.raw (s.after (eventsOf s.cfg.raw .initNibble)).trace
      = w.over s.cfg.raw (s.draws + 1) (endTime s.draws s.now [.wr s.cfg.raw.pinRS false]) (pulse s.cfg.raw 0x02#8) := by
    rw [watch_after, eventsOf_initNibble, ← List.singleton_append, Watch.over_append, hselect]
    rfl
  have hlone : w.pulses = [] := hpulses.trans hnone
  rw [hpulse] at hover
  refine ⟨quiet_after_eventsOf hquiet _, explained_after_eventsOf hready hexplained _, ?flag, ?paid, ?paired⟩
  case flag =>
    rw [after_cfg, hover]
    refine flagAt_eq_false_of_paidBy (w := w) (hflag'.trans hflag) (fun f hf => hpaid f (hmark ▸ hf)) (Nat.le_trans ?_ hrise)
    exact le_endTime _ _ _
  case paid =>
    rw [after_cfg, hover, hlone]
    simp [Watch.paidBy, completedByte, hw, isClearOrHome]
  case paired =>
    rw [after_cfg, hover, hlone]
    exact fun _ => rfl

/-- From a state without pulses and without a bound violated or owed `INIT` leaves one where none is and the pulses pair up. -/
theorem completionSafe_after_initEvents {s : State} (hquiet : s.quiet) (hexplained : s.explained)
    (hflag : (watch s.cfg.raw s.trace).hazard = false) (hpaid : (watch s.cfg.raw s.trace).paidBy s.cfg.raw s.now)
    (hnone : pulsesOf s.cfg.raw s.trace = []) : (s.after (initEvents s.cfg.raw)).CompletionSafe := by
  obtain ⟨v, hv⟩ : ∃ v, v = s.after [.wait s.cfg.raw.tPowerOn] := ⟨_, rfl⟩
  have hcfg : v.cfg = s.cfg := by rw [hv, after_cfg]
  have hwatch : watch v.cfg.raw v.trace = watch s.cfg.raw s.trace := by rw [hcfg, hv, watch_after]; rfl
  have hquiet' : v.quiet := hv ▸ quiet_commandClosed.wait s _ hquiet
  have hexplained' : v.explained := hv ▸ explained_stepClosed.after hexplained (by simp)
  have hpaid' : (watch v.cfg.raw v.trace).paidBy v.cfg.raw v.now := fun f hf => by
    rw [hcfg, hv]
    exact Nat.le_trans (hpaid f (hwatch ▸ hf)) (le_endTime _ _ _)
  rw [initEvents, ← List.singleton_append, after_append, ← hv, ← hcfg]
  cases hw : v.cfg.raw.busWidth with
  | full =>
    rw [initCommands_full hw]
    refine .after_transfers _ (initByteCommands_transfer _) ⟨hquiet', hexplained', hwatch ▸ hflag, hpaid', fun h => ?_⟩
    rw [hw] at h
    cases h
  | half =>
    rw [initCommands_half hw, List.flatMap_cons, after_append]
    refine .after_transfers _ (initByteCommands_transfer _) (completionSafe_after_initNibble hw hquiet' hexplained' ?_ hpaid' ?_)
    · rw [hwatch, hflag]
    · rw [pulsesOf, hwatch, ← pulsesOf, hnone]

/-! ## Every command -/

/-- With nothing in flight in Running, a command that answers a next state transfers a byte and leaves its effect (R24). -/
theorem exec_eq_next_of_running {i : Instr} {s t : State} (hp : s.pending = []) (hm : s.mode = .running)
    (h : exec i s = .next t) : ∃ rs b, transferOf i = some (rs, b)
      ∧ t = { s.after (eventsOf s.cfg.raw i) with shadow := shadowOf s.shadow i } := by
  obtain ⟨hmode, -⟩ := exec_eq_next hp h
  rw [hm] at hmode
  have hinit : i ≠ .init := by rintro rfl; cases hmode
  have heffect := (eq_effect_of_exec hinit hp h).trans (effect_eq i s)
  cases i with
  | init => exact absurd rfl hinit
  | initNibble => cases hmode
  | _ => exact ⟨_, _, rfl, heffect⟩

/-- With nothing in flight in Initializing, only `INIT` answers a next state. -/
theorem exec_eq_next_of_initializing {i : Instr} {s t : State} (hp : s.pending = []) (hm : s.mode = .initializing)
    (hready : s.pinsReady) (h : exec i s = .next t) :
    i = .init ∧ t = { s.after (initEvents s.cfg.raw) with mode := .running, shadow := initShadow s.cfg.raw } := by
  obtain ⟨hmode, -⟩ := exec_eq_next hp h
  rw [hm] at hmode
  obtain rfl := eq_init_of_admitted hmode
  rw [exec_init ⟨hp, hm, hready⟩] at h
  exact ⟨rfl, (Host.Outcome.next.inj h).symm⟩

/-- Settles O52. In Initializing the command is `INIT` (`completionSafe_after_initEvents`), in Running it transfers one byte
(`State.CompletionSafe.after_transfer`). -/
theorem namedCommandsKeepTheCompletionBound : Obligations.NamedCommandsKeepTheCompletionBound := by
  intro i s t hp hquiet hexplained hkept hraw h
  have ⟨_, _, hready⟩ := hquiet
  cases hm : s.mode with
  | initializing =>
    obtain ⟨hflag, hpaid, hnone, -⟩ := hkept
    obtain ⟨-, rfl⟩ := exec_eq_next_of_initializing hp hm hready h
    exact (completionSafe_after_initEvents hquiet hexplained hflag hpaid (hnone hm)).completionKept rfl
  | running =>
    obtain ⟨rs, b, ht, rfl⟩ := exec_eq_next_of_running hp hm h
    exact ((completionSafe_of_running hquiet hexplained hkept hm).after_transfer ht hraw).completionKept hm

/-! ## After a raw send of a clear or home byte -/

/-- The observer has not flagged anything yet, but the pulse `p` it saw last has completed a clear or home byte (R192). -/
structure Watch.Owes (c : RawCfg) (w : Watch) (p : Pulse) : Prop where
  newest : w.pulses[0]? = some p
  mark : w.clearFall = some p.fallAt
  unflagged : w.hazard = false
  paired : w.paired c
  low : latchIn c.pinE w.pins ≠ .level true

/-- A raw send of a clear or home byte leaves its completion bound to the host (R115, R203). -/
theorem owes_of_exec_rawClear {s t : State} {n : Nat} (hp : s.pending = []) (hm : s.mode = .running) (h : s.CompletionSafe)
    (hraw : isRawClear (.sendInstruction n)) (ht : exec (.sendInstruction n) s = .next t) :
    ∃ p, (watch s.cfg.raw t.trace).Owes s.cfg.raw p ∧ p.fallAt ≤ t.now := by
  obtain ⟨rs, b, hbyte, rfl⟩ := exec_eq_next_of_running hp hm ht
  obtain ⟨rfl, rfl⟩ : false = rs ∧ byteOperand n = b := by simpa [transferOf] using hbyte
  have hE := watch_pinE_of_quiet_explained h.quiet h.explained
  have ⟨_, _, hready⟩ := h.quiet
  have hE' := watch_pinE_of_quiet_explained (quiet_after_eventsOf h.quiet (.sendInstruction n))
    (explained_after_eventsOf hready h.explained (.sendInstruction n))
  obtain ⟨first, last, hsend⟩ :=
    transferred_over_send s.cfg false (byteOperand n) (watch_ids _ s.trace) hE h.paired s.draws s.now
  rw [← watch_after_transfer hbyte] at hsend
  exact ⟨last, ⟨hsend.newest, hsend.mark.trans (if_pos (isClearOrHome_byteOperand hraw)),
    hsend.flag.trans (flagAt_eq_false_of_paidBy h.unflagged h.paid hsend.rise), hsend.paired h.paired, hE'⟩, hsend.fall⟩

/-- What writes no bus pin leaves it so. -/
theorem Watch.Owes.foldl_see_other {c : RawCfg} {w : Watch} {p : Pulse} (h : w.Owes c p) {new : List (Event × Nat)}
    (hnew : ∀ x ∈ new, ∀ q l, x.1 = .wr q l → ¬ isBusPin c q) : (new.foldl (Watch.see c) w).Owes c p := by
  obtain ⟨hpulses, hmark, hflag, hE⟩ := Machine.foldl_see_other c w new fun x hx q l hw => by
    simpa only [isBusPin, not_or] using hnew x hx q l hw
  exact ⟨hpulses ▸ h.newest, hmark ▸ h.mark, hflag ▸ h.unflagged, fun hw => hpulses ▸ h.paired hw, hE ▸ h.low⟩

/-- The first rise after that is flagged exactly when it comes too early. -/
theorem Watch.Owes.flagAt_iff {c : RawCfg} {w : Watch} {p : Pulse} (h : w.Owes c p) (t : Nat) :
    w.flagAt c t = true ↔ t < p.fallAt + c.tClear := by
  simp [Watch.flagAt, h.unflagged, h.mark]

/-- Where the bound of `p` is owed, the first pulse `q` of the next command decides the flag. -/
theorem flagged_of_owes {v u : State} {j : Instr} {p : Pulse} (hp : v.pending = []) (hm : v.mode = .running)
    (howes : (watch v.cfg.raw v.trace).Owes v.cfg.raw p) (hu : exec j v = .next u) :
    ∃ q, v.now ≤ q.riseAt ∧ (pulsesOf v.cfg.raw u.trace)[pulsesPerByte v.cfg.raw]? = some p
      ∧ (pulsesOf v.cfg.raw u.trace)[pulsesPerByte v.cfg.raw - 1]? = some q
      ∧ (clearHazard v.cfg.raw u.trace = true ↔ q.riseAt < p.fallAt + v.cfg.raw.tClear) := by
  obtain ⟨rs, b, hj, rfl⟩ := exec_eq_next_of_running hp hm hu
  obtain ⟨q, last, hsend⟩ :=
    transferred_over_send v.cfg rs b (watch_ids _ v.trace) howes.low howes.paired v.draws v.now
  rw [← watch_after_transfer hj] at hsend
  refine ⟨q, hsend.rise, (hsend.older 0).trans howes.newest, hsend.oldest, ?_⟩
  rw [clearHazard, hsend.flag, howes.flagAt_iff]

/-- Settles O53. The raw send leaves its bound owed, the host's own events leave it so, and the first rise of the next command is
flagged or not. -/
theorem rawClearIsFlaggedWhenTooEarly : Obligations.RawClearIsFlaggedWhenTooEarly := by
  rintro s t v u n new j ⟨hp, hm, -⟩ hquiet hexplained hkept hraw ht ⟨hvp, hvm, -⟩ hcfg htrace hnew hnow hu
  obtain ⟨htcfg, -⟩ := commandsLeaveOtherStateAlone _ _ _ ht
  have hvcfg : v.cfg = s.cfg := hcfg.trans htcfg
  obtain ⟨p, howes, hfall⟩ := owes_of_exec_rawClear hp hm (completionSafe_of_running hquiet hexplained hkept hm) hraw ht
  have howes' := howes.foldl_see_other hnew
  rw [watch, ← List.foldl_append, ← watch, ← htrace, ← hvcfg] at howes'
  obtain ⟨q, hrise, hp, hq, hflag⟩ := flagged_of_owes hvp hvm howes' hu
  rw [← hvcfg]
  refine ⟨p, q, hp, hq, hflag, fun hwait => ?_⟩
  rw [Bool.eq_false_iff, ne_eq, hflag]
  omega

end Sys2Proof.Machine
end

section
/-!
PROOFS. What a command costs (70_reset_and_hazards.md R201, R202): the pulses it makes and the least time it takes; and the reset
sequence as steps from power-up (R185).
-/

namespace Sys2Proof.Machine

open Sys2Proof.Claims

/-! ## Pulses (R202) -/

theorem latched_length (c : RawCfg) (tr : List (Event × Nat)) : (latched c tr).length = (pulsesOf c tr).length := by
  simp [latched]

theorem ruleLatched_length (c : RawCfg) (rs : Level) (b : Byte) : (ruleLatched c rs b).length = pulsesPerByte c := by
  cases hw : c.busWidth <;> simp [ruleLatched, pulsesPerByte, hw]

theorem commandWords_length {i : Instr} {rs : Bool} {b : Byte} (h : transferOf i = some (rs, b)) (c : RawCfg) :
    (commandWords c i).length = pulsesPerByte c := by
  rw [commandWords_of_transferOf h, ruleLatched_length]

/-- Each of the five bytes of `INIT` has the words of one byte. -/
theorem initByteCommands_words_length (c : Cfg) :
    ((initByteCommands c.raw).flatMap (commandWords c.raw)).length = 5 * pulsesPerByte c.raw := by
  rw [initByteCommands_words, List.length_flatMap, List.map_map]
  simp only [initBytes, Function.comp_def, ruleLatched_length, List.map_cons, List.map_nil, List.sum_cons, List.sum_nil]
  omega

/-- The words of `INIT`: five bytes, and in a Half block the lone nibble. -/
theorem initCommands_words_length (c : Cfg) :
    ((initCommands c.raw).flatMap (commandWords c.raw)).length
      = match c.raw.busWidth with
        | .full => 5
        | .half => 11 := by
  have hbytes := initByteCommands_words_length c
  cases hw : c.raw.busWidth with
  | full => rw [initCommands_full hw, hbytes, pulsesPerByte, hw]; rfl
  | half => rw [initCommands_half hw, List.flatMap_cons, List.length_append, hbytes, pulsesPerByte, hw]; rfl

/-- Settles O51. The pulses are those of the words a command adds (`latched_after_eventsOf`, `latched_after_initEvents`). -/
theorem commandsMakeTheirPulses : Obligations.CommandsMakeTheirPulses := by
  intro i s t hp hquiet hexplained h
  have ⟨_, _, hready⟩ := hquiet
  rw [← latched_length, ← latched_length]
  cases hm : s.mode with
  | initializing =>
    obtain ⟨rfl, rfl⟩ := exec_eq_next_of_initializing hp hm hready h
    have hlength := congrArg List.length (latched_after_initEvents hquiet hexplained)
    rw [List.length_append, initCommands_words_length] at hlength
    refine hlength.trans ?_
    cases s.cfg.raw.busWidth <;> rfl
  | running =>
    obtain ⟨rs, b, ht, rfl⟩ := exec_eq_next_of_running hp hm h
    have hlength := congrArg List.length (latched_after_eventsOf hquiet hexplained i)
    rw [List.length_append, commandWords_length ht, pulsesPerByte] at hlength
    refine hlength.trans ?_
    cases i with
    | init => cases ht
    | _ => cases s.cfg.raw.busWidth <;> rfl

/-! ## The least time of events (R28) -/

/-- The time of events for which nothing but zeros is drawn. -/
def leastTime (es : List Event) : Nat := (es.map Event.minTime).sum

@[simp] theorem leastTime_nil : leastTime [] = 0 := rfl

@[simp] theorem leastTime_cons (e : Event) (es : List Event) : leastTime (e :: es) = e.minTime + leastTime es := by
  simp [leastTime]

@[simp] theorem leastTime_append (es fs : List Event) : leastTime (es ++ fs) = leastTime es + leastTime fs := by
  simp [leastTime]

/-- Acts take at least the least time of their events, whatever is drawn for them. -/
theorem leastTime_le_of_runActs {as : List Act} {s t : State} (h : runActs as s = .next t) :
    s.now + leastTime (as.map (·.event)) ≤ t.now := by
  rw [runActs_eq_next h]
  clear h
  induction as generalizing s with
  | nil => exact Nat.le_refl _
  | cons a as ih =>
    have hrest := ih (s := s.afterAct a)
    rw [afterAct_now] at hrest
    rw [List.map_cons, leastTime_cons, List.foldl_cons]
    omega

theorem leastTime_assertFrom (v : Byte) (k : Nat) (ps : List PinId) : leastTime (assertFrom v k ps) = 0 := by
  induction ps generalizing k with
  | nil => rfl
  | cons p ps ih => simp [assertFrom, Event.minTime, ih]

/-- `u` of R201. -/
theorem leastTime_pulse (c : RawCfg) (v : Byte) : leastTime (pulse c v) = pulseTime c := by
  simp [pulse, assertLines, leastTime_assertFrom, Event.minTime, pulseTime]

theorem leastTime_send (c : RawCfg) (rs : Level) (b : Byte) : leastTime (send c rs b) = pulsesPerByte c * pulseTime c := by
  cases hw : c.busWidth <;> simp [send, pulsesPerByte, hw, leastTime_pulse, Event.minTime, Nat.two_mul]

/-- The minimum duration of a command other than `INIT` is the least time of its events. -/
theorem leastTime_eventsOf (c : RawCfg) {i : Instr} (hi : i ≠ .init) : leastTime (eventsOf c i) = minDuration c i := by
  cases i with
  | init => exact absurd rfl hi
  | initNibble => simp [eventsOf, leastTime_pulse, Event.minTime, minDuration]
  | _ => simp [eventsOf, issueByte, leastTime_send, Event.minTime, minDuration]

/-- Five bytes and the wait of CLEAR. -/
theorem leastTime_initByteCommands (c : RawCfg) :
    leastTime ((initByteCommands c).flatMap (eventsOf c)) = 5 * (pulsesPerByte c * pulseTime c) + c.tClear := by
  simp only [initByteCommands, List.flatMap_cons, List.flatMap_nil, leastTime_append, leastTime_nil, leastTime_eventsOf, ne_eq,
    reduceCtorEq, not_false_eq_true, minDuration]
  omega

/-- The minimum duration of `INIT` is the least time of its wait and its commands. -/
theorem leastTime_initEvents (c : RawCfg) : leastTime (initEvents c) = minDuration c .init := by
  rw [initEvents, leastTime_cons, Event.minTime]
  cases hw : c.busWidth with
  | full =>
    simp only [initCommands_full hw, leastTime_initByteCommands, pulsesPerByte, hw, minDuration]
    omega
  | half =>
    have hnibble : leastTime (eventsOf c .initNibble) = pulseTime c := leastTime_eventsOf c nofun
    simp only [initCommands_half hw, List.flatMap_cons, leastTime_append, hnibble, leastTime_initByteCommands, pulsesPerByte,
      hw, minDuration]
    omega

/-! ## The events a command performs -/

/-- The added assignment changes no event. -/
theorem endWith_events (u : Update) (as : List Act) : (endWith u as).map (·.event) = as.map (·.event) := by
  induction as with
  | nil => rfl
  | cons a as ih =>
    cases as with
    | nil => rfl
    | cons b bs => exact congrArg (a.event :: ·) ih

theorem actsOfInstr_events_of_ne_init (c : RawCfg) {i : Instr} (hi : i ≠ .init) :
    (actsOfInstr c i).map (·.event) = eventsOf c i := by
  rw [actsOfInstr_of_ne_init hi, actsBasic_eq, actsOf_events]

theorem actsOfInstr_init_events (c : RawCfg) : (actsOfInstr c .init).map (·.event) = initEvents c := by
  rw [actsOfInstr, actsInit, List.map_cons, initRest, endWith_events, List.map_flatMap, initEvents]
  simp only [actsBasic_eq, actsOf_events]

/-- A command that answers a next state has run acts with its events, inside `INIT` too. -/
theorem exec_runs_its_events {i : Instr} {s t : State} (h : exec i s = .next t) :
    ∃ as rest, runActs as { s with pending := rest } = .next t
      ∧ as.map (·.event) = (actsOfInstr s.cfg.raw i).map (·.event) := by
  rw [exec_eq] at h
  rcases runCommand_eq_next h with ⟨-, -, hr⟩ | ⟨-, hby, hr⟩
  · exact ⟨_, s.pending, hr, rfl⟩
  · obtain ⟨l, hpend, done, hl⟩ := (issuedByInit_iff s i).1 hby
    have hi : i ≠ .init := ne_init_of_mem_initCommands s.cfg.raw i (by simp [hl])
    refine ⟨_, _, hr, ?_⟩
    rw [hpend, initRest, List.flatMap_cons, List.map_take, endWith_events, List.map_append, actsOfInstr_of_ne_init hi]
    exact List.take_left' (List.length_map _)

/-- Settles O50. The acts a command runs take the least time of its events (`leastTime_le_of_runActs`), which is its minimum
duration. -/
theorem commandsTakeTheirMinimumTime : Obligations.CommandsTakeTheirMinimumTime := by
  intro i s t h
  obtain ⟨as, rest, hr, hevents⟩ := exec_runs_its_events h
  have htime := leastTime_le_of_runActs hr
  rw [hevents] at htime
  by_cases hi : i = .init
  · subst hi
    rwa [actsOfInstr_init_events, leastTime_initEvents] at htime
  · rwa [actsOfInstr_events_of_ne_init _ hi, leastTime_eventsOf _ hi] at htime

/-! ## From power-up (R185) -/

/-- One event for each pin, one for each low pin; the number of data lines is that of R6. -/
theorem resetEvents_length (c : Cfg) :
    (resetEvents c.raw).length = c.raw.busWidth.lineCount + 3 + 2 + 2 * c.raw.pinDbg.toList.length := by
  simp only [resetEvents, RawCfg.pinIds, List.length_append, List.length_map, List.length_cons, List.length_nil,
    Cfg.pinD_length]
  omega

/-- Settles O37. The steps perform what is pending at power-up (`powerUp_drained`), which are the events of the reset sequence. -/
theorem powerUpRunsTheResetSequence : Obligations.PowerUpRunsTheResetSequence := by
  intro c
  have hlength : (resetEvents c.raw).length = (State.powerUp c).pending.length := (List.length_map _).symm
  refine ⟨?_, resetFor_events c, rfl, (resetEvents_length c).trans ?_⟩
  · rw [hlength, steps_eq_ticks _ _ (Nat.le_refl _), ticks_pending, powerUp_drained]
  · cases c.raw.busWidth <;> rfl

end Sys2Proof.Machine
end
